-- ==== Sys2Proof/Word.lean ====
section
/-! DEFINITION. The word types of the engine's bus, registers and numbers. -/

namespace Sys2Proof

/-- One byte of memory, and one 8-bit colour sample (20_memory R63, R65). -/
abbrev Byte := BitVec 8

/-- One 32-bit register, command word or bus datum (10_state R20, 20_memory R60). -/
abbrev Word := BitVec 32

/-- The bit pattern of one IEEE 754 binary64 number (40_transform R100). -/
abbrev F64 := BitVec 64

end Sys2Proof
end

