-- ==== Sys2Proof/Config.lean ====
section
/-! DEFINITION. What the spec fixes once for every engine, what the platform fixes, and the values the
spec leaves free. The free values have no body: nothing can be proved about what they are. -/

namespace Sys2Proof.Config

/-- The identity constant (10_state R21). -/
def idValue : Word := 0x44435438#32

/-- The version constant (10_state R22). -/
def versionValue : Word := 0x00070001#32

/-- MAX_DIM, the largest image width and height (00_scope R7). -/
def maxDim : Nat := 4096

/-- PAYLOAD_CAP in bits (00_scope R7). -/
def payloadCap : Nat := 4096

/-- MAX_SQW, the largest square payload width (00_scope R7). -/
def maxSqw : Nat := 64

/-- VOTE_CAP, the number of vote entries (00_scope R7). -/
def voteCap : Nat := 4096

/-- MAX_TEXT, the largest text length of SER (00_scope R7). -/
def maxText : Nat := 511

/-- First offset of the BLK window (20_memory R62). -/
def blkBase : Nat := 0x1000

/-- First offset of the PAYLOAD window (20_memory R62). -/
def payloadBase : Nat := 0x2000

/-- First offset of the BYTEBUF window (20_memory R62). -/
def byteBufBase : Nat := 0x2400

/-- First offset of the VOTE window (20_memory R62). -/
def voteBase : Nat := 0x4000

/-- First offset of the PIX window (20_memory R62). -/
def pixBase : Nat := 0x01000000

/-- Which of the 64 places at a multiple of 64 MiB the platform gives the engine
(20_memory R62, 93_implementation_defined U4). A parameter of the platform; log entry 1. -/
opaque engineSlot : BitVec 6

/-- ENGINE_BASE, aligned to 64 MiB (20_memory R62). -/
def engineBase : Word := engineSlot ++ 0#26

/-- MEMINIT (93_implementation_defined U1, U13): the byte that a location holds which nothing has
written since the reset with this number. A free value; log entry 2. -/
opaque memInit : Nat → Nat → Byte

/-- BUSYREAD (93_implementation_defined U2): the value of an unspecified read while busy, if it is the
n-th access that is answered. A free value; log entry 3. -/
opaque busyRead : Nat → Word

/-- The read data lanes that no rule gives in the n-th access that is answered: those above a narrow
read, and all of them in the reply to a write (20_memory R60). A free value; log entry 9. -/
opaque openLanes : Nat → Word

/-- What `rne` gives on an infinity or a NaN, which 00_scope R10 does not state. A free value;
log entry 4. -/
opaque rneNonFinite : F64 → Int

end Sys2Proof.Config
end

