-- ==== Sys2Proof/Machine/Float.lean ====
section
/-! DEFINITION. IEEE 754 binary64 arithmetic, exact and then rounded once to nearest, ties to even
(40_transform R100, R101; 00_scope R10). Magnitudes are natural numbers of units of 2^-1074, the smallest
positive binary64 number, so every finite number is a whole number of units. -/

namespace Sys2Proof.Machine

/-- A binary64 datum: a NaN, an infinity, or a signed number of units of 2^-1074. -/
inductive FVal where
  | nan
  | inf (neg : Bool)
  | fin (neg : Bool) (mag : Nat)
deriving DecidableEq, Repr

/-- The exponent field of a pattern. -/
def expField (x : F64) : Nat := (x.toNat >>> 52) % 2048

/-- The fraction field of a pattern. -/
def fracField (x : F64) : Nat := x.toNat % 4503599627370496

/-- The sign bit of a pattern. -/
def signField (x : F64) : Bool := Nat.ble 9223372036854775808 x.toNat

/-- What a pattern stands for. Every NaN pattern is a NaN, whatever its payload
(93_implementation_defined U15); subnormal numbers are kept (40_transform R100). -/
def unpack (x : F64) : FVal :=
  if expField x = 2047 then
    if fracField x = 0 then .inf (signField x) else .nan
  else if expField x = 0 then .fin (signField x) (fracField x)
  else .fin (signField x) ((4503599627370496 + fracField x) <<< (expField x - 1))

/-- The canonical NaN, the only NaN an operation gives (40_transform R101). -/
def canonicalNaN : F64 := 0x7FF8000000000000#64

/-- The pattern with a sign and the 63 bits `m` below it. -/
def packSign (neg : Bool) (m : Nat) : F64 :=
  BitVec.ofNat 64 (if neg then 9223372036854775808 + m else m)

/-- The infinity of a sign. -/
def infinity (neg : Bool) : F64 := packSign neg 9218868437227405312

/-- The place of the highest 1 bit of `n`, for `n < 2^8192`, found by halving; 0 for 0. -/
def topBit (n : Nat) : Nat :=
  [4096, 2048, 1024, 512, 256, 128, 64, 32, 16, 8, 4, 2, 1].foldl
    (fun a k => if n >>> (a + k) = 0 then a else a + k) 0

/-- `num / den` rounded to the nearest natural number, ties to even. -/
def divRne (num den : Nat) : Nat :=
  if 2 * (num % den) < den then num / den
  else if den < 2 * (num % den) then num / den + 1
  else num / den + (num / den) % 2

/-- The places below the 53 bits kept of a magnitude of `num / den` units: 0 where every unit is kept
(the subnormal numbers and the normal ones of the lowest exponent). -/
def dropBits (num den : Nat) : Nat := topBit (num / den) - 52

/-- The lower 63 bits of the binary64 number nearest to `num / den` units, ties to even. The significand
counts on into the exponent field, so a carry out of the significand raises the exponent, and a number
at or beyond 2^1024 becomes the infinity. -/
def roundMag (num den : Nat) : Nat :=
  min ((dropBits num den) <<< 52 + divRne num (den <<< dropBits num den)) 9218868437227405312

/-- The binary64 number nearest to the exact value ± `num / den` units, ties to even
(40_transform R100). -/
def roundUnits (neg : Bool) (num den : Nat) : F64 := packSign neg (roundMag num den)

/-- The sum of two data: exact, then rounded once. An exact zero is +0 unless both operands are −0. -/
def addVal : FVal → FVal → F64
  | .nan, _ => canonicalNaN
  | .inf _, .nan => canonicalNaN
  | .fin _ _, .nan => canonicalNaN
  | .inf a, .inf b => if a = b then infinity a else canonicalNaN
  | .inf a, .fin _ _ => infinity a
  | .fin _ _, .inf b => infinity b
  | .fin a m, .fin b n =>
    if a = b then roundUnits a (m + n) 1
    else if n < m then roundUnits a (m - n) 1
    else if m < n then roundUnits b (n - m) 1
    else 0#64

/-- The product of two data: exact, then rounded once. -/
def mulVal : FVal → FVal → F64
  | .nan, _ => canonicalNaN
  | .inf _, .nan => canonicalNaN
  | .fin _ _, .nan => canonicalNaN
  | .inf a, .inf b => infinity (a ^^ b)
  | .inf a, .fin b n => if n = 0 then canonicalNaN else infinity (a ^^ b)
  | .fin a m, .inf b => if m = 0 then canonicalNaN else infinity (a ^^ b)
  | .fin a m, .fin b n => roundUnits (a ^^ b) (m * n) (1 <<< 1074)

/-- The quotient of two data: exact, then rounded once. -/
def divVal : FVal → FVal → F64
  | .nan, _ => canonicalNaN
  | .inf _, .nan => canonicalNaN
  | .fin _ _, .nan => canonicalNaN
  | .inf _, .inf _ => canonicalNaN
  | .inf a, .fin b _ => infinity (a ^^ b)
  | .fin a _, .inf b => packSign (a ^^ b) 0
  | .fin a m, .fin b n =>
    if n = 0 then
      if m = 0 then canonicalNaN else infinity (a ^^ b)
    else roundUnits (a ^^ b) (m <<< 1074) n

/-- `x + y` (40_transform R100). -/
def fadd (x y : F64) : F64 := addVal (unpack x) (unpack y)

/-- `-x`, exact: adding 2^63 modulo 2^64 turns over the sign bit and no other (41_embed R122). -/
def fneg (x : F64) : F64 := x + 0x8000000000000000#64

/-- `x - y`, the one rounding of `x + (-y)` (40_transform R100). -/
def fsub (x y : F64) : F64 := fadd x (fneg y)

/-- `x * y` (40_transform R100). -/
def fmul (x y : F64) : F64 := mulVal (unpack x) (unpack y)

/-- `x / y` (40_transform R100). -/
def fdiv (x y : F64) : F64 := divVal (unpack x) (unpack y)

/-- `fabs(x)` clears the sign bit (00_scope R10). -/
def fabs (x : F64) : F64 := x &&& 0x7FFFFFFFFFFFFFFF#64

/-- `f64(n)` (00_scope R10), exact for every `n < 2^53`. -/
def fofNat (n : Nat) : F64 := roundUnits false (n <<< 1074) 1

/-- A signed magnitude as an integer. -/
def signedMag (neg : Bool) (m : Nat) : Int := if neg then -(m : Int) else (m : Int)

/-- The place of a datum in the order of the reals, in units, the infinities beyond every finite number;
none for a NaN. -/
def orderKey : FVal → Option Int
  | .nan => none
  | .inf neg => some (signedMag neg (1 <<< 2200))
  | .fin neg m => some (signedMag neg m)

/-- `x < y`, false when either is a NaN (00_scope R10). `x > y` is `flt y x`. -/
def flt (x y : F64) : Bool :=
  match orderKey (unpack x), orderKey (unpack y) with
  | some a, some b => decide (a < b)
  | _, _ => false

/-- `rne(x)`: the nearest integer, ties to even (00_scope R10). The rule states no integer for an
infinity or a NaN: there the result is a free value (log entry 4). -/
def frne (x : F64) : Int :=
  match unpack x with
  | .fin neg m => signedMag neg (divRne m (1 <<< 1074))
  | _ => Config.rneNonFinite x

end Sys2Proof.Machine
end

