-- ==== Sys2Proof/Syntax.lean ====
section
/-! DEFINITION. The commands of the engine, one constructor per row of the opcode table (30_encoding R87). -/

namespace Sys2Proof

/-- A rotation hypothesis: the image in PIX is the original turned clockwise by this angle
(42_search R140). -/
inductive Rotation where
  | deg0
  | deg90
  | deg180
  | deg270
deriving DecidableEq, Repr

/-- The sampling stride of HYPE, the field S8 (30_encoding R86). -/
inductive Stride where
  | every16
  | every8
deriving DecidableEq, Repr

/-- A command with its operands (30_encoding R87, R93). The offsets `ox`, `oy` are pixel counts;
`Instr.wellFormed` holds them below 8. -/
inductive Instr where
  | nop
  | fdct
  | idct
  | margin (bit : Bool)
  | ldluma (rot : Rotation)
  | hype (rot : Rotation) (ox oy : Nat) (stride : Stride)
  | search
  | vote (rot : Rotation) (ox oy : Nat)
  | decode
  | embed
  | ser
  | deser
deriving DecidableEq, Repr

end Sys2Proof
end

