-- ==== Sys2Proof/Machine/State.lean ====
section
/-! DEFINITION. The state of the engine and of its bus port, the reasons a step could stop, and the state
after reset. -/

namespace Sys2Proof.Machine

/-- The completion codes (60_exceptions R200). The codes 6 to 15 are never written. -/
inductive Code where
  | none
  | emptyPayload
  | invalidImage
  | noSignalDetected
  | badParameter
  | illegalCommand
deriving DecidableEq, Repr

/-- The STATUS register by fields (10_state R26). -/
structure Status where
  busy : Bool
  done : Bool
  err  : Bool
  warn : Bool
  rej  : Bool
  code : Code
deriving DecidableEq, Repr

/-- The BLKPOS register by fields (10_state R35). -/
structure BlkPos where
  x0 : BitVec 13
  y0 : BitVec 13
deriving DecidableEq, Repr

/-- The RESULT register by fields (10_state R36). -/
structure ResultReg where
  rot : Rotation
  ox  : BitVec 3
  oy  : BitVec 3
deriving DecidableEq, Repr

/-- The size of a host access (20_memory R60). -/
inductive Size where
  | byte
  | half
  | word
deriving DecidableEq, Repr

/-- One access on the host bus port (20_memory R60). -/
inductive BusAccess where
  | read (addr : Word) (size : Size)
  | write (addr : Word) (size : Size) (data : Word)
deriving DecidableEq, Repr

/-- The response to a host access (20_memory R60). -/
inductive Resp where
  | okay
  | error
deriving DecidableEq, Repr

/-- The reply to a host access: the response and the 32 bits of read data (20_memory R60). -/
structure Reply where
  resp : Resp
  data : Word
deriving DecidableEq, Repr

/-- What one step brings from outside and which agent moves in it (60_exceptions R209): the reset input,
at most one host access, and whether a running command takes its step. Log entry 5. -/
structure Turn where
  reset  : Bool
  access : Option BusAccess
  engine : Bool
deriving DecidableEq, Repr

/-- Byte-addressed storage: listed locations have been written since reset, by offset from ENGINE_BASE;
an unlisted location has no value of its own (10_state R54). -/
abbrev Memory := List Host.Cell

/-- The whole state (10_state R20 to R54). The constants ID and VERSION are in `Config`. The last four
fields are the model's own: the host's coming accesses, the reply port, and the numbers of the resets and
of the answered accesses, which index the free values. -/
structure State where
  cmd        : Word
  status     : Status
  imgW       : BitVec 13
  imgH       : BitVec 13
  strength   : BitVec 16
  sqw        : BitVec 8
  payloadLen : BitVec 13
  bitOffset  : BitVec 3
  textLen    : BitVec 10
  blkPos     : BlkPos
  result     : ResultReg
  blocks     : Word
  conf       : F64
  energy     : F64
  ecount     : Word
  byteCount  : BitVec 10
  floor      : F64
  doneIe     : Bool
  doneIp     : Bool
  mem        : Memory
  turns      : List Turn
  reply      : Option Reply
  resets     : Nat
  draws      : Nat
deriving DecidableEq, Repr

/-- The reasons the machine could stop with a fault: there is none. Every refused host access is answered
on the bus and every failing command completes with a code (60_exceptions R202, R212; 70_reset R240), so
no meaning and no step raises one, which is safe. -/
inductive Fault where
deriving DecidableEq, Repr

/-- The reasons a step could refuse. -/
inductive Refusal where
  /-- Raised by an arm of `exec` whose command has no meaning yet, and by nothing else: safe. -/
  | notModelled (mnemonic : String)
deriving DecidableEq, Repr

/-- STATUS after reset (10_state R26, R53). -/
def Status.reset : Status :=
  { busy := false, done := false, err := false, warn := false, rej := false, code := .none }

/-- The engine right after reset (10_state R53, R54; 70_reset R230 to R232). Every register has the
value the spec gives; no memory location is listed. The model's own fields are empty or 0 (log entry 6). -/
def State.reset : State :=
  { cmd := 0#32
    status := Status.reset
    imgW := 0#13
    imgH := 0#13
    strength := 0#16
    sqw := 0#8
    payloadLen := 0#13
    bitOffset := 0#3
    textLen := 0#10
    blkPos := { x0 := 0#13, y0 := 0#13 }
    result := { rot := .deg0, ox := 0#3, oy := 0#3 }
    blocks := 0#32
    conf := 0#64
    energy := 0#64
    ecount := 0#32
    byteCount := 0#10
    floor := 0#64
    doneIe := false
    doneIp := false
    mem := []
    turns := []
    reply := none
    resets := 0
    draws := 0 }

end Sys2Proof.Machine
end

