-- ==== Sys2Proof/Machine/Ops.lean ====
section
/-! DEFINITION. The named operations over memory and registers: storage, little-endian values, acceptance
and completion of a command, and reset. -/

namespace Sys2Proof.Machine

/-! ### Storage -/

/-- The canonical form: addresses strictly rising, so each at most once. An unlisted location has no
value of its own, so every listed entry differs from it (10_state R54). -/
abbrev Memory.wf (m : Memory) : Prop := m.Pairwise (fun p q => p.1 < q.1)

/-- The byte last written at a location, none where nothing has been written since reset
(10_state R54). -/
def Memory.read? : Memory → Nat → Option Byte
  | [], _ => none
  | (b, v) :: rest, a => if b = a then some v else Memory.read? rest a

/-- The cells of the bytes `vs` from the address `a` upwards. -/
def cellsFrom : Nat → List Byte → Memory
  | _, [] => []
  | a, v :: vs => (a, v) :: cellsFrom (a + 1) vs

/-- The bytes `vs` written at `a` upwards: the one write operation of the model. -/
def Memory.write (m : Memory) (a : Nat) (vs : List Byte) : Memory :=
  m.filter (fun c => decide (c.1 < a)) ++ cellsFrom a vs
    ++ m.filter (fun c => decide (a + vs.length ≤ c.1))

/-- The byte at an offset: the one last written, or the free value MEMINIT where nothing has been written
since reset (93_implementation_defined U1; log entry 2). -/
def State.byteAt (s : State) (off : Nat) : Byte :=
  (s.mem.read? off).getD (Config.memInit s.resets off)

/-- The `n` bytes from an offset upwards. -/
def State.bytesAt (s : State) (off n : Nat) : List Byte :=
  (List.range n).map fun i => s.byteAt (off + i)

/-- The state with the bytes `vs` stored from `off` upwards. -/
def State.store (s : State) (off : Nat) (vs : List Byte) : State :=
  { s with mem := s.mem.write off vs }

/-! ### Byte order -/

/-- The number of a list of bytes, the least significant first (20_memory R63). -/
def ofLittle : List Byte → Nat
  | [] => 0
  | b :: bs => b.toNat + 256 * ofLittle bs

/-- The `n` low bytes of a number, the least significant first (20_memory R63). -/
def toLittle : Nat → Nat → List Byte
  | 0, _ => []
  | n + 1, v => BitVec.ofNat 8 v :: toLittle n (v / 256)

/-- The binary64 value at an offset (20_memory R63, R64). -/
def State.f64At (s : State) (off : Nat) : F64 :=
  BitVec.ofNat 64 (ofLittle (s.bytesAt off 8))

/-- The bytes of binary64 values in order (20_memory R64). -/
def f64Bytes (xs : List F64) : List Byte :=
  xs.flatMap fun x => toLittle 8 x.toNat

/-! ### Completion, which is this hardware's trap entry, and acceptance -/

/-- `Complete(code, err, warn)` (60_exceptions R206): STATUS.REJ keeps its value, and DONE_IP is set. -/
def State.complete (s : State) (code : Code) (err warn : Bool) : State :=
  { s with
    status := { s.status with busy := false, done := true, err := err, warn := warn, code := code }
    doneIp := true }

/-- The completion of a command that ran with code 0 (60_exceptions R202). -/
def State.succeed (s : State) : State := s.complete .none false false

/-- `raise E`: the command ends with a fatal error and no other effect (60_exceptions R202). -/
def State.raise (s : State) (e : Code) : State := s.complete e true false

/-- The completion of a command word that names no command (30_encoding R88, R89). -/
def State.illegalCommand (s : State) : State := s.raise .illegalCommand

/-- The code of the first check that fails, in the order of the list (60_exceptions R203). -/
def firstFailing : List (Bool × Code) → Option Code
  | [] => none
  | (fails, e) :: rest => if fails then some e else firstFailing rest

/-- `Run(w)` of 60_exceptions R202 for one command: the first failing check is raised with no other
effect; where none fails, the command's statements run and complete it. -/
def runChecked (s : State) (checks : List (Bool × Code)) (execute : State → State) :
    Host.Outcome State Fault Refusal :=
  match firstFailing checks with
  | some e => .next (s.raise e)
  | none => .next (execute s)

/-- STATUS at acceptance (60_exceptions R205). -/
def Status.accepted : Status :=
  { busy := true, done := false, err := false, warn := false, rej := false, code := .none }

/-- Acceptance of the word `w` (60_exceptions R205). -/
def State.accept (s : State) (w : Word) : State :=
  { s with cmd := w, status := Status.accepted }

/-- The host's write to IRQ_STAT, by which it returns from its handling of a completion
(10_state R44, 60_exceptions R210): bit 0 = 1 clears DONE_IP, bit 0 = 0 leaves it. -/
def State.clearIrq (s : State) (w : Word) : State :=
  { s with doneIp := s.doneIp && !w.getLsbD 0 }

/-- A host write rejected while busy sets STATUS.REJ (20_memory R76). -/
def State.reject (s : State) : State :=
  { s with status := { s.status with rej := true } }

/-! ### Reset -/

/-- The reset event (70_reset R230 to R233): every register takes its reset value, a running command is
abandoned, and every location counts as never written. The coming turns are the outside world's and
stay; `resets` counts up, so that MEMINIT is drawn anew. -/
def State.applyReset (s : State) : State :=
  { State.reset with turns := s.turns, resets := s.resets + 1, draws := s.draws }

end Sys2Proof.Machine
end

