-- ==== Sys2Proof/Machine/Flags.lean ====
section
/-! DEFINITION. The STATUS word, the completion codes, the interrupt output and the NoSignal warning: the
only flags of the hardware (10_state R26). -/

namespace Sys2Proof.Machine

/-- The number of a completion code (60_exceptions R200). -/
def Code.number : Code → BitVec 4
  | .none => 0#4
  | .emptyPayload => 1#4
  | .invalidImage => 2#4
  | .noSignalDetected => 3#4
  | .badParameter => 4#4
  | .illegalCommand => 5#4

/-- The codes of a fatal error (60_exceptions R200). -/
def Code.fatal : Code → Bool
  | .none => false
  | .emptyPayload => true
  | .invalidImage => true
  | .noSignalDetected => false
  | .badParameter => true
  | .illegalCommand => true

/-- The STATUS register as the host reads it; bits [7:5] and [31:12] read 0 (10_state R26). -/
def Status.word (t : Status) : Word :=
  (BitVec.ofBool t.busy).setWidth 32 ||| ((BitVec.ofBool t.done).setWidth 32 <<< 1)
    ||| ((BitVec.ofBool t.err).setWidth 32 <<< 2) ||| ((BitVec.ofBool t.warn).setWidth 32 <<< 3)
    ||| ((BitVec.ofBool t.rej).setWidth 32 <<< 4) ||| (t.code.number.setWidth 32 <<< 8)

/-- The interrupt output, a level: `irq = DONE_IE AND DONE_IP` (60_exceptions R207). -/
def State.irq (s : State) : Bool := s.doneIe && s.doneIp

/-- `NoSignalCheck(e)` and the completion it decides (42_search R150): no hypothesis above the floor is
the warning NoSignalDetected. A NaN in FLOOR makes every search report it. -/
def State.finishSearch (s : State) (e : F64) : State :=
  if flt s.floor e then s.complete .none false false
  else s.complete .noSignalDetected false true

end Sys2Proof.Machine
end

