-- ==== Sys2Proof/WellFormed.lean ====
section
/-! DEFINITION. Which commands have an encoding: the offsets fit their 3-bit fields. -/

namespace Sys2Proof

/-- `ox, oy ∈ 0..7` (30_encoding R93). -/
def offsetsFit (ox oy : Nat) : Bool := decide (ox < 8) && decide (oy < 8)

/-- The operand ranges of 30_encoding R93; the other operands are in range by their types. -/
def Instr.wellFormed : Instr → Bool
  | .nop => true
  | .fdct => true
  | .idct => true
  | .margin _ => true
  | .ldluma _ => true
  | .hype _ ox oy _ => offsetsFit ox oy
  | .search => true
  | .vote _ ox oy => offsetsFit ox oy
  | .decode => true
  | .embed => true
  | .ser => true
  | .deser => true

end Sys2Proof
end

