-- ==== Sys2Proof/Decode.lean ====
section
/-! DEFINITION. The command words: the opcode table, the decoder, total on every word and rejecting by
name, and the encoder. -/

namespace Sys2Proof

/-- Why a word names no command (30_encoding R88, R89). Both end the command with IllegalCommand. -/
inductive Reject where
  /-- The opcode is 0x0C to 0xFF (R88). -/
  | reservedOpcode
  /-- The opcode is defined and a bit outside the command's fields is 1 (R89). -/
  | strayBits
deriving DecidableEq, Repr

/-- One row of the opcode table (30_encoding R87). -/
structure Row where
  mnemonic : String
  fixed : Word
  mask : Word
deriving DecidableEq, Repr

/-- The opcode table of 30_encoding R87, as `opcode_table.json` has it. -/
def opcodeTable : List Row :=
  [⟨"NOP", 0x00#32, 0xFFFFFFFF#32⟩, ⟨"FDCT", 0x01#32, 0xFFFFFFFF#32⟩,
   ⟨"IDCT", 0x02#32, 0xFFFFFFFF#32⟩, ⟨"MARGIN", 0x03#32, 0xFFFFEFFF#32⟩,
   ⟨"LDLUMA", 0x04#32, 0xFFFFFCFF#32⟩, ⟨"HYPE", 0x05#32, 0xFE88FCFF#32⟩,
   ⟨"SEARCH", 0x06#32, 0xFFFFFFFF#32⟩, ⟨"VOTE", 0x07#32, 0xFF88FCFF#32⟩,
   ⟨"DECODE", 0x08#32, 0xFFFFFFFF#32⟩, ⟨"EMBED", 0x09#32, 0xFFFFFFFF#32⟩,
   ⟨"SER", 0x0A#32, 0xFFFFFFFF#32⟩, ⟨"DESER", 0x0B#32, 0xFFFFFFFF#32⟩]

/-- The code of a rotation: degrees divided by 90 (30_encoding R85, R86). -/
def Rotation.code : Rotation → BitVec 2
  | .deg0 => 0#2
  | .deg90 => 1#2
  | .deg180 => 2#2
  | .deg270 => 3#2

/-- The rotation of a code (30_encoding R86). -/
def Rotation.ofCode (c : BitVec 2) : Rotation :=
  match c.toNat with
  | 0 => .deg0
  | 1 => .deg90
  | 2 => .deg180
  | _ => .deg270

/-- The bit S8 of a stride (30_encoding R86). -/
def Stride.code : Stride → BitVec 1
  | .every16 => 0#1
  | .every8 => 1#1

/-- The stride of the bit S8 (30_encoding R86). -/
def Stride.ofCode (c : BitVec 1) : Stride :=
  if c = 1#1 then .every8 else .every16

/-- A stride in pixels (30_encoding R86). -/
def Stride.pixels : Stride → Nat
  | .every16 => 16
  | .every8 => 8

/-- OPC, bits [7:0] (30_encoding R85). -/
def opcField (w : Word) : BitVec 8 := w.extractLsb' 0 8

/-- ROT, bits [9:8] (30_encoding R85). -/
def rotField (w : Word) : BitVec 2 := w.extractLsb' 8 2

/-- BIT, bit [12] (30_encoding R85). -/
def bitField (w : Word) : Bool := w.getLsbD 12

/-- OX, bits [18:16] (30_encoding R85). -/
def oxField (w : Word) : BitVec 3 := w.extractLsb' 16 3

/-- OY, bits [22:20] (30_encoding R85). -/
def oyField (w : Word) : BitVec 3 := w.extractLsb' 20 3

/-- S8, bit [24] (30_encoding R85). -/
def s8Field (w : Word) : BitVec 1 := w.extractLsb' 24 1

/-- The command `i`, unless a bit that `mask` covers, other than the opcode's, is 1 (30_encoding R89). -/
def unlessStray (w mask : Word) (i : Instr) : Except Reject Instr :=
  if w &&& mask &&& 0xFFFFFF00#32 = 0#32 then .ok i else .error .strayBits

/-- The decoder: OPC alone selects the command (30_encoding R85 to R89). -/
def decode (w : Word) : Except Reject Instr :=
  match (opcField w).toNat with
  | 0x00 => unlessStray w 0xFFFFFFFF#32 .nop
  | 0x01 => unlessStray w 0xFFFFFFFF#32 .fdct
  | 0x02 => unlessStray w 0xFFFFFFFF#32 .idct
  | 0x03 => unlessStray w 0xFFFFEFFF#32 (.margin (bitField w))
  | 0x04 => unlessStray w 0xFFFFFCFF#32 (.ldluma (.ofCode (rotField w)))
  | 0x05 => unlessStray w 0xFE88FCFF#32
      (.hype (.ofCode (rotField w)) (oxField w).toNat (oyField w).toNat (.ofCode (s8Field w)))
  | 0x06 => unlessStray w 0xFFFFFFFF#32 .search
  | 0x07 => unlessStray w 0xFF88FCFF#32
      (.vote (.ofCode (rotField w)) (oxField w).toNat (oyField w).toNat)
  | 0x08 => unlessStray w 0xFFFFFFFF#32 .decode
  | 0x09 => unlessStray w 0xFFFFFFFF#32 .embed
  | 0x0A => unlessStray w 0xFFFFFFFF#32 .ser
  | 0x0B => unlessStray w 0xFFFFFFFF#32 .deser
  | _ => .error .reservedOpcode

/-- The word of the fields, as the assembler makes it (30_encoding R93). -/
def assemble (opc : BitVec 8) (rot : BitVec 2) (bit : Bool) (ox oy : Nat) (s8 : BitVec 1) : Word :=
  opc.setWidth 32 ||| (rot.setWidth 32 <<< 8) ||| ((BitVec.ofBool bit).setWidth 32 <<< 12)
    ||| (BitVec.ofNat 32 ox <<< 16) ||| (BitVec.ofNat 32 oy <<< 20) ||| (s8.setWidth 32 <<< 24)

/-- The command word of a well-formed command (30_encoding R93). -/
def encode : Instr → Word
  | .nop => assemble 0x00#8 0#2 false 0 0 0#1
  | .fdct => assemble 0x01#8 0#2 false 0 0 0#1
  | .idct => assemble 0x02#8 0#2 false 0 0 0#1
  | .margin b => assemble 0x03#8 0#2 b 0 0 0#1
  | .ldluma r => assemble 0x04#8 r.code false 0 0 0#1
  | .hype r ox oy st => assemble 0x05#8 r.code false ox oy st.code
  | .search => assemble 0x06#8 0#2 false 0 0 0#1
  | .vote r ox oy => assemble 0x07#8 r.code false ox oy 0#1
  | .decode => assemble 0x08#8 0#2 false 0 0 0#1
  | .embed => assemble 0x09#8 0#2 false 0 0 0#1
  | .ser => assemble 0x0A#8 0#2 false 0 0 0#1
  | .deser => assemble 0x0B#8 0#2 false 0 0 0#1

/-- The command in a table word of `nbits` bits; every command is one 32-bit word (30_encoding R85). -/
def decodeTableWord (nbits w : Nat) : Option Instr :=
  match decode (BitVec.ofNat 32 (w % 2 ^ nbits)) with
  | .ok i => some i
  | .error _ => none

end Sys2Proof
end

