-- ==== Sys2Proof/Machine/Operands.lean ====
section
/-! DEFINITION. The operands of the commands: pixels, the block register file, the vote buffer, payload
bits, text bytes and the configuration registers as numbers (30_encoding R86; 20_memory R64 to R67). -/

namespace Sys2Proof.Machine

/-! ### Pixels -/

/-- The colour samples of one pixel. The A sample is never read (41_embed R129). -/
structure Rgb where
  r : Byte
  g : Byte
  b : Byte
deriving DecidableEq, Repr

/-- IMG_W as a number of pixels. -/
def State.width (s : State) : Nat := s.imgW.toNat

/-- IMG_H as a number of pixels. -/
def State.height (s : State) : Nat := s.imgH.toNat

/-- The offset of the pixel at column `x`, row `y` of an image `w` pixels wide (20_memory R65). -/
def pixelOffset (w x y : Nat) : Nat := Config.pixBase + 4 * (y * w + x)

/-- The R, G and B samples of PIX(x, y) (20_memory R65). -/
def State.rgbAt (s : State) (x y : Nat) : Rgb :=
  { r := s.byteAt (pixelOffset s.width x y)
    g := s.byteAt (pixelOffset s.width x y + 1)
    b := s.byteAt (pixelOffset s.width x y + 2) }

/-- The R, G and B samples of PIX(x, y) written; A is not (41_embed R129). -/
def State.storeRgb (s : State) (x y : Nat) (p : Rgb) : State :=
  s.store (pixelOffset s.width x y) [p.r, p.g, p.b]

/-- IMG_W or IMG_H outside 1..4096 (10_state R28, R29). -/
def State.imageInvalid (s : State) : Bool :=
  !(decide (1 ≤ s.width) && decide (s.width ≤ Config.maxDim)
    && decide (1 ≤ s.height) && decide (s.height ≤ Config.maxDim))

/-! ### The block register file -/

/-- BLK[0..63] (20_memory R64). -/
def State.blk (s : State) : List F64 :=
  (List.range 64).map fun k => s.f64At (Config.blkBase + 8 * k)

/-- `for k in 0..63: BLK[k] <- xs[k]` (20_memory R64). -/
def State.storeBlk (s : State) (xs : List F64) : State :=
  s.store Config.blkBase (f64Bytes xs)

/-! ### The vote buffer -/

/-- V[k] (20_memory R64). -/
def State.vote (s : State) (k : Nat) : F64 := s.f64At (Config.voteBase + 8 * k)

/-- The 4096 entries of V written (20_memory R64). -/
def State.storeVotes (s : State) (vs : List F64) : State :=
  s.store Config.voteBase (f64Bytes vs)

/-! ### Payload bits and text bytes -/

/-- PBIT(i): bit 7 − (i mod 8) of the byte at 0x2000 + (i div 8) (20_memory R66). -/
def State.pbit (s : State) (i : Nat) : Bool :=
  (s.byteAt (Config.payloadBase + i / 8)).getLsbD (7 - i % 8)

/-- Eight bits as a byte, the first the most significant (44_payload R181). -/
def packByte (f : Nat → Bool) : Byte :=
  BitVec.ofNat 8 ((List.range 8).foldl (fun c t => 2 * c + (f t).toNat) 0)

/-- `for k in 0..n-1: PBIT(k) <- bits k`. In a last byte that is not full the other bits are unchanged
(20_memory R66). -/
def State.storePbits (s : State) (n : Nat) (bits : Nat → Bool) : State :=
  s.store Config.payloadBase ((List.range ((n + 7) / 8)).map fun j =>
    packByte fun t => if 8 * j + t < n then bits (8 * j + t) else s.pbit (8 * j + t))

/-- BYTE(j) (20_memory R67). -/
def State.textByte (s : State) (j : Nat) : Byte := s.byteAt (Config.byteBufBase + j)

/-- `for j in 0..: BYTE(j) <- vs[j]` (20_memory R67). -/
def State.storeText (s : State) (vs : List Byte) : State := s.store Config.byteBufBase vs

/-! ### Registers a command writes -/

/-- PAYLOAD_LEN written by the engine (10_state R32). -/
def State.setPayloadLen (s : State) (n : Nat) : State :=
  { s with payloadLen := BitVec.ofNat 13 n }

/-- BLOCKS written (10_state R41). -/
def State.setBlocks (s : State) (n : Nat) : State :=
  { s with blocks := BitVec.ofNat 32 n }

/-- BYTE_COUNT written (10_state R42). -/
def State.setByteCount (s : State) (n : Nat) : State :=
  { s with byteCount := BitVec.ofNat 10 n }

/-- ENERGY and ECOUNT written (10_state R39, R40). -/
def State.setEnergy (s : State) (e : F64) (n : Nat) : State :=
  { s with energy := e, ecount := BitVec.ofNat 32 n }

/-- RESULT and CONF written (10_state R36, R38). -/
def State.setWinner (s : State) (rot : Rotation) (ox oy : Nat) (e : F64) : State :=
  { s with result := { rot := rot, ox := BitVec.ofNat 3 ox, oy := BitVec.ofNat 3 oy }, conf := e }

end Sys2Proof.Machine
end

