-- ==== Sys2Proof/Machine/Bus.lean ====
section
/-! DEFINITION. The host bus port: the address map, the answers to host accesses, what a running command
changes of them, and what one step brings from outside (20_memory, 60_exceptions). -/

namespace Sys2Proof.Machine

/-! ### The address map -/

/-- The windows of the address map (20_memory R62). -/
inductive Window where
  | registers
  | blk
  | payload
  | byteBuf
  | vote
  | pix
deriving DecidableEq, Repr

/-- The window of an offset, none where it is unmapped (20_memory R62, R70). -/
def window (off : Nat) : Option Window :=
  if off < 0x1000 then some .registers
  else if off < 0x1200 then some .blk
  else if off < 0x2000 then none
  else if off < 0x2200 then some .payload
  else if off < 0x2400 then none
  else if off < 0x2600 then some .byteBuf
  else if off < 0x4000 then none
  else if off < 0xC000 then some .vote
  else if off < 0x01000000 then none
  else if off < 0x05000000 then some .pix
  else none

/-- The offset of a bus address from ENGINE_BASE (20_memory R62; log entry 1). -/
def busOffset (addr : Word) : Nat := (addr - Config.engineBase).toNat

/-- The bytes of an access (20_memory R60). -/
def Size.bytes : Size → Nat
  | .byte => 1
  | .half => 2
  | .word => 4

/-- The accesses refused whether or not the engine is busy: misaligned, of a wrong width for the register
page, or unmapped (20_memory R68, R69, R70). -/
def accessRefused (off : Nat) (size : Size) : Bool :=
  decide (off % size.bytes ≠ 0) ||
    match window off with
    | none => true
    | some .registers => decide (size ≠ .word)
    | some _ => false

/-! ### The register page -/

/-- BLKPOS as the host reads it (10_state R35). -/
def BlkPos.word (p : BlkPos) : Word := p.x0.setWidth 32 ||| (p.y0.setWidth 32 <<< 16)

/-- RESULT as the host reads it (10_state R36). -/
def ResultReg.word (r : ResultReg) : Word :=
  r.rot.code.setWidth 32 ||| (r.ox.setWidth 32 <<< 8) ||| (r.oy.setWidth 32 <<< 16)

/-- The 32 bits [31:0] of a binary64 value (10_state R37 to R39). -/
def lowWord (x : F64) : Word := x.extractLsb' 0 32

/-- The 32 bits [63:32] of a binary64 value (10_state R37 to R39). -/
def highWord (x : F64) : Word := x.extractLsb' 32 32

/-- The register at an offset of the register page; reserved bits and reserved offsets read 0
(10_state R20 to R46). -/
def State.readReg (s : State) (off : Nat) : Word :=
  match off with
  | 0x000 => Config.idValue
  | 0x004 => Config.versionValue
  | 0x008 => s.cmd
  | 0x00C => s.status.word
  | 0x010 => s.imgW.setWidth 32
  | 0x014 => s.imgH.setWidth 32
  | 0x018 => s.strength.setWidth 32
  | 0x01C => s.sqw.setWidth 32
  | 0x020 => s.payloadLen.setWidth 32
  | 0x024 => s.bitOffset.setWidth 32
  | 0x028 => s.textLen.setWidth 32
  | 0x02C => s.blkPos.word
  | 0x030 => s.result.word
  | 0x034 => s.blocks
  | 0x038 => lowWord s.conf
  | 0x03C => highWord s.conf
  | 0x040 => lowWord s.energy
  | 0x044 => highWord s.energy
  | 0x048 => s.ecount
  | 0x04C => s.byteCount.setWidth 32
  | 0x050 => lowWord s.floor
  | 0x054 => highWord s.floor
  | 0x058 => (BitVec.ofBool s.doneIe).setWidth 32
  | 0x05C => (BitVec.ofBool s.doneIp).setWidth 32
  | _ => 0#32

/-- A 32-bit write to the register page while idle: the named fields are stored, a write to CMD issues a
command, and a write to a read-only register or a reserved offset is ignored (10_state R25 to R46). -/
def State.writeReg (s : State) (off : Nat) (v : Word) : State :=
  match off with
  | 0x008 => s.accept v
  | 0x010 => { s with imgW := v.extractLsb' 0 13 }
  | 0x014 => { s with imgH := v.extractLsb' 0 13 }
  | 0x018 => { s with strength := v.extractLsb' 0 16 }
  | 0x01C => { s with sqw := v.extractLsb' 0 8 }
  | 0x020 => { s with payloadLen := v.extractLsb' 0 13 }
  | 0x024 => { s with bitOffset := v.extractLsb' 0 3 }
  | 0x028 => { s with textLen := v.extractLsb' 0 10 }
  | 0x02C => { s with blkPos := { x0 := v.extractLsb' 0 13, y0 := v.extractLsb' 16 13 } }
  | 0x050 => { s with floor := highWord s.floor ++ v }
  | 0x054 => { s with floor := v ++ lowWord s.floor }
  | 0x058 => { s with doneIe := v.getLsbD 0 }
  | 0x05C => s.clearIrq v
  | _ => s

/-! ### The answer to an access -/

/-- The access is answered with a response and read data; the answer is counted (20_memory R60). -/
def State.answer (s : State) (resp : Resp) (data : Word) : State :=
  { s with reply := some { resp := resp, data := data }, draws := s.draws + 1 }

/-- The read data lanes that no rule gives in this access (log entry 9). -/
def State.openLanes (s : State) : Word := Config.openLanes s.draws

/-- The read data of a read of this size: the value read in the low lanes, `rest` in the others
(20_memory R63; log entry 9). -/
def Size.lanes (size : Size) (value rest : Word) : Word :=
  match size with
  | .byte => rest.extractLsb' 8 24 ++ value.extractLsb' 0 8
  | .half => rest.extractLsb' 16 16 ++ value.extractLsb' 0 16
  | .word => value

/-- The read data of a read of a mapped offset while idle: the register, or the addressed bytes in
little-endian order (20_memory R63). -/
def State.readData (s : State) (off : Nat) (size : Size) : Word :=
  if window off = some .registers then s.readReg off
  else size.lanes (BitVec.ofNat 32 (ofLittle (s.bytesAt off size.bytes))) s.openLanes

/-- A write to a mapped offset while idle; a write to the VOTE window is ignored (20_memory R63, R70). -/
def State.writeData (s : State) (off : Nat) (size : Size) (v : Word) : State :=
  match window off with
  | some .registers => s.writeReg off v
  | some .vote => s
  | _ => s.store off (toLittle size.bytes v.toNat)

/-- The commands that write PAYLOAD_LEN (10_state R32). -/
def writesPayloadLen : Instr → Bool
  | .ser => true
  | .vote _ _ _ => true
  | .decode => true
  | .nop => false
  | .fdct => false
  | .idct => false
  | .margin _ => false
  | .ldluma _ => false
  | .hype _ _ _ _ => false
  | .search => false
  | .embed => false
  | .deser => false

/-- The running command writes PAYLOAD_LEN. -/
def State.runningWritesLen (s : State) : Bool :=
  match decode s.cmd with
  | .ok i => writesPayloadLen i
  | .error _ => false

/-- The reserved offsets of the register page, which read 0 (10_state R45). -/
def reservedOffset (off : Nat) : Bool := decide (0x060 ≤ off) && decide (off < 0x1000)

/-- The offsets whose value a host read returns while busy: ID, VERSION, CMD, STATUS, the configuration
registers with FLOOR, IRQ_EN and IRQ_STAT (20_memory R76 (c); log entry 7); the reserved offsets, which are
stuck at 0 (10_state R45; 93_implementation_defined U8); PAYLOAD_LEN only if the running command does not
write it. -/
def State.steadyWhileBusy (s : State) (off : Nat) : Bool :=
  decide (off ∈ [0x000, 0x004, 0x008, 0x00C, 0x010, 0x014, 0x018, 0x01C, 0x024, 0x028, 0x02C,
    0x050, 0x054, 0x058, 0x05C]) || reservedOffset off ||
    (decide (off = 0x020) && !s.runningWritesLen)

/-- A refused read returns read data 0 (20_memory R68 to R70). A read while idle returns the data and
changes nothing (20_memory R71). A read while busy of a location that is not steady returns a free value,
drawn at the read (20_memory R76 (d); 93_implementation_defined U2; log entry 3). -/
def State.hostRead (s : State) (off : Nat) (size : Size) : State :=
  if accessRefused off size then s.answer .error 0#32
  else if s.status.busy && !s.steadyWhileBusy off then s.answer .okay (Config.busyRead s.draws)
  else s.answer .okay (s.readData off size)

/-- The two registers the host may write while busy (20_memory R76 (a)). -/
def irqRegister (off : Nat) : Bool := decide (off = 0x058) || decide (off = 0x05C)

/-- A refused write returns read data 0 (20_memory R68 to R70). A write while busy to any other address is
rejected: ERROR and STATUS.REJ, no other effect (20_memory R76 (b)). -/
def State.hostWrite (s : State) (off : Nat) (size : Size) (v : Word) : State :=
  if accessRefused off size then s.answer .error 0#32
  else if s.status.busy && !irqRegister off then s.reject.answer .error s.openLanes
  else (s.writeData off size v).answer .okay s.openLanes

/-- One host access (20_memory R60 to R76). -/
def State.hostAccess (s : State) : BusAccess → State
  | .read addr size => s.hostRead (busOffset addr) size
  | .write addr size v => s.hostWrite (busOffset addr) size v

/-! ### One step's turn -/

/-- The turn of a step for which the outside world brings nothing: the engine moves. -/
def Turn.quiet : Turn := { reset := false, access := none, engine := true }

/-- The turn of the next step. -/
def State.turn (s : State) : Turn := s.turns.headD Turn.quiet

/-- The state with the next turn taken off and no reply on the port. -/
def State.popTurn (s : State) : State := { s with turns := s.turns.tail, reply := none }

/-- The host's part of a step: its access, if there is one. -/
def State.hostPart (s : State) : State :=
  match s.turn.access with
  | none => s.popTurn
  | some a => s.popTurn.hostAccess a

/-- The engine takes a step of its command in this step: one is running as the step begins
(60_exceptions R205, R209). -/
def State.engineMoves (s : State) : Bool := s.status.busy && s.turn.engine

/-- The running command: the word latched in CMD, decoded (20_memory R81). -/
def State.fetch (s : State) : Except Reject Instr := decode s.cmd

/-- The state with the word `w` accepted and a quiet turn first, so that the next step runs it
(log entry 8). -/
def State.placeCommand (s : State) (w : Word) : State :=
  { s.accept w with turns := Turn.quiet :: s.turns }

end Sys2Proof.Machine
end

