-- ==== Sys2Proof/Machine/Payload.lean ====
section
/-! DEFINITION. The payload serializer and deserializer: SER, DESER (44_payload). -/

namespace Sys2Proof.Machine

/-- Byte `j` of the serialized text: BYTE(j), then ETX (44_payload R180). -/
def State.serByte (s : State) (j : Nat) : Byte :=
  if j < s.textLen.toNat then s.textByte j else 0x03#8

/-- Bit `i` of the serialized text, each byte most significant bit first (44_payload R180). -/
def State.serBit (s : State) (i : Nat) : Bool := (s.serByte (i / 8)).getLsbD (7 - i % 8)

/-- The number of bytes DESER packs (44_payload R181). -/
def State.deserCount (s : State) : Nat :=
  if s.bitOffset.toNat < s.payloadLen.toNat then (s.payloadLen.toNat - s.bitOffset.toNat) / 8 else 0

/-- Byte `j` that DESER packs (44_payload R181). -/
def State.deserByte (s : State) (j : Nat) : Byte :=
  packByte fun t => s.pbit (s.bitOffset.toNat + 8 * j + t)

/-- SER: text bytes and the ETX into the payload bits (44_payload R180). -/
def execSer (s : State) : Host.Outcome State Fault Refusal :=
  runChecked s [(decide (Config.maxText < s.textLen.toNat), .badParameter)]
    fun s => ((s.storePbits (8 * (s.textLen.toNat + 1)) s.serBit).setPayloadLen
      (8 * (s.textLen.toNat + 1))).succeed

/-- DESER: payload bits from the bit offset into bytes (44_payload R181). -/
def execDeser (s : State) : Host.Outcome State Fault Refusal :=
  runChecked s [(decide (Config.payloadCap < s.payloadLen.toNat), .badParameter)]
    fun s =>
      ((s.storeText ((List.range s.deserCount).map s.deserByte)).setByteCount s.deserCount).succeed

end Sys2Proof.Machine
end

