-- ==== Sys2Proof/Machine/Basis.lean ====
section
/-! DEFINITION. The basis ROM of the transform (40_transform R103). -/

namespace Sys2Proof.Machine

/-- The rows u = 0..3 of the basis ROM (40_transform R103). -/
def basisLow : List F64 :=
  [0x3FD6A09E667F3BCD#64, 0x3FD6A09E667F3BCD#64, 0x3FD6A09E667F3BCD#64, 0x3FD6A09E667F3BCD#64, 0x3FD6A09E667F3BCD#64, 0x3FD6A09E667F3BCD#64, 0x3FD6A09E667F3BCD#64, 0x3FD6A09E667F3BCD#64] ++
  [0x3FDF6297CFF75CB0#64, 0x3FDA9B66290EA1A3#64, 0x3FD1C73B39AE68C8#64, 0x3FB8F8B83C69A60B#64, 0xBFB8F8B83C69A60B#64, 0xBFD1C73B39AE68C8#64, 0xBFDA9B66290EA1A3#64, 0xBFDF6297CFF75CB0#64] ++
  [0x3FDD906BCF328D46#64, 0x3FC87DE2A6AEA963#64, 0xBFC87DE2A6AEA963#64, 0xBFDD906BCF328D46#64, 0xBFDD906BCF328D46#64, 0xBFC87DE2A6AEA963#64, 0x3FC87DE2A6AEA963#64, 0x3FDD906BCF328D46#64] ++
  [0x3FDA9B66290EA1A3#64, 0xBFB8F8B83C69A60B#64, 0xBFDF6297CFF75CB0#64, 0xBFD1C73B39AE68C8#64, 0x3FD1C73B39AE68C8#64, 0x3FDF6297CFF75CB0#64, 0x3FB8F8B83C69A60B#64, 0xBFDA9B66290EA1A3#64]

/-- The rows u = 4..7 of the basis ROM (40_transform R103). -/
def basisHigh : List F64 :=
  [0x3FD6A09E667F3BCD#64, 0xBFD6A09E667F3BCD#64, 0xBFD6A09E667F3BCD#64, 0x3FD6A09E667F3BCD#64, 0x3FD6A09E667F3BCD#64, 0xBFD6A09E667F3BCD#64, 0xBFD6A09E667F3BCD#64, 0x3FD6A09E667F3BCD#64] ++
  [0x3FD1C73B39AE68C8#64, 0xBFDF6297CFF75CB0#64, 0x3FB8F8B83C69A60B#64, 0x3FDA9B66290EA1A3#64, 0xBFDA9B66290EA1A3#64, 0xBFB8F8B83C69A60B#64, 0x3FDF6297CFF75CB0#64, 0xBFD1C73B39AE68C8#64] ++
  [0x3FC87DE2A6AEA963#64, 0xBFDD906BCF328D46#64, 0x3FDD906BCF328D46#64, 0xBFC87DE2A6AEA963#64, 0xBFC87DE2A6AEA963#64, 0x3FDD906BCF328D46#64, 0xBFDD906BCF328D46#64, 0x3FC87DE2A6AEA963#64] ++
  [0x3FB8F8B83C69A60B#64, 0xBFD1C73B39AE68C8#64, 0x3FDA9B66290EA1A3#64, 0xBFDF6297CFF75CB0#64, 0x3FDF6297CFF75CB0#64, 0xBFDA9B66290EA1A3#64, 0x3FD1C73B39AE68C8#64, 0xBFB8F8B83C69A60B#64]

/-- The basis ROM, row-major: entry `8 * u + x` is M[u][x] (40_transform R103). -/
def basisRom : List F64 := basisLow ++ basisHigh

/-- M[u][x]. -/
def basis (u x : Nat) : F64 := basisRom.getD (8 * u + x) 0#64

end Sys2Proof.Machine
end

