-- ==== Sys2Proof/Machine/Transform.lean ====
section
/-! DEFINITION. The Transform Core: NOP, FDCT, IDCT (40_transform). -/

namespace Sys2Proof.Machine

/-- `Dot8`: from +0.0, in ascending order, each product rounded and then each sum (40_transform R102). -/
def dot8 (a b : Nat → F64) : F64 :=
  (List.range 8).foldl (fun s k => fadd s (fmul (a k) (b k))) 0#64

/-- A 64-entry block from its entries, row-major (00_scope R12). -/
def block64 (f : Nat → F64) : List F64 := (List.range 64).map f

/-- Entry `k` of a block. -/
def entry (xs : List F64) (k : Nat) : F64 := xs.getD k 0#64

/-- The row pass of `Fdct` (40_transform R104): `T[8r+v]`. -/
def fdctRows (xs : List F64) : List F64 :=
  block64 fun i => dot8 (fun k => basis (i % 8) k) (fun k => entry xs (8 * (i / 8) + k))

/-- The column pass of `Fdct` (40_transform R104): `C[8u+v]`. -/
def fdctCols (ts : List F64) : List F64 :=
  block64 fun i => dot8 (fun k => basis (i / 8) k) (fun k => entry ts (8 * k + i % 8))

/-- `Fdct`, the row pass first (40_transform R104). -/
def fdct (xs : List F64) : List F64 := fdctCols (fdctRows xs)

/-- The column pass of `Idct` (40_transform R105): `T[8r+v]`. -/
def idctCols (cs : List F64) : List F64 :=
  block64 fun i => dot8 (fun k => basis k (i / 8)) (fun k => entry cs (8 * k + i % 8))

/-- The row pass of `Idct` (40_transform R105): `X[8r+c]`. -/
def idctRows (ts : List F64) : List F64 :=
  block64 fun i => dot8 (fun k => basis k (i % 8)) (fun k => entry ts (8 * (i / 8) + k))

/-- `Idct`, the column pass first (40_transform R105). -/
def idct (cs : List F64) : List F64 := idctRows (idctCols cs)

/-- NOP completes with no effect (40_transform R106). -/
def execNop (s : State) : Host.Outcome State Fault Refusal := .next s.succeed

/-- FDCT: BLK ← Fdct(BLK) (40_transform R107). -/
def execFdct (s : State) : Host.Outcome State Fault Refusal :=
  .next (s.storeBlk (fdct s.blk)).succeed

/-- IDCT: BLK ← Idct(BLK) (40_transform R108). -/
def execIdct (s : State) : Host.Outcome State Fault Refusal :=
  .next (s.storeBlk (idct s.blk)).succeed

end Sys2Proof.Machine
end

