-- ==== Sys2Proof/Machine/Embed.lean ====
section
/-! DEFINITION. The Embedding Encoder: MARGIN, EMBED (41_embed), with the centred luma. -/

namespace Sys2Proof.Machine

/-- K_R, the binary64 nearest to 0.299 (41_embed R120). -/
def lumaR : F64 := 0x3FD322D0E5604189#64

/-- K_G, the binary64 nearest to 0.587 (41_embed R120). -/
def lumaG : F64 := 0x3FE2C8B439581062#64

/-- K_B, the binary64 nearest to 0.114 (41_embed R120). -/
def lumaB : F64 := 0x3FBD2F1A9FBE76C9#64

/-- `Luma`: ((K_R·R + K_G·G) + K_B·B) − 128.0 (41_embed R120). -/
def luma (p : Rgb) : F64 :=
  fsub (fadd (fadd (fmul lumaR (fofNat p.r.toNat)) (fmul lumaG (fofNat p.g.toNat)))
    (fmul lumaB (fofNat p.b.toNat))) 0x4060000000000000#64

/-- `EncIndex`, the tiling function of the encoder, for a payload of `len` bits and square width `sqw`,
0 for flat (41_embed R121). -/
def encIndex (len sqw bx by' : Nat) : Nat :=
  if sqw = 0 then (by' % 64 * 64 + bx % 64) % len
  else by' % sqw * sqw + bx % sqw

/-- The difference d = C[35] − C[28] of a coefficient matrix (41_embed R122). -/
def pairDiff (c : List F64) : F64 := fsub (entry c 35) (entry c 28)

/-- `Margin`: the pair is moved symmetrically until its gap is `p` towards the bit; a pair that meets its
relation is left (41_embed R122). -/
def margin (c : List F64) (bit : Bool) (p : F64) : List F64 :=
  if bit then
    if flt (pairDiff c) p then
      let m := fdiv (fsub p (pairDiff c)) 0x4000000000000000#64
      (c.set 35 (fadd (entry c 35) m)).set 28 (fsub (entry c 28) m)
    else c
  else
    if flt (fneg p) (pairDiff c) then
      let m := fdiv (fadd p (pairDiff c)) 0x4000000000000000#64
      (c.set 35 (fsub (entry c 35) m)).set 28 (fadd (entry c 28) m)
    else c

/-- `clamp(n, 0, 255)` as a sample (00_scope R10). -/
def clampByte (n : Int) : Byte := BitVec.ofNat 8 (min (max n 0) 255).toNat

/-- `PixUpd` (41_embed R124). A remark of 43_vote R167 on strength 2 does not agree with this rule; the model
follows the rule (DEDUCED; log entry 14). -/
def pixUpd (v : Byte) (delta : F64) : Byte := clampByte (frne (fadd (fofNat v.toNat) delta))

/-- A pixel with the same delta added to R, G and B (41_embed R125). -/
def rgbUpd (p : Rgb) (delta : F64) : Rgb :=
  { r := pixUpd p.r delta, g := pixUpd p.g delta, b := pixUpd p.b delta }

/-- P, the strength as a binary64 number (10_state R30). -/
def State.strengthP (s : State) : F64 := fofNat s.strength.toNat

/-- The Luma Block of the 8×8 pixels from (x0, y0) on (41_embed R125). -/
def lumaBlock (px : Nat → Nat → Rgb) (x0 y0 : Nat) : List F64 :=
  block64 fun i => luma (px (x0 + i % 8) (y0 + i / 8))

/-- The luma deltas that carry the bit into a Luma Block: Idct(Margin(Fdct(Y))) − Y (41_embed R125). -/
def embedDeltas (ys : List F64) (bit : Bool) (p : F64) : List F64 :=
  let ys' := idct (margin (fdct ys) bit p)
  block64 fun i => fsub (entry ys' i) (entry ys i)

/-- The bit that the block (bx, by) carries: PBIT(EncIndex(bx, by)) (41_embed R125). -/
def State.blockBit (s : State) (bx by' : Nat) : Bool :=
  s.pbit (encIndex s.payloadLen.toNat s.sqw.toNat bx by')

/-- `EmbedBlock(bx, by)` (41_embed R125): the deltas are found first, then each pixel is written once. -/
def State.embedBlock (s : State) (bx by' : Nat) : State :=
  let ds := embedDeltas (lumaBlock s.rgbAt (8 * bx) (8 * by')) (s.blockBit bx by') s.strengthP
  (List.range 64).foldl
    (fun t i => t.storeRgb (8 * bx + i % 8) (8 * by' + i / 8)
      (rgbUpd (t.rgbAt (8 * bx + i % 8) (8 * by' + i / 8)) (entry ds i))) s

/-- The points of a grid `w` wide and `h` high in raster order: y outer, x inner. -/
def raster (w h : Nat) : List (Nat × Nat) :=
  (List.range h).flatMap fun y => (List.range w).map fun x => (x, y)

/-- Every block of the embedding grid in raster order (41_embed R126). -/
def State.embedImage (s : State) : State :=
  (raster (s.width / 8) (s.height / 8)).foldl (fun t b => t.embedBlock b.1 b.2) s

/-- The BadParameter condition of EMBED (41_embed R126, check 4). -/
def State.embedParamsBad (s : State) : Bool :=
  decide (Config.payloadCap < s.payloadLen.toNat) || decide (s.strength.toNat = 0)
    || decide (Config.maxSqw < s.sqw.toNat)
    || (decide (s.sqw.toNat ≠ 0) && decide (s.payloadLen.toNat ≠ s.sqw.toNat * s.sqw.toNat))

/-- MARGIN: the sign-margin rule on BLK; BadParameter if STRENGTH = 0 (41_embed R123). -/
def execMargin (bit : Bool) (s : State) : Host.Outcome State Fault Refusal :=
  runChecked s [(decide (s.strength.toNat = 0), .badParameter)]
    fun s => (s.storeBlk (margin s.blk bit s.strengthP)).succeed

/-- EMBED: the payload into the image (41_embed R126). -/
def execEmbed (s : State) : Host.Outcome State Fault Refusal :=
  runChecked s
    [(s.imageInvalid, .invalidImage), (decide (s.payloadLen.toNat = 0), .emptyPayload),
     (s.embedParamsBad, .badParameter)]
    fun s => (s.embedImage.setBlocks (s.width / 8 * (s.height / 8))).succeed

end Sys2Proof.Machine
end

