-- ==== Sys2Proof/Machine/Search.lean ====
section
/-! DEFINITION. The Geometric Search: LDLUMA, HYPE, SEARCH (42_search). The image is given to each
function as its size and its colour samples by column and row. -/

namespace Sys2Proof.Machine

/-- `SrcPos`, the local de-rotation (42_search R141). -/
def srcPos (rot : Rotation) (lx ly : Nat) : Nat × Nat :=
  match rot with
  | .deg0 => (lx, ly)
  | .deg90 => (7 - ly, lx)
  | .deg180 => (7 - lx, 7 - ly)
  | .deg270 => (ly, 7 - lx)

/-- `LoadBlock`, the de-rotated luma block of the region from (x0, y0) on (42_search R142). -/
def loadBlock (px : Nat → Nat → Rgb) (x0 y0 : Nat) (rot : Rotation) : List F64 :=
  block64 fun i =>
    luma (px (x0 + (srcPos rot (i % 8) (i / 8)).1) (y0 + (srcPos rot (i % 8) (i / 8)).2))

/-- `BlockDiff`, the signed coefficient difference of one sampled block (42_search R144). -/
def blockDiff (px : Nat → Nat → Rgb) (x0 y0 : Nat) (rot : Rotation) : F64 :=
  pairDiff (fdct (loadBlock px x0 y0 rot))

/-- A hypothesis: a rotation and an offset (42_search R140). -/
structure Hyp where
  rot : Rotation
  ox  : Nat
  oy  : Nat
deriving DecidableEq, Repr

/-- A hypothesis with its energy. -/
structure Scored where
  hyp    : Hyp
  energy : F64
deriving DecidableEq, Repr

/-- How many samples of 8 pixels fit along `size` pixels from the offset `o` on, `stride` apart
(42_search R145, the loop conditions). -/
def samples (size o stride : Nat) : Nat :=
  if o + 8 ≤ size then (size - o - 8) / stride + 1 else 0

/-- The sum of |BlockDiff| over the sampled blocks in raster order (42_search R145). -/
def hypSum (px : Nat → Nat → Rgb) (w h : Nat) (hyp : Hyp) (stride : Nat) : F64 :=
  (raster (samples w hyp.ox stride) (samples h hyp.oy stride)).foldl
    (fun sum ij =>
      fadd sum (fabs (blockDiff px (hyp.ox + stride * ij.1) (hyp.oy + stride * ij.2) hyp.rot))) 0#64

/-- The number of sampled blocks (42_search R145). -/
def hypCount (w h : Nat) (hyp : Hyp) (stride : Nat) : Nat :=
  samples w hyp.ox stride * samples h hyp.oy stride

/-- `Energy`, the mean |BlockDiff| of a hypothesis; +0.0 over no block (42_search R145). -/
def hypEnergy (px : Nat → Nat → Rgb) (w h : Nat) (hyp : Hyp) (stride : Nat) : F64 :=
  if hypCount w h hyp stride = 0 then 0#64
  else fdiv (hypSum px w h hyp stride) (fofNat (hypCount w h hyp stride))

/-- A hypothesis scored at the search stride of 16 pixels. -/
def score (px : Nat → Nat → Rgb) (w h : Nat) (hyp : Hyp) : Scored :=
  { hyp := hyp, energy := hypEnergy px w h hyp 16 }

/-- The better of the best so far and a candidate: replaced on a strict improvement only
(42_search R147, R148). -/
def keepBetter (best cand : Scored) : Scored :=
  if flt best.energy cand.energy then cand else best

/-- The 64 coarse hypotheses in the order of evaluation (42_search R147). -/
def coarseHyps : List Hyp :=
  [Rotation.deg0, .deg90, .deg180, .deg270].flatMap fun rot =>
    [0, 2, 4, 6].flatMap fun oy => [0, 2, 4, 6].map fun ox => { rot := rot, ox := ox, oy := oy }

/-- `CoarseStage` (42_search R147): the first hypothesis of maximum energy. -/
def coarseStage (px : Nat → Nat → Rgb) (w h : Nat) : Scored :=
  coarseHyps.tail.foldl (fun best hyp => keepBetter best (score px w h hyp))
    (score px w h { rot := .deg0, ox := 0, oy := 0 })

/-- The 8 neighbours of a hypothesis at Chebyshev distance 1, offsets modulo 8, in the order of
evaluation: dy outer, dx inner (42_search R148). The pairs are (dx + 8, dy + 8). -/
def neighbours (c : Hyp) : List Hyp :=
  [(7, 7), (8, 7), (9, 7), (7, 8), (9, 8), (7, 9), (8, 9), (9, 9)].map fun d =>
    { rot := c.rot, ox := (c.ox + d.1) % 8, oy := (c.oy + d.2) % 8 }

/-- `RefineStage` (42_search R148): one pass around the coarse winner. -/
def refineStage (px : Nat → Nat → Rgb) (w h : Nat) (best : Scored) : Scored :=
  (neighbours best.hyp).foldl (fun b hyp => keepBetter b (score px w h hyp)) best

/-- The winner of the search: `RefineStage(CoarseStage())` (42_search R149). -/
def searchWinner (px : Nat → Nat → Rgb) (w h : Nat) : Scored :=
  refineStage px w h (coarseStage px w h)

/-- ENERGY and ECOUNT written for a hypothesis on the image in PIX (42_search R146). -/
def State.measure (s : State) (hyp : Hyp) (stride : Nat) : State :=
  s.setEnergy (hypEnergy s.rgbAt s.width s.height hyp stride)
    (hypCount s.width s.height hyp stride)

/-- The winner for the image in PIX. -/
def State.winner (s : State) : Scored := searchWinner s.rgbAt s.width s.height

/-- RESULT and CONF written from the winner (42_search R149). -/
def State.recordWinner (s : State) (b : Scored) : State :=
  s.setWinner b.hyp.rot b.hyp.ox b.hyp.oy b.energy

/-- The block at BLKPOS is not fully inside the image (10_state R35). -/
def State.blkPosBad (s : State) : Bool :=
  decide (s.width < s.blkPos.x0.toNat + 8) || decide (s.height < s.blkPos.y0.toNat + 8)

/-- LDLUMA: BLK ← the de-rotated luma block at BLKPOS (42_search R143). -/
def execLdluma (rot : Rotation) (s : State) : Host.Outcome State Fault Refusal :=
  runChecked s [(s.imageInvalid, .invalidImage), (s.blkPosBad, .badParameter)]
    fun s => (s.storeBlk (loadBlock s.rgbAt s.blkPos.x0.toNat s.blkPos.y0.toNat rot)).succeed

/-- HYPE: the energy of one hypothesis (42_search R146). -/
def execHype (rot : Rotation) (ox oy : Nat) (stride : Stride) (s : State) :
    Host.Outcome State Fault Refusal :=
  runChecked s [(s.imageInvalid, .invalidImage)]
    fun s => (s.measure { rot := rot, ox := ox, oy := oy } stride.pixels).succeed

/-- SEARCH: the coarse and refinement stages (42_search R149). -/
def execSearch (s : State) : Host.Outcome State Fault Refusal :=
  runChecked s [(s.imageInvalid, .invalidImage)] fun s =>
    let best := s.winner
    (s.recordWinner best).finishSearch best.energy

end Sys2Proof.Machine
end

