-- ==== Sys2Proof/Machine/Vote.lean ====
section
/-! DEFINITION. The Vote Aggregator: VOTE, DECODE (43_vote). -/

namespace Sys2Proof.Machine

/-- `DecIndex`, the tiling function of the decoder (43_vote R160). -/
def decIndex (sqw x y : Nat) : Nat :=
  if sqw = 0 then y % 64 * 64 + x % 64 else y % sqw * sqw + x % sqw

/-- `Remap`, the rotation of block-grid coordinates in a received grid of bw × bh blocks
(43_vote R161). -/
def remap (bw bh : Nat) (rot : Rotation) (x y : Nat) : Nat × Nat :=
  match rot with
  | .deg0 => (x, y)
  | .deg90 => (y, bw - 1 - x)
  | .deg180 => (bw - 1 - x, bh - 1 - y)
  | .deg270 => (bh - 1 - y, x)

/-- bw or bh: the blocks of the full-decode scan along `size` pixels from the offset `o` on
(43_vote R162). -/
def gridBlocks (size o : Nat) : Nat := if o + 8 ≤ size then (size - o) / 8 else 0

/-- The vote index of the block (x, y) of the scan (43_vote R163). -/
def voteIndex (w h sqw : Nat) (hyp : Hyp) (x y : Nat) : Nat :=
  let p := remap (gridBlocks w hyp.ox) (gridBlocks h hyp.oy) hyp.rot x y
  decIndex sqw p.1 p.2

/-- One block's difference added to its vote entry (43_vote R163). -/
def castVote (px : Nat → Nat → Rgb) (w h sqw : Nat) (hyp : Hyp) (vs : List F64) (b : Nat × Nat) :
    List F64 :=
  vs.modify (voteIndex w h sqw hyp b.1 b.2)
    (fun v => fadd v (blockDiff px (hyp.ox + 8 * b.1) (hyp.oy + 8 * b.2) hyp.rot))

/-- `VoteAccumulate` (43_vote R163): all 4096 entries cleared, then the scan in raster order. -/
def voteSums (px : Nat → Nat → Rgb) (w h sqw : Nat) (hyp : Hyp) : List F64 :=
  (raster (gridBlocks w hyp.ox) (gridBlocks h hyp.oy)).foldl (castVote px w h sqw hyp)
    (List.replicate Config.voteCap 0#64)

/-- N, the number of decoded bits (43_vote R164). -/
def decodedBits (sqw : Nat) : Nat := if sqw = 0 then Config.payloadCap else sqw * sqw

/-- `Threshold`: PBIT(k) ← V[k] > +0.0 for k < N (43_vote R164). -/
def State.threshold (s : State) (vs : List F64) : State :=
  s.storePbits (decodedBits s.sqw.toNat) (fun k => flt 0#64 (entry vs k))

/-- The full decode stage at a hypothesis: V, PBIT(0..N−1), PAYLOAD_LEN and BLOCKS
(43_vote R165, R166). -/
def State.fullDecode (s : State) (hyp : Hyp) : State :=
  let vs := voteSums s.rgbAt s.width s.height s.sqw.toNat hyp
  (((s.storeVotes vs).threshold vs).setPayloadLen (decodedBits s.sqw.toNat)).setBlocks
    (gridBlocks s.width hyp.ox * gridBlocks s.height hyp.oy)

/-- SQW > 64 (10_state R31). -/
def State.sqwBad (s : State) : Bool := decide (Config.maxSqw < s.sqw.toNat)

/-- VOTE: the full decode stage at the hypothesis the host gives (43_vote R165). -/
def execVote (rot : Rotation) (ox oy : Nat) (s : State) : Host.Outcome State Fault Refusal :=
  runChecked s [(s.imageInvalid, .invalidImage), (s.sqwBad, .badParameter)]
    fun s => (s.fullDecode { rot := rot, ox := ox, oy := oy }).succeed

/-- DECODE: the search, then the full decode at the winner (43_vote R166). -/
def execDecode (s : State) : Host.Outcome State Fault Refusal :=
  runChecked s [(s.imageInvalid, .invalidImage), (s.sqwBad, .badParameter)]
    fun s =>
      let best := s.winner
      ((s.recordWinner best).fullDecode best.hyp).finishSearch best.energy

end Sys2Proof.Machine
end

