-- ==== Sys2Proof/Machine/Dispatch.lean ====
section
/-! DEFINITION. The meaning of each command: one arm per constructor. -/

namespace Sys2Proof.Machine

def exec (i : Instr) (s : State) : Host.Outcome State Fault Refusal :=
  match i with
  | .nop => Sys2Proof.Machine.execNop s
  | .fdct => Sys2Proof.Machine.execFdct s
  | .idct => Sys2Proof.Machine.execIdct s
  | .margin bit => Sys2Proof.Machine.execMargin bit s
  | .ldluma rot => Sys2Proof.Machine.execLdluma rot s
  | .hype rot ox oy stride => Sys2Proof.Machine.execHype rot ox oy stride s
  | .search => Sys2Proof.Machine.execSearch s
  | .vote rot ox oy => Sys2Proof.Machine.execVote rot ox oy s
  | .decode => Sys2Proof.Machine.execDecode s
  | .embed => Sys2Proof.Machine.execEmbed s
  | .ser => Sys2Proof.Machine.execSer s
  | .deser => Sys2Proof.Machine.execDeser s

end Sys2Proof.Machine
end

