-- ==== Sys2Proof/Machine/Run.lean ====
section
/-! DEFINITION. How one step goes: reset before everything else, then the host's access, then the running
command (60_exceptions R202, R205, R209; 70_reset R233, R239). -/

namespace Sys2Proof.Machine

/-- The running command is run to its completion (60_exceptions R202); a word that names no command
completes with IllegalCommand (30_encoding R88, R89). -/
def State.runCommand (s : State) : Host.Outcome State Fault Refusal :=
  match s.fetch with
  | .ok i => exec i s
  | .error _ => .next s.illegalCommand

/-- One step (60_exceptions R209): a reset is taken over everything else; a command's completion is
ordered after a host access of the same step. -/
def State.advance (s : State) : Host.Outcome State Fault Refusal :=
  if s.turn.reset then .next s.popTurn.applyReset
  else if s.engineMoves then s.hostPart.runCommand
  else .next s.hostPart

end Sys2Proof.Machine
end

