-- ==== Sys2Proof/Safety.lean ====
section
/-! DEFINITION. What holds of every state the machine can reach: the terms in which the invariants and the
frames of the commands are stated. -/

namespace Sys2Proof.Machine

/-- The offsets that hold storage: the memory windows of the address map (20_memory R62). -/
def storageOffset (off : Nat) : Prop :=
  0x1000 ≤ off ∧ off < 0x1200 ∨ 0x2000 ≤ off ∧ off < 0x2200 ∨ 0x2400 ≤ off ∧ off < 0x2600 ∨
    0x4000 ≤ off ∧ off < 0xC000 ∨ 0x01000000 ≤ off ∧ off < 0x05000000

/-- What STATUS can hold (10_state R26; 60_exceptions R200, R205, R206). While BUSY no outcome shows.
While idle ERR says that CODE is a fatal error, WARN says that it is NoSignalDetected, and before any
completion, as after reset, nothing is set. -/
structure Status.Consistent (t : Status) : Prop where
  busyShowsNothing : t.busy = true → t.done = false ∧ t.err = false ∧ t.warn = false ∧ t.code = .none
  errIsFatal : t.busy = false → t.err = t.code.fatal
  warnIsNoSignal : t.busy = false → t.warn = decide (t.code = .noSignalDetected)
  restingShowsNothing : t.busy = false → t.done = false → t.code = .none ∧ t.rej = false

/-- The invariant of the machine: memory keeps its canonical form and lists only offsets that exist
(20_memory R62), STATUS is consistent, and the counts are in their ranges (10_state R40 to R42). -/
structure State.Inv (s : State) : Prop where
  memWf : s.mem.wf
  memMapped : ∀ c ∈ s.mem, storageOffset c.1
  status : s.status.Consistent
  blocks : s.blocks.toNat ≤ 262144
  ecount : s.ecount.toNat ≤ 262144
  byteCount : s.byteCount.toNat ≤ 512

/-- A pattern from +0.0 up to +infinity: neither negative, nor −0.0, nor a NaN. -/
def notNegative (x : F64) : Prop := x.toNat ≤ 0x7FF0000000000000

/-- CONF and ENERGY are never negative and never a NaN (10_state R38; 42_search R145). -/
structure State.EnergyInv (s : State) : Prop where
  conf : notNegative s.conf
  energy : notNegative s.energy

/-- Reading any byte gives the same in both states, but for the `n` bytes from `off` on. -/
def sameBytesOutside (s t : State) (off n : Nat) : Prop :=
  ∀ a, a < off ∨ off + n ≤ a → t.byteAt a = s.byteAt a

/-- Reading any byte gives the same in both states. -/
def sameBytes (s t : State) : Prop := ∀ a, t.byteAt a = s.byteAt a

end Sys2Proof.Machine
end

