-- ==== Sys2Proof/Certificates/Slice0/Obligations.lean ====
section
/-! DEFINITION. The statements for the provers. The names under `Sys2Proof.Spec` restate the pseudocode and
the tables of the spec in their own terms, so that a statement says the rule beside the model's definition;
they use the model for the binary64 operations, the basis ROM and the reading of one byte only. -/

namespace Sys2Proof.Spec

open Sys2Proof.Machine

/-! ### Encoding -/

/-- The mnemonic of a command (30_encoding R87). -/
def mnemonic : Instr → String
  | .nop => "NOP"
  | .fdct => "FDCT"
  | .idct => "IDCT"
  | .margin _ => "MARGIN"
  | .ldluma _ => "LDLUMA"
  | .hype _ _ _ _ => "HYPE"
  | .search => "SEARCH"
  | .vote _ _ _ => "VOTE"
  | .decode => "DECODE"
  | .embed => "EMBED"
  | .ser => "SER"
  | .deser => "DESER"

/-- The reserved bits of a command word (30_encoding R85). -/
def reservedBits : List Nat := [10, 11, 13, 14, 15, 19, 23, 25, 26, 27, 28, 29, 30, 31]

/-- The bits of the fields that the command with this opcode does not use (30_encoding R85, R87). -/
def unusedFieldBits (opc : Nat) : List Nat :=
  (if opc = 4 ∨ opc = 5 ∨ opc = 7 then [] else [8, 9]) ++ (if opc = 3 then [] else [12]) ++
    (if opc = 5 ∨ opc = 7 then [] else [16, 17, 18, 20, 21, 22]) ++ (if opc = 5 then [] else [24])

/-- A word with a reserved opcode, or with a 1 in a reserved bit or in a field its command does not use
(30_encoding R88, R89). -/
def illegalWord (w : Word) : Prop :=
  0x0C ≤ w.toNat % 256 ∨ ∃ b ∈ reservedBits ++ unusedFieldBits (w.toNat % 256), w.getLsbD b = true

/-! ### Completion -/

/-- The state after `Complete(code, err, warn)` and nothing else (60_exceptions R206). -/
def completed (s : State) (code : Code) (err warn : Bool) : State :=
  { s with
    status :=
      { busy := false, done := true, err := err, warn := warn, rej := s.status.rej, code := code }
    doneIp := true }

/-- IMG_W and IMG_H are both in 1..4096 (10_state R28, R29). -/
def imageOk (s : State) : Prop :=
  (1 ≤ s.imgW.toNat ∧ s.imgW.toNat ≤ 4096) ∧ (1 ≤ s.imgH.toNat ∧ s.imgH.toNat ≤ 4096)

/-- The fatal error that a command's row of the table of 60_exceptions R201 gives first, in the order of
R203. -/
def FirstError (i : Instr) (s : State) (e : Code) : Prop :=
  let noImage := ¬ imageOk s ∧ e = .invalidImage
  match i with
  | .nop => False
  | .fdct => False
  | .idct => False
  | .margin _ => s.strength.toNat = 0 ∧ e = .badParameter
  | .ldluma _ => noImage ∨ imageOk s ∧ e = .badParameter ∧
      (s.imgW.toNat < s.blkPos.x0.toNat + 8 ∨ s.imgH.toNat < s.blkPos.y0.toNat + 8)
  | .hype _ _ _ _ => noImage
  | .search => noImage
  | .vote _ _ _ => noImage ∨ imageOk s ∧ e = .badParameter ∧ 64 < s.sqw.toNat
  | .decode => noImage ∨ imageOk s ∧ e = .badParameter ∧ 64 < s.sqw.toNat
  | .embed => noImage ∨ imageOk s ∧ s.payloadLen.toNat = 0 ∧ e = .emptyPayload ∨
      imageOk s ∧ s.payloadLen.toNat ≠ 0 ∧ e = .badParameter ∧
        (4096 < s.payloadLen.toNat ∨ s.strength.toNat = 0 ∨ 64 < s.sqw.toNat ∨
          s.sqw.toNat ≠ 0 ∧ s.payloadLen.toNat ≠ s.sqw.toNat ^ 2)
  | .ser => 511 < s.textLen.toNat ∧ e = .badParameter
  | .deser => 4096 < s.payloadLen.toNat ∧ e = .badParameter

/-! ### Binary64 numbers -/

/-- The exponent field of a pattern (40_transform R100: IEEE 754 binary64). -/
def exponent (x : F64) : Nat := x.toNat / 2 ^ 52 % 2 ^ 11

/-- The fraction field of a pattern. -/
def fraction (x : F64) : Nat := x.toNat % 2 ^ 52

/-- A pattern of a NaN. -/
def isNaN (x : F64) : Prop := exponent x = 2047 ∧ fraction x ≠ 0

/-- A pattern of an infinity. -/
def isInf (x : F64) : Prop := exponent x = 2047 ∧ fraction x = 0

/-- A pattern of a finite number. -/
def isFinite (x : F64) : Prop := exponent x ≠ 2047

/-- A pattern of +0.0 or −0.0. -/
def isZero (x : F64) : Prop := exponent x = 0 ∧ fraction x = 0

/-- A finite number in units of 2^-1074, the smallest positive binary64 number. -/
def units (x : F64) : Int :=
  (if x.msb then -1 else 1) *
    (if exponent x = 0 then (fraction x : Int)
      else (2 ^ 52 + fraction x : Int) * 2 ^ (exponent x - 1))

/-- The pattern `z` is the exact value of `r` units, correctly rounded to nearest with ties to even: no
finite number is nearer, and of two equally near ones it is the one with an even significand. From halfway
between the largest finite number and 2^1024 on it is the infinity. A nonzero value keeps its sign
(40_transform R100). -/
def Rounded (r : Rat) (z : F64) : Prop :=
  (|r| < 2 ^ 2098 - 2 ^ 2044 → isFinite z ∧ ∀ w, isFinite w →
    |(units z : Rat) - r| ≤ |(units w : Rat) - r| ∧
      (units w ≠ units z → |(units w : Rat) - r| = |(units z : Rat) - r| → z.toNat % 2 = 0)) ∧
  (2 ^ 2098 - 2 ^ 2044 ≤ |r| → isInf z) ∧
  (0 < r → z.msb = false) ∧ (r < 0 → z.msb = true)

/-! ### The transform -/

/-- `Dot8`, written out (40_transform R102). -/
def dot8 (a b : Nat → F64) : F64 :=
  fadd (fadd (fadd (fadd (fadd (fadd (fadd (fadd 0#64 (fmul (a 0) (b 0))) (fmul (a 1) (b 1)))
    (fmul (a 2) (b 2))) (fmul (a 3) (b 3))) (fmul (a 4) (b 4))) (fmul (a 5) (b 5)))
    (fmul (a 6) (b 6))) (fmul (a 7) (b 7))

/-- cos(mπ/16)/2 for m in 1..7, the seven magnitudes of the basis ROM (40_transform R103). -/
def cosine (m : Nat) : F64 :=
  [0#64, 0x3FDF6297CFF75CB0#64, 0x3FDD906BCF328D46#64, 0x3FDA9B66290EA1A3#64, 0x3FD6A09E667F3BCD#64,
    0x3FD1C73B39AE68C8#64, 0x3FC87DE2A6AEA963#64, 0x3FB8F8B83C69A60B#64].getD m 0#64

/-- a(u)·cos(nπ/16) for n = (2x+1)u, as 40_transform R103 places it: 1/√8 = cos(4π/16)/2 in the row u = 0;
below it the angle is turned back into 0..π, and beyond π/2 the cosine is negative. -/
def basisEntry (u x : Nat) : F64 :=
  let n := (2 * x + 1) * u % 32
  let m := min n (32 - n)
  if u = 0 then cosine 4 else if m ≤ 8 then cosine m else cosine (16 - m) ||| 0x8000000000000000#64

/-- `T[8r+v]` of `Fdct` (40_transform R104). -/
def fdctRow (x : Nat → F64) (r v : Nat) : F64 := dot8 (fun k => basis v k) (fun k => x (8 * r + k))

/-- `C[8u+v]` of `Fdct` (40_transform R104). -/
def fdctCoeff (x : Nat → F64) (u v : Nat) : F64 :=
  dot8 (fun k => basis u k) (fun k => fdctRow x k v)

/-- `T[8r+v]` of `Idct` (40_transform R105). -/
def idctCol (c : Nat → F64) (r v : Nat) : F64 := dot8 (fun k => basis k r) (fun k => c (8 * k + v))

/-- `X[8r+c]` of `Idct` (40_transform R105). -/
def idctSample (c : Nat → F64) (r col : Nat) : F64 :=
  dot8 (fun k => basis k col) (fun k => idctCol c r k)

/-- BLK[k] (20_memory R64). -/
def blkEntry (s : State) (k : Nat) : F64 := s.f64At (0x1000 + 8 * k)

/-- V[k] (20_memory R64). -/
def voteEntry (s : State) (k : Nat) : F64 := s.f64At (0x4000 + 8 * k)

/-! ### Pixels and luma -/

/-- The offset of channel `c` (R = 0, G = 1, B = 2, A = 3) of PIX(x, y) (20_memory R65). -/
def channelOffset (s : State) (c x y : Nat) : Nat := 0x01000000 + 4 * (y * s.imgW.toNat + x) + c

/-- Channel `c` of PIX(x, y). -/
def channel (s : State) (c x y : Nat) : Byte := s.byteAt (channelOffset s c x y)

/-- `Luma` of three samples (41_embed R120). -/
def lumaOf (r g b : Nat) : F64 :=
  fsub (fadd (fadd (fmul 0x3FD322D0E5604189#64 (fofNat r)) (fmul 0x3FE2C8B439581062#64 (fofNat g)))
    (fmul 0x3FBD2F1A9FBE76C9#64 (fofNat b))) 0x4060000000000000#64

/-- `Luma(PIX(x, y))`. -/
def lumaAt (s : State) (x y : Nat) : F64 :=
  lumaOf (channel s 0 x y).toNat (channel s 1 x y).toNat (channel s 2 x y).toNat

/-- The column of `SrcPos(rot, lx, ly)` (42_search R141). -/
def srcX (rot : Rotation) (lx ly : Nat) : Nat :=
  match rot with
  | .deg0 => lx
  | .deg90 => 7 - ly
  | .deg180 => 7 - lx
  | .deg270 => ly

/-- The row of `SrcPos(rot, lx, ly)` (42_search R141). -/
def srcY (rot : Rotation) (lx ly : Nat) : Nat :=
  match rot with
  | .deg0 => ly
  | .deg90 => lx
  | .deg180 => 7 - ly
  | .deg270 => 7 - lx

/-- Entry `k` of `LoadBlock(x0, y0, rot)` (42_search R142). -/
def loaded (s : State) (rot : Rotation) (x0 y0 k : Nat) : F64 :=
  lumaAt s (x0 + srcX rot (k % 8) (k / 8)) (y0 + srcY rot (k % 8) (k / 8))

/-- `BlockDiff(x0, y0, rot)` (42_search R144). -/
def diffAt (s : State) (rot : Rotation) (x0 y0 : Nat) : F64 :=
  fsub (fdctCoeff (loaded s rot x0 y0) 4 3) (fdctCoeff (loaded s rot x0 y0) 3 4)

/-! ### The search -/

/-- The inner loop of `Energy` (42_search R145) from the column number `i` on, over sum and count. The
first argument bounds the number of turns. -/
def energyRow (s : State) (rot : Rotation) (ox y stride : Nat) : Nat → Nat → F64 × Nat → F64 × Nat
  | 0, _, acc => acc
  | turns + 1, i, (sum, n) =>
    if ox + stride * i + 8 ≤ s.imgW.toNat then
      energyRow s rot ox y stride turns (i + 1)
        (fadd sum (fabs (diffAt s rot (ox + stride * i) y)), n + 1)
    else (sum, n)

/-- The outer loop of `Energy` from the row number `j` on. -/
def energyRows (s : State) (rot : Rotation) (ox oy stride : Nat) : Nat → Nat → F64 × Nat → F64 × Nat
  | 0, _, acc => acc
  | turns + 1, j, acc =>
    if oy + stride * j + 8 ≤ s.imgH.toNat then
      energyRows s rot ox oy stride turns (j + 1)
        (energyRow s rot ox (oy + stride * j) stride 8192 0 acc)
    else acc

/-- `Energy(rot, ox, oy, stride)` (42_search R145). An image side is below 8192, so no loop meets its
bound. -/
def energyLoop (s : State) (rot : Rotation) (ox oy stride : Nat) : F64 × Nat :=
  let total := energyRows s rot ox oy stride 8192 0 (0#64, 0)
  if total.2 = 0 then (0#64, 0) else (fdiv total.1 (fofNat total.2), total.2)

/-- `stride` of HYPE in pixels: 8 if S8 = 1, else 16 (42_search R146; 30_encoding R86). -/
def strideOf : Stride → Nat
  | .every8 => 8
  | .every16 => 16

/-- A hypothesis with its energy at stride 16. -/
def scored (s : State) (hyp : Hyp) : Hyp × F64 := (hyp, (energyLoop s hyp.rot hyp.ox hyp.oy 16).1)

/-- `if best = none or e > best.e: best = (rot, ox, oy, e)` (42_search R147). -/
def takeBetter (best : Option (Hyp × F64)) (c : Hyp × F64) : Option (Hyp × F64) :=
  match best with
  | none => some c
  | some b => if flt b.2 c.2 then some c else some b

/-- `CoarseStage` (42_search R147). -/
def coarseLoop (s : State) : Option (Hyp × F64) :=
  [Rotation.deg0, .deg90, .deg180, .deg270].foldl (fun best rot =>
    [0, 2, 4, 6].foldl (fun best oy =>
      [0, 2, 4, 6].foldl (fun best ox => takeBetter best (scored s ⟨rot, ox, oy⟩)) best) best) none

/-- The neighbour of `c` at (dx, dy), offsets modulo 8 (42_search R148). -/
def neighbour (c : Hyp) (dx dy : Int) : Hyp :=
  ⟨c.rot, ((c.ox + dx + 8) % 8).toNat, ((c.oy + dy + 8) % 8).toNat⟩

/-- `RefineStage` (42_search R148). -/
def refineLoop (s : State) (best : Hyp × F64) : Hyp × F64 :=
  [-1, 0, 1].foldl (fun b dy =>
    [-1, 0, 1].foldl (fun b dx =>
      if dx = 0 ∧ dy = 0 then b
      else if flt b.2 (scored s (neighbour best.1 dx dy)).2 then scored s (neighbour best.1 dx dy)
      else b) b) best

/-- `NoSignalCheck(e)` and the completion it decides (42_search R150). -/
def checkedSignal (s : State) (e : F64) : State :=
  if flt s.floor e then completed s .none false false else completed s .noSignalDetected false true

/-! ### The vote -/

/-- bw or bh of the full-decode scan (43_vote R162). -/
def gridSize (size o : Nat) : Nat := if o + 8 ≤ size then (size - o) / 8 else 0

/-- X of `Remap(rot, x, y)` in a grid of bw × bh blocks (43_vote R161). -/
def remapX (rot : Rotation) (bw bh x y : Nat) : Nat :=
  match rot with
  | .deg0 => x
  | .deg90 => y
  | .deg180 => bw - 1 - x
  | .deg270 => bh - 1 - y

/-- Y of `Remap(rot, x, y)` in a grid of bw × bh blocks (43_vote R161). -/
def remapY (rot : Rotation) (bw bh x y : Nat) : Nat :=
  match rot with
  | .deg0 => y
  | .deg90 => bw - 1 - x
  | .deg180 => bh - 1 - y
  | .deg270 => x

/-- `DecIndex(X, Y)` (43_vote R160). -/
def decoderIndex (sqw x y : Nat) : Nat :=
  if sqw = 0 then y % 64 * 64 + x % 64 else y % sqw * sqw + x % sqw

/-- N (43_vote R164). -/
def bitCount (s : State) : Nat := if s.sqw.toNat = 0 then 4096 else s.sqw.toNat * s.sqw.toNat

/-- What `VoteAccumulate(rot, ox, oy)` leaves in V[k]: from +0.0, the differences of the blocks of index
`k` in scan order (43_vote R163). -/
def votedSum (s : State) (rot : Rotation) (ox oy k : Nat) : F64 :=
  let bw := gridSize s.imgW.toNat ox
  let bh := gridSize s.imgH.toNat oy
  (List.range bh).foldl (fun sum y =>
    (List.range bw).foldl (fun sum x =>
      if decoderIndex s.sqw.toNat (remapX rot bw bh x y) (remapY rot bw bh x y) = k
      then fadd sum (diffAt s rot (ox + 8 * x) (oy + 8 * y)) else sum) sum) 0#64

/-- Two states differ at most in V and in the payload bits 0..n−1: every other byte and every other
payload bit reads the same (43_vote R165). -/
def sameButVotes (s t : State) (n : Nat) : Prop :=
  (∀ i, n ≤ i → i < 4096 → t.pbit i = s.pbit i) ∧
  ∀ a, ¬ (0x4000 ≤ a ∧ a < 0xC000) → ¬ (0x2000 ≤ a ∧ a < 0x2000 + (n + 7) / 8) →
    t.byteAt a = s.byteAt a

/-- What the full-decode stage leaves in V and in the payload bits (43_vote R163, R164). -/
def decodedAt (s t : State) (rot : Rotation) (ox oy : Nat) : Prop :=
  (∀ k, k < 4096 → voteEntry t k = votedSum s rot ox oy k) ∧
  (∀ k, k < bitCount s → t.pbit k = flt 0#64 (votedSum s rot ox oy k)) ∧
  sameButVotes s t (bitCount s)

/-! ### The embedding -/

/-- `EncIndex(bx, by)` (41_embed R121). -/
def encoderIndex (len sqw bx by' : Nat) : Nat :=
  if sqw = 0 then (by' % 64 * 64 + bx % 64) % len else by' % sqw * sqw + bx % sqw

/-- `s` of `Margin` for the difference d: (P − d) / 2.0 towards 1, (P + d) / 2.0 towards 0
(41_embed R122). -/
def shift (bit : Bool) (d p : F64) : F64 :=
  if bit then fdiv (fsub p d) 0x4000000000000000#64 else fdiv (fadd p d) 0x4000000000000000#64

/-- The pair does not meet its relation yet: d < P for 1, d > −P for 0 (41_embed R122). -/
def shortOfMargin (bit : Bool) (d p : F64) : Bool :=
  if bit then flt d p else flt (fneg p) d

/-- `C'[35]` of `Margin(C, bit, P)` (41_embed R122). -/
def marginHigh (c35 c28 : F64) (bit : Bool) (p : F64) : F64 :=
  if shortOfMargin bit (fsub c35 c28) p then
    if bit then fadd c35 (shift bit (fsub c35 c28) p) else fsub c35 (shift bit (fsub c35 c28) p)
  else c35

/-- `C'[28]` of `Margin(C, bit, P)` (41_embed R122). -/
def marginLow (c35 c28 : F64) (bit : Bool) (p : F64) : F64 :=
  if shortOfMargin bit (fsub c35 c28) p then
    if bit then fsub c28 (shift bit (fsub c35 c28) p) else fadd c28 (shift bit (fsub c35 c28) p)
  else c28

/-- The luma block of the block (bx, by) of the embedding grid (41_embed R125). -/
def gridLuma (s : State) (bx by' k : Nat) : F64 := lumaAt s (8 * bx + k % 8) (8 * by' + k / 8)

/-- Entry `k` of `C'` for the block (bx, by) (41_embed R125). -/
def markedCoeff (s : State) (bx by' k : Nat) : F64 :=
  let c := fun k => fdctCoeff (gridLuma s bx by') (k / 8) (k % 8)
  let bit := s.pbit (encoderIndex s.payloadLen.toNat s.sqw.toNat bx by')
  if k = 35 then marginHigh (c 35) (c 28) bit (fofNat s.strength.toNat)
  else if k = 28 then marginLow (c 35) (c 28) bit (fofNat s.strength.toNat)
  else c k

/-- δ of the pixel (lx, ly) of the block (bx, by) (41_embed R125). -/
def pixelDelta (s : State) (bx by' lx ly : Nat) : F64 :=
  fsub (idctSample (markedCoeff s bx by') ly lx) (gridLuma s bx by' (8 * ly + lx))

/-- `PixUpd(v, δ)` (41_embed R124). -/
def updated (v : Byte) (delta : F64) : Int :=
  min (max (frne (fadd (fofNat v.toNat) delta)) 0) 255

/-- The parameters that EMBED accepts (41_embed R126, checks 2 to 4). -/
def embedOk (s : State) : Prop :=
  imageOk s ∧ 1 ≤ s.payloadLen.toNat ∧ s.payloadLen.toNat ≤ 4096 ∧ 1 ≤ s.strength.toNat ∧
    s.sqw.toNat ≤ 64 ∧ (s.sqw.toNat ≠ 0 → s.payloadLen.toNat = s.sqw.toNat * s.sqw.toNat)

/-- An offset that holds an R, G or B sample of a block of the embedding grid (41_embed R125, R126). -/
def embeddedOffset (s : State) (a : Nat) : Prop :=
  ∃ x y c, x < 8 * (s.imgW.toNat / 8) ∧ y < 8 * (s.imgH.toNat / 8) ∧ c < 3 ∧
    a = channelOffset s c x y

/-! ### What a command may write -/

/-- The offsets of the memories that a command writes, whatever its operands (10_state R47 to R51;
20_memory R74). -/
def mayWrite : Instr → Nat → Prop
  | .nop, _ => False
  | .fdct, a => 0x1000 ≤ a ∧ a < 0x1200
  | .idct, a => 0x1000 ≤ a ∧ a < 0x1200
  | .margin _, a => 0x10E0 ≤ a ∧ a < 0x10E8 ∨ 0x1118 ≤ a ∧ a < 0x1120
  | .ldluma _, a => 0x1000 ≤ a ∧ a < 0x1200
  | .hype _ _ _ _, _ => False
  | .search, _ => False
  | .vote _ _ _, a => 0x2000 ≤ a ∧ a < 0x2200 ∨ 0x4000 ≤ a ∧ a < 0xC000
  | .decode, a => 0x2000 ≤ a ∧ a < 0x2200 ∨ 0x4000 ≤ a ∧ a < 0xC000
  | .embed, a => 0x01000000 ≤ a ∧ a < 0x05000000 ∧ a % 4 ≠ 3
  | .ser, a => 0x2000 ≤ a ∧ a < 0x2200
  | .deser, a => 0x2400 ≤ a ∧ a < 0x2600

/-- The command writes PAYLOAD_LEN (10_state R32). -/
def writesLength (i : Instr) : Prop :=
  i = .ser ∨ i = .decode ∨ ∃ r x y, i = .vote r x y

/-- The command writes BLOCKS (10_state R41). -/
def writesBlocks (i : Instr) : Prop :=
  i = .embed ∨ i = .decode ∨ ∃ r x y, i = .vote r x y

/-- The command writes RESULT and CONF (10_state R36, R38). -/
def writesResult (i : Instr) : Prop := i = .search ∨ i = .decode

/-- The command writes ENERGY and ECOUNT (10_state R39, R40). -/
def writesEnergy (i : Instr) : Prop := ∃ r x y st, i = .hype r x y st

/-- An offset that holds an A sample of the frame memory (20_memory R65). -/
def alphaOffset (a : Nat) : Prop := 0x01000000 ≤ a ∧ a < 0x05000000 ∧ a % 4 = 3

/-- Two states differ at most in the bytes at A samples. -/
def sameButAlpha (s t : State) : Prop :=
  t = { s with mem := t.mem } ∧ ∀ a, ¬ alphaOffset a → t.byteAt a = s.byteAt a

/-! ### The host bus -/

/-- The offset of a bus address from ENGINE_BASE (20_memory R62). -/
def offsetOf (addr : Word) : Nat := (addr - Config.engineBase).toNat

/-- The windows of the address map other than the register page (20_memory R62). -/
def inMemories (off : Nat) : Prop :=
  0x1000 ≤ off ∧ off ≤ 0x11FF ∨ 0x2000 ≤ off ∧ off ≤ 0x21FF ∨ 0x2400 ≤ off ∧ off ≤ 0x25FF ∨
    0x4000 ≤ off ∧ off ≤ 0xBFFF ∨ 0x01000000 ≤ off ∧ off ≤ 0x04FFFFFF

/-- The VOTE window (20_memory R62). -/
def inVotes (off : Nat) : Prop := 0x4000 ≤ off ∧ off ≤ 0xBFFF

/-- The number of bytes of an access (20_memory R60). -/
def width : Size → Nat
  | .byte => 1
  | .half => 2
  | .word => 4

/-- An access that the bus refuses: misaligned, too narrow for the register page, or unmapped
(20_memory R68 to R70). -/
def refused (off : Nat) (size : Size) : Prop :=
  off % width size ≠ 0 ∨ off ≤ 0xFFF ∧ width size ≠ 4 ∨ 0xFFF < off ∧ ¬ inMemories off

/-- The state `s` with an access answered: the response and 32 bits of read data on the port (20_memory R60).
The count of the answers is the model's own (log entry 6). -/
def answered (s : State) (resp : Resp) (data : Word) : State :=
  { s with reply := some { resp := resp, data := data }, draws := s.draws + 1 }

/-- The state `s` with a write answered: no rule gives the read data of its reply, so they are a free value
(log entry 9). -/
def writeAnswered (s : State) (resp : Resp) : State := answered s resp (Config.openLanes s.draws)

/-- The reserved offsets of the register page (10_state R45). -/
def reserved (off : Nat) : Prop := 0x060 ≤ off ∧ off ≤ 0xFFF

/-- The registers a read returns unchanged while busy, whatever command runs (20_memory R76 (c)). -/
def steadyOffsets : List Nat :=
  [0x000, 0x004, 0x008, 0x00C, 0x010, 0x014, 0x018, 0x01C, 0x024, 0x028, 0x02C, 0x058, 0x05C]

/-- The result registers, unspecified while busy (20_memory R76 (d)). -/
def resultOffsets : List Nat := [0x030, 0x034, 0x038, 0x03C, 0x040, 0x044, 0x048, 0x04C]

/-- The command in CMD is SER, VOTE or DECODE (20_memory R76 (d)). -/
def runsLengthWriter (s : State) : Prop := ∃ i, decode s.cmd = .ok i ∧ writesLength i

/-- The bits that a register of the host stores, 0 for a read-only register and a reserved offset
(10_state R20 to R46). CMD and IRQ_STAT are not in the table: their writes act. -/
def storedBits (off : Nat) : Word :=
  if off = 0x010 then 0x1FFF#32 else if off = 0x014 then 0x1FFF#32
  else if off = 0x018 then 0xFFFF#32 else if off = 0x01C then 0xFF#32
  else if off = 0x020 then 0x1FFF#32 else if off = 0x024 then 0x7#32
  else if off = 0x028 then 0x3FF#32 else if off = 0x02C then 0x1FFF1FFF#32
  else if off = 0x050 then 0xFFFFFFFF#32 else if off = 0x054 then 0xFFFFFFFF#32
  else if off = 0x058 then 0x1#32 else 0x0#32

/-- The registers a host write changes (10_state R20): those of `storedBits`. -/
def hostWritable (off : Nat) : Prop := storedBits off ≠ 0#32

/-- The reset value of the register at an offset (10_state R53); a reserved offset reads 0 (R45). -/
def resetWord (off : Nat) : Word :=
  if off = 0x000 then 0x44435438#32 else if off = 0x004 then 0x00070001#32 else 0x0#32

end Sys2Proof.Spec

open Sys2Proof Sys2Proof.Machine

/-! ### Encoding -/

/-- Decoding the word of a well-formed command gives the command back, with every operand at every value
its field admits (30_encoding R85, R93). -/
def Obligations.DecodeOfEncode : Prop :=
  ∀ i : Instr, i.wellFormed = true → decode (encode i) = .ok i

/-- A word that decodes is the word of the well-formed command it decodes to: no two words mean one
command, and no bit of a legal word is dropped (30_encoding R85, R93). -/
def Obligations.EncodeOfDecode : Prop :=
  ∀ w i, decode w = .ok i → i.wellFormed = true ∧ encode i = w

/-- A word that decodes matches exactly one row of the opcode table, that of its command; a word that does
not decode matches none (30_encoding R87). -/
def Obligations.DecodeSelectsTheTableRow : Prop :=
  (∀ w i, decode w = .ok i →
    ∃ row ∈ opcodeTable, row.mnemonic = Spec.mnemonic i ∧ w &&& row.mask = row.fixed ∧
      ∀ r ∈ opcodeTable, w &&& r.mask = r.fixed → r = row) ∧
  ∀ w e, decode w = .error e → ∀ r ∈ opcodeTable, w &&& r.mask ≠ r.fixed

/-- A reserved opcode, or a 1 in a reserved bit or in a field the command does not use, is accepted like any
other word: BUSY is set and CMD holds the word. The command then completes with IllegalCommand, code 5, and
no other effect. These words are all the words that name no command, and only the word 0 is NOP
(30_encoding R88, R89). -/
def Obligations.IllegalWordsComplete : Prop :=
  (∀ w, (∃ e, decode w = .error e) ↔ Spec.illegalWord w) ∧
  (∀ w, decode w = .ok .nop → w = 0#32) ∧
  ∀ (s : State) (w addr : Word), Spec.illegalWord w → s.status.busy = false →
    Spec.offsetOf addr = 0x008 →
    ∃ t u, s.hostAccess (.write addr .word w) = t ∧ t.cmd = w ∧ t.status.busy = true ∧
      t.runCommand = .next u ∧ u = Spec.completed t .illegalCommand true false ∧
      u.readReg 0x00C = 0x506#32

/-- The words that the spec writes out decode to the commands it gives them (30_encoding R85 to R89, R93;
40_transform R106 to R108; 42_search R143). A check of fixed words. -/
def Obligations.WordsOfTheSpecDecode : Prop :=
  decode 0x00000000#32 = .ok .nop ∧ decode 0x00000001#32 = .ok .fdct ∧
  decode 0x00000002#32 = .ok .idct ∧ decode 0x00000003#32 = .ok (.margin false) ∧
  decode 0x00001003#32 = .ok (.margin true) ∧ decode 0x00000104#32 = .ok (.ldluma .deg90) ∧
  decode 0x01530105#32 = .ok (.hype .deg90 3 5 .every8) ∧ decode 0x00000006#32 = .ok .search ∧
  decode 0x00350207#32 = .ok (.vote .deg180 5 3) ∧ decode 0x00000008#32 = .ok .decode ∧
  decode 0x00000009#32 = .ok .embed ∧ decode 0x0000000A#32 = .ok .ser ∧
  decode 0x0000000B#32 = .ok .deser ∧ decode 0x00001001#32 = .error .strayBits ∧
  decode 0x0000000C#32 = .error .reservedOpcode

/-! ### The step and the life of a command -/

/-- A step in which the running command takes its step is `exec` of the decoded command at the state after
the host's part of the step, and IllegalCommand where the word names none; a step without reset in which no
command takes its step is the host's part alone. The host's part takes the turn off, clears the reply port and
does the access, if there is one. Two clauses are the model's choice, not the spec's: the turn of a step, as the
form of its input (log entry 5), and that a reply stays on the port until the next step only (log entry 9). -/
def Obligations.StepRunsTheDecodedCommand : Prop :=
  ∀ (s : State) (turn : Turn), turn = s.turns.headD Turn.quiet → turn.reset = false →
    ∃ h : State,
      (turn.access = none → h = { s with turns := s.turns.tail, reply := none }) ∧
      (∀ a, turn.access = some a →
        h = ({ s with turns := s.turns.tail, reply := none } : State).hostAccess a) ∧
      (∀ i, s.status.busy = true → turn.engine = true → decode s.cmd = .ok i →
        i.wellFormed = true ∧ step s = exec i h) ∧
      (∀ e, s.status.busy = true → turn.engine = true → decode s.cmd = .error e →
        step s = .next (Spec.completed h .illegalCommand true false)) ∧
      (s.status.busy = false ∨ turn.engine = false → step s = .next h)

/-- A host write of a word to CMD while idle is accepted in one step: CMD holds the word, STATUS is
cleared but for BUSY, and nothing else changes; the command then runs in a later step. While busy the
write is rejected (60_exceptions R205). The clause on that later step is the model's choice in two points: a
quiet turn runs the whole command in one step (log entry 5), and it clears the reply port (log entry 9). The
read data of the reply are a free value (log entry 9). -/
def Obligations.WriteToCmdIsAccepted : Prop :=
  ∀ (s : State) (addr w : Word), Spec.offsetOf addr = 0x008 →
    (s.status.busy = false → ∃ t, s.hostAccess (.write addr .word w) = t ∧
      t = Spec.writeAnswered
        { s with
          cmd := w
          status :=
            { busy := true, done := false, err := false, warn := false, rej := false, code := .none } }
        .okay ∧
      ∀ i later, decode w = .ok i →
        step { t with turns := Turn.quiet :: later } = exec i { t with turns := later, reply := none }) ∧
    (s.status.busy = true → s.hostAccess (.write addr .word w) =
      Spec.writeAnswered { s with status := { s.status with rej := true } } .error)

/-- Every command ends in one completion: BUSY 0, DONE 1, ERR and WARN by the code, REJ kept, DONE_IP set;
only SEARCH and DECODE end with the warning. And every step of the machine answers a next state
(60_exceptions R206, R200; 70_reset R240). -/
def Obligations.EveryCommandCompletes : Prop :=
  (∀ (i : Instr) (s : State), ∃ t, exec i s = .next t ∧ t.status.busy = false ∧ t.status.done = true ∧
    t.status.rej = s.status.rej ∧ t.doneIp = true ∧ t.status.code ≠ .illegalCommand ∧
    (t.status.err = true ↔
      t.status.code = .emptyPayload ∨ t.status.code = .invalidImage ∨ t.status.code = .badParameter) ∧
    (t.status.warn = true ↔ t.status.code = .noSignalDetected) ∧
    (t.status.warn = true → i = .search ∨ i = .decode)) ∧
  ∀ s : State, ∃ t, step s = .next t

/-- A command whose checks fail reports the first failing check and changes nothing but STATUS and
IRQ_STAT; one whose checks do not fail ends without an error; a word that names no command reports
IllegalCommand whatever else is wrong (60_exceptions R202, R203, with the table of R201). -/
def Obligations.FatalErrorsArePrecise : Prop :=
  (∀ (i : Instr) (s : State) (e : Code), Spec.FirstError i s e →
    exec i s = .next (Spec.completed s e true false)) ∧
  (∀ (i : Instr) (s : State), (∀ e, ¬ Spec.FirstError i s e) →
    ∃ t, exec i s = .next t ∧ t.status.err = false) ∧
  ∀ (s : State) (e : Reject), decode s.cmd = .error e →
    s.runCommand = .next (Spec.completed s .illegalCommand true false)

/-- What a command may change, on every path: its own memories, the result registers it is said to write,
STATUS and DONE_IP. Every other register, and every byte of the other memories, keeps its value
(10_state R23, R32, R36 to R42, R47 to R51; 20_memory R74). -/
def Obligations.CommandsWriteOnlyTheirOwn : Prop :=
  ∀ (i : Instr) (s : State), ∃ t, exec i s = .next t ∧
    t = { s with
      mem := t.mem, status := t.status, doneIp := true, payloadLen := t.payloadLen,
      result := t.result, conf := t.conf, blocks := t.blocks, energy := t.energy,
      ecount := t.ecount, byteCount := t.byteCount } ∧
    (¬ Spec.writesLength i → t.payloadLen = s.payloadLen) ∧
    (¬ Spec.writesResult i → t.result = s.result ∧ t.conf = s.conf) ∧
    (¬ Spec.writesBlocks i → t.blocks = s.blocks) ∧
    (¬ Spec.writesEnergy i → t.energy = s.energy ∧ t.ecount = s.ecount) ∧
    (i ≠ .deser → t.byteCount = s.byteCount) ∧
    ∀ a, ¬ Spec.mayWrite i a → t.byteAt a = s.byteAt a

/-- No command reads or writes an A sample: two states that differ only in A samples stay so under the
same command, with the same registers and the same other bytes, and each keeps its A samples
(41_embed R129). -/
def Obligations.AlphaIsNeitherReadNorWritten : Prop :=
  ∀ (i : Instr) (s s' : State), Spec.sameButAlpha s s' →
    ∃ t t', exec i s = .next t ∧ exec i s' = .next t' ∧ Spec.sameButAlpha t t' ∧
      ∀ a, Spec.alphaOffset a → t.byteAt a = s.byteAt a ∧ t'.byteAt a = s'.byteAt a

/-- Only MARGIN and EMBED read STRENGTH: any other command gives the same result at every strength
(10_state R30; 43_vote R166). -/
def Obligations.StrengthIsReadByMarginAndEmbedOnly : Prop :=
  ∀ (i : Instr) (s : State) (p : BitVec 16), (∀ b, i ≠ .margin b) → i ≠ .embed →
    ∃ t, exec i s = .next t ∧ exec i { s with strength := p } = .next { t with strength := p }

/-! ### Reset -/

/-- The registers of the reset state read the values of 10_state R53. -/
def Obligations.RegistersAfterReset : Prop :=
  ∀ off, off < 0x1000 → off % 4 = 0 → State.reset.readReg off = Spec.resetWord off

/-- A reset is taken over the access, the acceptance and the command step of the same step: every register
takes its reset value, no completion is recorded, irq is low, and memory counts as never written
(70_reset R233, R230, R232). That the access of the step gets no reply and the port is clear is the model's
choice, not the spec's (log entry 12). The counters and the coming turns are the model's own
(log entries 2, 5, 6). -/
def Obligations.ResetTakesPrecedence : Prop :=
  ∀ s : State, (s.turns.headD Turn.quiet).reset = true → ∃ t, step s = .next t ∧
    (∀ off, off < 0x1000 → off % 4 = 0 → t.readReg off = Spec.resetWord off) ∧
    t.status.busy = false ∧ t.doneIp = false ∧ t.irq = false ∧ t.mem = [] ∧ t.reply = none ∧
    (∀ a, t.byteAt a = Config.memInit t.resets a) ∧ t.resets = s.resets + 1 ∧
    t.turns = s.turns.tail

/-! ### The host bus -/

/-- A misaligned access, one too narrow for the register page and one to an unmapped offset get an ERROR
response with read data 0 and no effect, whether or not the engine is busy; REJ is not set
(20_memory R69; also R68, R70). -/
def Obligations.RefusedAccessesHaveNoEffect : Prop :=
  ∀ (s : State) (addr v : Word) (size : Size), Spec.refused (Spec.offsetOf addr) size →
    s.hostAccess (.read addr size) = Spec.answered s .error 0#32 ∧
    s.hostAccess (.write addr size v) = Spec.answered s .error 0#32

/-- A write while busy, but to IRQ_EN or IRQ_STAT, is rejected: ERROR, REJ set, no other effect
(20_memory R76 (b); 93_implementation_defined U10). -/
def Obligations.WritesWhileBusyAreRejected : Prop :=
  ∀ (s : State) (addr v : Word) (size : Size), s.status.busy = true →
    ¬ Spec.refused (Spec.offsetOf addr) size → Spec.offsetOf addr ≠ 0x058 →
    Spec.offsetOf addr ≠ 0x05C →
    s.hostAccess (.write addr size v) =
      Spec.writeAnswered { s with status := { s.status with rej := true } } .error

/-- A read while busy returns the current value of ID, VERSION, CMD, STATUS, IRQ_EN, IRQ_STAT, the
configuration registers, and PAYLOAD_LEN unless SER, VOTE or DECODE is running; a reserved offset reads 0 as
while idle; a result register, a memory, and PAYLOAD_LEN otherwise, return the free value BUSYREAD. All are
answered with OKAY, and nothing else changes (20_memory R76 (c), (d); 10_state R45;
93_implementation_defined U2, U8; log entry 3). That FLOOR reads its current value, as a configuration
register (30_encoding R86), is what the model deduces from the rules, not a rule of its own (log entry 7). -/
def Obligations.ReadsWhileBusy : Prop :=
  ∀ (s : State) (addr : Word) (size : Size), s.status.busy = true →
    ¬ Spec.refused (Spec.offsetOf addr) size →
    (Spec.offsetOf addr ∈ Spec.steadyOffsets ∨ Spec.offsetOf addr = 0x020 ∧ ¬ Spec.runsLengthWriter s →
      s.hostAccess (.read addr size) = Spec.answered s .okay (s.readReg (Spec.offsetOf addr))) ∧
    (Spec.offsetOf addr = 0x050 ∨ Spec.offsetOf addr = 0x054 →
      s.hostAccess (.read addr size) = Spec.answered s .okay (s.readReg (Spec.offsetOf addr))) ∧
    (Spec.reserved (Spec.offsetOf addr) →
      s.hostAccess (.read addr size) = Spec.answered s .okay 0#32) ∧
    (Spec.offsetOf addr ∈ Spec.resultOffsets ∨ Spec.inMemories (Spec.offsetOf addr) ∨
        Spec.offsetOf addr = 0x020 ∧ Spec.runsLengthWriter s →
      s.hostAccess (.read addr size) = Spec.answered s .okay (Config.busyRead s.draws))

/-- A read while idle is answered with OKAY and changes nothing else: its read data hold the addressed
bytes, the least significant first, in the low lanes; no rule gives the lanes above a narrow read
(20_memory R60, R63, R71; log entry 9). -/
def Obligations.ReadsWhileIdle : Prop :=
  ∀ (s : State) (addr : Word) (size : Size), s.status.busy = false →
    ¬ Spec.refused (Spec.offsetOf addr) size →
    ∃ data : Word,
      s.hostAccess (.read addr size) = Spec.answered s .okay data ∧
      ∀ i, i < Spec.width size → data.extractLsb' (8 * i) 8 =
        if Spec.offsetOf addr < 0x1000 then (s.readReg (Spec.offsetOf addr)).extractLsb' (8 * i) 8
          else s.byteAt (Spec.offsetOf addr + i)

/-- A write while idle to BLK, PAYLOAD, BYTEBUF or PIX stores the addressed bytes, least significant
first, and changes no other byte and no register; a write to VOTE is ignored with OKAY
(20_memory R63, R70). -/
def Obligations.MemoryWritesAreLittleEndian : Prop :=
  ∀ (s : State) (addr v : Word) (size : Size), s.status.busy = false →
    ¬ Spec.refused (Spec.offsetOf addr) size → Spec.inMemories (Spec.offsetOf addr) →
    ∃ t, s.hostAccess (.write addr size v) = t ∧
      t = Spec.writeAnswered { s with mem := t.mem } .okay ∧
      (Spec.inVotes (Spec.offsetOf addr) → t.mem = s.mem) ∧
      (¬ Spec.inVotes (Spec.offsetOf addr) →
        (∀ i, i < Spec.width size → t.byteAt (Spec.offsetOf addr + i) = v.extractLsb' (8 * i) 8) ∧
        sameBytesOutside s t (Spec.offsetOf addr) (Spec.width size))

/-- A binary64 value written to BLK[k] as two 32-bit writes, the low word first, is BLK[k]
(20_memory R63, R64). -/
def Obligations.TwoWritesMakeOneEntry : Prop :=
  ∀ (s : State) (low high lo hi : Word) (k : Nat), s.status.busy = false → k < 64 →
    Spec.offsetOf low = 0x1000 + 8 * k → Spec.offsetOf high = 0x1000 + 8 * k + 4 →
    ∃ t, (s.hostAccess (.write low .word lo)).hostAccess (.write high .word hi) = t ∧
      Spec.blkEntry t k = hi ++ lo ∧
      ∀ j, j < 64 → j ≠ k → Spec.blkEntry t j = Spec.blkEntry s j

/-- A write while idle to a register of the register page, CMD and IRQ_STAT apart, stores the named fields
of that register: it then reads the written value with its reserved bits 0, whatever the value; every
other register reads as before, and nothing else of the state changes, no byte of memory among it. A write to a
read-only register or to a reserved offset changes nothing. All are answered with OKAY (10_state R45, R46). -/
def Obligations.RegisterWritesStoreTheNamedFields : Prop :=
  ∀ (s : State) (addr v : Word) (off : Nat), s.status.busy = false → off = Spec.offsetOf addr →
    off < 0x1000 → off % 4 = 0 → off ≠ 0x008 → off ≠ 0x05C →
    ∃ t, s.hostAccess (.write addr .word v) = t ∧
      t = Spec.writeAnswered
        { s with
          imgW := t.imgW, imgH := t.imgH, strength := t.strength, sqw := t.sqw,
          payloadLen := t.payloadLen, bitOffset := t.bitOffset, textLen := t.textLen, blkPos := t.blkPos,
          floor := t.floor, doneIe := t.doneIe } .okay ∧
      sameBytes s t ∧
      (Spec.hostWritable off → t.readReg off = v &&& Spec.storedBits off) ∧
      (¬ Spec.hostWritable off → t = Spec.writeAnswered s .okay) ∧
      ∀ other, other < 0x1000 → other % 4 = 0 → other ≠ off → t.readReg other = s.readReg other

/-- The fields of the registers stand at the bits that their rules give, and every other bit reads 0; the
codes of a completion and of a rotation are numbered as the rules number them
(10_state R20 to R45; 60_exceptions R200). -/
def Obligations.RegistersReadTheirFields : Prop :=
  [Code.none, .emptyPayload, .invalidImage, .noSignalDetected, .badParameter, .illegalCommand].map
    Code.number = [0#4, 1#4, 2#4, 3#4, 4#4, 5#4] ∧
  [Rotation.deg0, .deg90, .deg180, .deg270].map Rotation.code = [0#2, 1#2, 2#2, 3#2] ∧
  ∀ s : State,
    s.readReg 0x000 = 0x44435438#32 ∧ s.readReg 0x004 = 0x00070001#32 ∧ s.readReg 0x008 = s.cmd ∧
    s.readReg 0x00C = 0#20 ++ s.status.code.number ++ 0#3 ++ BitVec.ofBool s.status.rej ++
      BitVec.ofBool s.status.warn ++ BitVec.ofBool s.status.err ++ BitVec.ofBool s.status.done ++
      BitVec.ofBool s.status.busy ∧
    s.readReg 0x010 = 0#19 ++ s.imgW ∧ s.readReg 0x014 = 0#19 ++ s.imgH ∧
    s.readReg 0x018 = 0#16 ++ s.strength ∧ s.readReg 0x01C = 0#24 ++ s.sqw ∧
    s.readReg 0x020 = 0#19 ++ s.payloadLen ∧ s.readReg 0x024 = 0#29 ++ s.bitOffset ∧
    s.readReg 0x028 = 0#22 ++ s.textLen ∧
    s.readReg 0x02C = 0#3 ++ s.blkPos.y0 ++ 0#3 ++ s.blkPos.x0 ∧
    s.readReg 0x030 = 0#13 ++ s.result.oy ++ 0#5 ++ s.result.ox ++ 0#6 ++ s.result.rot.code ∧
    s.readReg 0x034 = s.blocks ∧ s.readReg 0x03C ++ s.readReg 0x038 = s.conf ∧
    s.readReg 0x044 ++ s.readReg 0x040 = s.energy ∧ s.readReg 0x048 = s.ecount ∧
    s.readReg 0x04C = 0#22 ++ s.byteCount ∧ s.readReg 0x054 ++ s.readReg 0x050 = s.floor ∧
    s.readReg 0x058 = 0#31 ++ BitVec.ofBool s.doneIe ∧
    s.readReg 0x05C = 0#31 ++ BitVec.ofBool s.doneIp ∧
    ∀ off, 0x060 ≤ off → off < 0x1000 → s.readReg off = 0#32

/-- IRQ_STAT: every completion sets DONE_IP; a host write with bit 0 = 1 clears it and one with bit 0 = 0
leaves it, busy or idle, and nothing else changes; its reset value is 0 (10_state R44). -/
def Obligations.IrqStatIsWriteOneToClear : Prop :=
  (∀ (s : State) (addr v : Word), Spec.offsetOf addr = 0x05C →
    s.hostAccess (.write addr .word v) =
      Spec.writeAnswered { s with doneIp := if v.getLsbD 0 then false else s.doneIp } .okay) ∧
  (∀ s : State, ∃ t, s.runCommand = .next t ∧ t.doneIp = true) ∧
  (∀ s : State, s.readReg 0x05C = 0#31 ++ BitVec.ofBool s.doneIp) ∧
  State.reset.doneIp = false

/-- The interrupt output is DONE_IE and DONE_IP: a completion raises it when DONE_IE is 1, whatever its
code, and not when DONE_IE is 0; the host lowers it by clearing DONE_IP or DONE_IE and raises it by setting
DONE_IE while DONE_IP is 1 (60_exceptions R207, R208). A write to IRQ_EN sets DONE_IE to bit 0, busy or idle,
is answered with OKAY, and changes nothing else (10_state R43; 20_memory R76 (a)). -/
def Obligations.IrqFollowsEnableAndPending : Prop :=
  (∀ s : State, s.irq = (s.doneIe && s.doneIp)) ∧
  (∀ s : State, ∃ t, s.runCommand = .next t ∧ t.irq = s.doneIe) ∧
  (∀ (s : State) (addr v : Word), Spec.offsetOf addr = 0x05C → v.getLsbD 0 = true →
    (s.hostAccess (.write addr .word v)).irq = false) ∧
  (∀ (s : State) (addr v : Word), Spec.offsetOf addr = 0x058 →
    s.hostAccess (.write addr .word v) = Spec.writeAnswered { s with doneIe := v.getLsbD 0 } .okay ∧
    (s.hostAccess (.write addr .word v)).irq = (v.getLsbD 0 && s.doneIp))

/-- A host write of 1 to IRQ_STAT and a completion in the same step: the completion is ordered after the
write, so DONE_IP ends at 1 (60_exceptions R209). -/
def Obligations.CompletionAfterClearLeavesPending : Prop :=
  ∀ (s : State) (addr v : Word) (later : List Turn), s.status.busy = true →
    Spec.offsetOf addr = 0x05C → v.getLsbD 0 = true →
    s.turns = { reset := false, access := some (.write addr .word v), engine := true } :: later →
    ∃ t, step s = .next t ∧ t.doneIp = true ∧ t.status.busy = false ∧ t.turns = later

/-! ### Invariants -/

/-- The reset state meets the invariant. -/
def Obligations.ResetMeetsTheInvariant : Prop := State.reset.Inv ∧ State.reset.EnergyInv

/-- Every step keeps the invariant: the canonical form of memory with existing offsets only, STATUS
consistent, BLOCKS and ECOUNT at most 262144 and BYTE_COUNT at most 512 (10_state R26, R40 to R42;
20_memory R62; 60_exceptions R200, R206; 40_transform R111). -/
def Obligations.StepKeepsTheInvariant : Prop :=
  ∀ s t : State, s.Inv → step s = .next t → t.Inv

/-- Every step keeps CONF and ENERGY neither negative nor NaN (10_state R38; 42_search R145). -/
def Obligations.StepKeepsEnergiesNotNegative : Prop :=
  ∀ s t : State, s.EnergyInv → step s = .next t → t.EnergyInv

/-! ### Binary64 arithmetic -/

/-- The operations on finite operands are correctly rounded, to nearest with ties to even
(40_transform R100; 00_scope R10). -/
def Obligations.ArithmeticIsCorrectlyRounded : Prop :=
  ∀ x y : F64, Spec.isFinite x → Spec.isFinite y →
    Spec.Rounded (Spec.units x + Spec.units y) (fadd x y) ∧
    Spec.Rounded (Spec.units x - Spec.units y) (fsub x y) ∧
    Spec.Rounded (Spec.units x * Spec.units y / 2 ^ 1074) (fmul x y) ∧
    (Spec.units y ≠ 0 → Spec.Rounded (Spec.units x * 2 ^ 1074 / Spec.units y) (fdiv x y))

/-- A NaN result is the canonical NaN whatever the operands; infinities and signed zeros follow IEEE 754; a
difference is the sum with the negated subtrahend, on every operand, infinities and zeros among them
(40_transform R101, R100). -/
def Obligations.SpecialValuesFollowIeee : Prop :=
  (∀ x y : F64, ∀ z ∈ [fadd x y, fsub x y, fmul x y, fdiv x y],
    (Spec.isNaN z → z = 0x7FF8000000000000#64) ∧ (Spec.isNaN x ∨ Spec.isNaN y → Spec.isNaN z)) ∧
  (∀ x y : F64, fsub x y = fadd x (fneg y)) ∧
  (∀ x y : F64, Spec.isInf x → Spec.isInf y →
    (x.msb = y.msb → fsub x y = 0x7FF8000000000000#64) ∧ (x.msb ≠ y.msb → fsub x y = x) ∧
    (x.msb = y.msb → fadd x y = x) ∧ (x.msb ≠ y.msb → Spec.isNaN (fadd x y)) ∧
    Spec.isInf (fmul x y) ∧ (fmul x y).msb = (x.msb ^^ y.msb) ∧ Spec.isNaN (fdiv x y)) ∧
  (∀ x y : F64, Spec.isInf x → Spec.isFinite y →
    fadd x y = x ∧ fadd y x = x ∧ fsub x y = x ∧ fsub y x = fneg x ∧
    (Spec.isZero y → Spec.isNaN (fmul x y) ∧ Spec.isNaN (fmul y x)) ∧
    (¬ Spec.isZero y → Spec.isInf (fmul x y) ∧ (fmul x y).msb = (x.msb ^^ y.msb) ∧
      fmul y x = fmul x y) ∧
    Spec.isInf (fdiv x y) ∧ (fdiv x y).msb = (x.msb ^^ y.msb) ∧
    Spec.isZero (fdiv y x) ∧ (fdiv y x).msb = (x.msb ^^ y.msb)) ∧
  (∀ x y : F64, Spec.isFinite x → Spec.isFinite y →
    (fmul x y).msb = (x.msb ^^ y.msb) ∧
    (Spec.units x + Spec.units y = 0 → Spec.isZero (fadd x y) ∧
      ((fadd x y).msb = (x.msb && y.msb))) ∧
    (Spec.units x - Spec.units y = 0 → Spec.isZero (fsub x y) ∧
      (fsub x y).msb = (x.msb && !y.msb)) ∧
    (¬ Spec.isZero y → (fdiv x y).msb = (x.msb ^^ y.msb)) ∧
    (Spec.isZero y → (Spec.isZero x → Spec.isNaN (fdiv x y)) ∧
      (¬ Spec.isZero x → Spec.isInf (fdiv x y) ∧ (fdiv x y).msb = (x.msb ^^ y.msb))))

/-- The comparison orders the numbers as the reals with the infinities at the ends, the two zeros equal,
and is false when either operand is a NaN; negation and absolute value turn over and clear the sign bit
alone (00_scope R10; 41_embed R122). -/
def Obligations.ComparisonAndSign : Prop :=
  (∀ x y : F64, Spec.isFinite x → Spec.isFinite y →
    (flt x y = true ↔ Spec.units x < Spec.units y)) ∧
  (∀ x y : F64, Spec.isNaN x ∨ Spec.isNaN y → flt x y = false) ∧
  (∀ x y : F64, Spec.isInf x → ¬ Spec.isNaN y →
    (flt x y = true ↔ x.msb = true ∧ y ≠ x) ∧ (flt y x = true ↔ x.msb = false ∧ y ≠ x)) ∧
  (∀ x : F64, (fneg x).msb = !x.msb ∧ (fneg x).extractLsb' 0 63 = x.extractLsb' 0 63) ∧
  (∀ x : F64, (fabs x).msb = false ∧ (fabs x).extractLsb' 0 63 = x.extractLsb' 0 63)

/-- `f64(n)` is exact below 2^53; `rne` of a finite number is the nearest integer, ties to even; and a
pixel update is the rounded sum clamped to 0..255 (00_scope R10; 41_embed R124). -/
def Obligations.ConversionsAndPixelUpdate : Prop :=
  (∀ n : Nat, n < 2 ^ 53 → Spec.isFinite (fofNat n) ∧ Spec.units (fofNat n) = n * 2 ^ 1074) ∧
  (∀ x : F64, Spec.isFinite x →
    2 * |frne x * 2 ^ 1074 - Spec.units x| ≤ 2 ^ 1074 ∧
    (2 * |frne x * 2 ^ 1074 - Spec.units x| = 2 ^ 1074 → frne x % 2 = 0)) ∧
  (∀ (v : Byte) (delta : F64), ((pixUpd v delta).toNat : Int) = Spec.updated v delta)

/-- `Luma` is the rounded sum of the rule's constants times the samples, less 128.0; it is finite for every
pixel; its values at black, white and mid-grey are those of the rule; and each constant is the binary64
number nearest to 0.299, 0.587 and 0.114 (41_embed R120). -/
def Obligations.LumaOfEveryPixel : Prop :=
  (∀ p : Rgb, luma p = Spec.lumaOf p.r.toNat p.g.toNat p.b.toNat ∧ Spec.isFinite (luma p)) ∧
  luma ⟨0#8, 0#8, 0#8⟩ = 0xC060000000000000#64 ∧
  luma ⟨255#8, 255#8, 255#8⟩ = 0x405FC00000000000#64 ∧
  luma ⟨128#8, 128#8, 128#8⟩ = 0xBD10000000000000#64 ∧
  Spec.Rounded (299 * 2 ^ 1074 / 1000) 0x3FD322D0E5604189#64 ∧
  Spec.Rounded (587 * 2 ^ 1074 / 1000) 0x3FE2C8B439581062#64 ∧
  Spec.Rounded (114 * 2 ^ 1074 / 1000) 0x3FBD2F1A9FBE76C9#64

/-- `Dot8` adds eight products to +0.0 in ascending order, each product rounded and then each sum
(40_transform R102). -/
def Obligations.Dot8IsSequential : Prop :=
  ∀ a b : Nat → F64, dot8 a b = Spec.dot8 a b

/-- The basis ROM holds at each place the magnitude and the sign of a(u)·cos((2x+1)uπ/16), has seven
magnitudes, and has the exact symmetry M[u][7−k] = (−1)^u · M[u][k] (40_transform R103; 42_search R151). A check
of the table. -/
def Obligations.BasisIsSymmetric : Prop :=
  ∀ u k, u < 8 → k < 8 →
    basis u k = Spec.basisEntry u k ∧
    basis u (7 - k) = (if u % 2 = 0 then basis u k else fneg (basis u k)) ∧
    fabs (basis u k) ∈ [0x3FB8F8B83C69A60B#64, 0x3FC87DE2A6AEA963#64, 0x3FD1C73B39AE68C8#64,
      0x3FD6A09E667F3BCD#64, 0x3FDA9B66290EA1A3#64, 0x3FDD906BCF328D46#64, 0x3FDF6297CFF75CB0#64]

/-! ### The commands -/

/-- NOP completes with no effect (40_transform R106). -/
def Obligations.NopOnlyCompletes : Prop :=
  ∀ s : State, exec .nop s = .next (Spec.completed s .none false false)

/-- FDCT: each BLK entry becomes its coefficient of the forward transform of the old BLK, row pass first;
no other byte and no other register changes (40_transform R104, R107). -/
def Obligations.FdctResult : Prop :=
  ∀ s : State, ∃ t, exec .fdct s = .next t ∧
    t = { Spec.completed s .none false false with mem := t.mem } ∧
    (∀ u v, u < 8 → v < 8 →
      Spec.blkEntry t (8 * u + v) = Spec.fdctCoeff (Spec.blkEntry s) u v) ∧
    sameBytesOutside s t 0x1000 0x200

/-- IDCT: each BLK entry becomes its sample of the inverse transform of the old BLK, column pass first; no
other byte and no other register changes (40_transform R105, R108). -/
def Obligations.IdctResult : Prop :=
  ∀ s : State, ∃ t, exec .idct s = .next t ∧
    t = { Spec.completed s .none false false with mem := t.mem } ∧
    (∀ r c, r < 8 → c < 8 →
      Spec.blkEntry t (8 * r + c) = Spec.idctSample (Spec.blkEntry s) r c) ∧
    sameBytesOutside s t 0x1000 0x200

/-- MARGIN with STRENGTH ≥ 1: BLK[35] and BLK[28] are moved by the sign-margin rule; every byte outside
those two entries and every other register keeps its value (41_embed R122, R123). -/
def Obligations.MarginResult : Prop :=
  ∀ (s : State) (bit : Bool), s.strength.toNat ≠ 0 → ∃ t, exec (.margin bit) s = .next t ∧
    t = { Spec.completed s .none false false with mem := t.mem } ∧
    Spec.blkEntry t 35 = Spec.marginHigh (Spec.blkEntry s 35) (Spec.blkEntry s 28) bit
      (fofNat s.strength.toNat) ∧
    Spec.blkEntry t 28 = Spec.marginLow (Spec.blkEntry s 35) (Spec.blkEntry s 28) bit
      (fofNat s.strength.toNat) ∧
    ∀ a, ¬ (0x10E0 ≤ a ∧ a < 0x10E8) → ¬ (0x1118 ≤ a ∧ a < 0x1120) → t.byteAt a = s.byteAt a

/-- LDLUMA with a valid image and the block inside it: BLK becomes the de-rotated luma block at BLKPOS; no
other byte and no other register changes (42_search R141 to R143; 41_embed R120). -/
def Obligations.LdlumaResult : Prop :=
  ∀ (s : State) (rot : Rotation), Spec.imageOk s → s.blkPos.x0.toNat + 8 ≤ s.imgW.toNat →
    s.blkPos.y0.toNat + 8 ≤ s.imgH.toNat → ∃ t, exec (.ldluma rot) s = .next t ∧
    t = { Spec.completed s .none false false with mem := t.mem } ∧
    (∀ k, k < 64 →
      Spec.blkEntry t k = Spec.loaded s rot s.blkPos.x0.toNat s.blkPos.y0.toNat k) ∧
    sameBytesOutside s t 0x1000 0x200

/-- HYPE with a valid image: ENERGY and ECOUNT become what the loops of `Energy` give at the stride of S8,
8 pixels if S8 = 1 and 16 if not; no byte of memory and no other register changes (42_search R145, R146). -/
def Obligations.HypeResult : Prop :=
  ∀ (s : State) (rot : Rotation) (ox oy : Nat) (stride : Stride), Spec.imageOk s → ox < 8 → oy < 8 →
    exec (.hype rot ox oy stride) s = .next
      { Spec.completed s .none false false with
        energy := (Spec.energyLoop s rot ox oy (Spec.strideOf stride)).1
        ecount := BitVec.ofNat 32 (Spec.energyLoop s rot ox oy (Spec.strideOf stride)).2 }

/-- SEARCH with a valid image: RESULT and CONF become the winner of the coarse and refinement loops, and
STATUS tells whether its energy is above FLOOR; no byte of memory and no other register changes
(42_search R147 to R150). -/
def Obligations.SearchResult : Prop :=
  ∀ s : State, Spec.imageOk s → ∃ c w, Spec.coarseLoop s = some c ∧ w = Spec.refineLoop s c ∧
    w.1.ox < 8 ∧ w.1.oy < 8 ∧
    exec .search s = .next
      { Spec.checkedSignal s w.2 with
        result := { rot := w.1.rot, ox := BitVec.ofNat 3 w.1.ox, oy := BitVec.ofNat 3 w.1.oy }
        conf := w.2 }

/-- VOTE with a valid image and SQW ≤ 64: each V[k] is the sequential sum of the differences of its blocks,
each payload bit below N says whether its sum is positive, PAYLOAD_LEN is N and BLOCKS counts the scan;
nothing else changes (43_vote R160 to R165). -/
def Obligations.VoteResult : Prop :=
  ∀ (s : State) (rot : Rotation) (ox oy : Nat), Spec.imageOk s → s.sqw.toNat ≤ 64 → ox < 8 → oy < 8 →
    ∃ t, exec (.vote rot ox oy) s = .next t ∧
      t = { Spec.completed s .none false false with
        mem := t.mem
        payloadLen := BitVec.ofNat 13 (Spec.bitCount s)
        blocks := BitVec.ofNat 32
          (Spec.gridSize s.imgW.toNat ox * Spec.gridSize s.imgH.toNat oy) } ∧
      Spec.decodedAt s t rot ox oy

/-- DECODE with a valid image and SQW ≤ 64 ends in the state of SEARCH followed by VOTE at RESULT, but for
STATUS, which is that of SEARCH (43_vote R166; 60_exceptions R204). -/
def Obligations.DecodeIsSearchThenVote : Prop :=
  ∀ s : State, Spec.imageOk s → s.sqw.toNat ≤ 64 →
    ∃ a b, exec .search s = .next a ∧
      exec (.vote a.result.rot a.result.ox.toNat a.result.oy.toNat) a = .next b ∧
      exec .decode s = .next { b with status := a.status }

/-- EMBED with a valid image and parameters: every R, G and B sample of every whole block is updated by
the delta of its pixel, all deltas taken from the image before the command; BLOCKS counts the blocks; every
other byte, the A samples and the remainders among them, and every other register keep their values
(41_embed R121 to R126). -/
def Obligations.EmbedResult : Prop :=
  ∀ s : State, Spec.embedOk s → ∃ t, exec .embed s = .next t ∧
    t = { Spec.completed s .none false false with
      mem := t.mem
      blocks := BitVec.ofNat 32 (s.imgW.toNat / 8 * (s.imgH.toNat / 8)) } ∧
    (∀ bx by' lx ly c, bx < s.imgW.toNat / 8 → by' < s.imgH.toNat / 8 → lx < 8 → ly < 8 → c < 3 →
      ((Spec.channel t c (8 * bx + lx) (8 * by' + ly)).toNat : Int) =
        Spec.updated (Spec.channel s c (8 * bx + lx) (8 * by' + ly))
          (Spec.pixelDelta s bx by' lx ly)) ∧
    ∀ a, ¬ Spec.embeddedOffset s a → t.byteAt a = s.byteAt a

/-- SER with TEXT_LEN ≤ 511: payload bit 8j + t is bit 7 − t of text byte j, or of the ETX after the text;
PAYLOAD_LEN is 8·(TEXT_LEN + 1); no byte after them and no other register changes (44_payload R180). -/
def Obligations.SerResult : Prop :=
  ∀ s : State, s.textLen.toNat ≤ 511 → ∃ t, exec .ser s = .next t ∧
    t = { Spec.completed s .none false false with
      mem := t.mem
      payloadLen := BitVec.ofNat 13 (8 * (s.textLen.toNat + 1)) } ∧
    (∀ j u, j ≤ s.textLen.toNat → u < 8 → t.pbit (8 * j + u) =
      (if j < s.textLen.toNat then s.byteAt (0x2400 + j) else 0x03#8).getLsbD (7 - u)) ∧
    (∀ j, j ≤ s.textLen.toNat → t.byteAt (0x2000 + j) =
      if j < s.textLen.toNat then s.byteAt (0x2400 + j) else 0x03#8) ∧
    sameBytesOutside s t 0x2000 (s.textLen.toNat + 1)

/-- DESER with PAYLOAD_LEN ≤ 4096: text byte j holds the payload bits BIT_OFFSET + 8j on, the first most
significant; BYTE_COUNT is the number of whole bytes; no other byte and no other register changes
(44_payload R181). -/
def Obligations.DeserResult : Prop :=
  ∀ s : State, s.payloadLen.toNat ≤ 4096 → ∃ t, exec .deser s = .next t ∧
    t = { Spec.completed s .none false false with mem := t.mem, byteCount := t.byteCount } ∧
    t.byteCount.toNat = (s.payloadLen.toNat - s.bitOffset.toNat) / 8 ∧
    (∀ j u, j < t.byteCount.toNat → u < 8 →
      (t.byteAt (0x2400 + j)).getLsbD (7 - u) = s.pbit (s.bitOffset.toNat + 8 * j + u)) ∧
    sameBytesOutside s t 0x2400 t.byteCount.toNat

/-- SER and then DESER at bit offset 0 leaves the text as it was, with the ETX after it and BYTE_COUNT one
more than TEXT_LEN (44_payload R182). -/
def Obligations.SerThenDeserReturnsTheText : Prop :=
  ∀ s : State, s.textLen.toNat ≤ 511 → s.bitOffset = 0#3 →
    ∃ a t, exec .ser s = .next a ∧ exec .deser a = .next t ∧
      (∀ j, j < s.textLen.toNat → t.byteAt (0x2400 + j) = s.byteAt (0x2400 + j)) ∧
      t.byteAt (0x2400 + s.textLen.toNat) = 0x03#8 ∧
      t.byteCount.toNat = s.textLen.toNat + 1

/-! ### Properties of the search and of the tilings -/

/-- The coarse stage keeps the first hypothesis of maximum energy: none of the 64 has more, and each one
evaluated before it has less (42_search R147). -/
def Obligations.CoarseStageKeepsTheFirstMaximum : Prop :=
  ∀ s : State, Spec.imageOk s →
    coarseHyps.length = 64 ∧ ∃ before after, ∃ best : Scored,
      best = coarseStage s.rgbAt s.width s.height ∧
      coarseHyps = before ++ best.hyp :: after ∧
      best.energy = (Spec.scored s best.hyp).2 ∧
      (∀ h ∈ coarseHyps, flt best.energy (Spec.scored s h).2 = false) ∧
      ∀ h ∈ before, flt (Spec.scored s h).2 best.energy = true

/-- SEARCH with a valid image reports NoSignalDetected exactly when none of the hypotheses it evaluates,
the 64 coarse ones and the 8 neighbours of the best of them, has an energy above FLOOR (42_search R150). -/
def Obligations.NoSignalMeansNoneAboveFloor : Prop :=
  ∀ s : State, Spec.imageOk s → ∃ t, exec .search s = .next t ∧
    (t.status.code = .noSignalDetected ↔
      ∀ h ∈ coarseHyps ++ neighbours (coarseStage s.rgbAt s.width s.height).hyp,
        flt s.floor (Spec.scored s h).2 = false)

/-- The neighbours of the refinement are the 8 offsets at Chebyshev distance 1, modulo 8, at the same
rotation, so a search evaluates 72 hypotheses, all with offsets below 8 (42_search R148, R152). -/
def Obligations.SearchEvaluates72Hypotheses : Prop :=
  ∀ c : Hyp, c.ox < 8 → c.oy < 8 →
    (coarseHyps ++ neighbours c).length = 72 ∧ (neighbours c).Nodup ∧
    (∀ h, h ∈ neighbours c ↔ h.rot = c.rot ∧ h.ox < 8 ∧ h.oy < 8 ∧ h ≠ c ∧
      (h.ox = c.ox ∨ h.ox = (c.ox + 1) % 8 ∨ c.ox = (h.ox + 1) % 8) ∧
      (h.oy = c.oy ∨ h.oy = (c.oy + 1) % 8 ∨ c.oy = (h.oy + 1) % 8)) ∧
    ∀ h, h ∈ coarseHyps ↔ h.ox < 8 ∧ h.oy < 8 ∧ h.ox % 2 = 0 ∧ h.oy % 2 = 0

/-- The blocks that `Energy` samples are those that lie fully inside the image, and at stride 8 they are
the blocks of the full-decode scan, as many along each axis (42_search R145; 43_vote R162). -/
def Obligations.SampledBlocksAreThoseInside : Prop :=
  (∀ size o stride i, 0 < stride → (i < samples size o stride ↔ o + stride * i + 8 ≤ size)) ∧
  ∀ size o, samples size o 8 = gridBlocks size o

/-- `Remap` sends the received grid of bw × bh blocks one-to-one into the original grid, which is bh × bw
blocks for 90° and 270° (43_vote R161). -/
def Obligations.RemapIsOneToOneIntoTheGrid : Prop :=
  ∀ (rot : Rotation) (bw bh : Nat), ∀ x y x' y', x < bw → y < bh → x' < bw → y' < bh →
    (rot = .deg0 ∨ rot = .deg180 → (remap bw bh rot x y).1 < bw ∧ (remap bw bh rot x y).2 < bh) ∧
    (rot = .deg90 ∨ rot = .deg270 → (remap bw bh rot x y).1 < bh ∧ (remap bw bh rot x y).2 < bw) ∧
    remap bw bh rot x y = (Spec.remapX rot bw bh x y, Spec.remapY rot bw bh x y) ∧
    (remap bw bh rot x y = remap bw bh rot x' y' → x = x' ∧ y = y')

/-- The index of the encoder is below L whenever EMBED accepts its parameters; the index of the decoder is
below 4096 in flat mode and below W·W in square mode; in square mode the two agree, and in flat mode the
encoder's is the decoder's modulo L (41_embed R121; 43_vote R160, R168). -/
def Obligations.TilingIndicesAreInRange : Prop :=
  (∀ s : State, Spec.embedOk s → ∀ bx by',
    encIndex s.payloadLen.toNat s.sqw.toNat bx by' < s.payloadLen.toNat) ∧
  (∀ x y, decIndex 0 x y < 4096) ∧
  (∀ sqw x y, 0 < sqw → decIndex sqw x y < sqw * sqw ∧ ∀ len, encIndex len sqw x y = decIndex sqw x y) ∧
  ∀ len x y, encIndex len 0 x y = decIndex 0 x y % len

/-- Every value that a command derives from pixel bytes is finite, whatever the bytes and the registers
are: a luma, a coefficient of a loaded block, a block difference, the energy of a hypothesis, the sums in V;
and of EMBED the coefficients C', the delta of a pixel and the sum that a pixel update rounds
(40_transform R101, R110; 41_embed R120 to R125; 42_search R144; log entry 4 rests on the last). -/
def Obligations.ValuesFromPixelsAreFinite : Prop :=
  ∀ s : State,
    (∀ x y, Spec.isFinite (Spec.lumaAt s x y)) ∧
    (∀ rot x0 y0 u v, u < 8 → v < 8 → Spec.isFinite (Spec.fdctCoeff (Spec.loaded s rot x0 y0) u v)) ∧
    (∀ rot x0 y0, Spec.isFinite (Spec.diffAt s rot x0 y0)) ∧
    (∀ rot ox oy stride, 0 < stride → Spec.isFinite (Spec.energyLoop s rot ox oy stride).1) ∧
    (∀ rot ox oy k, Spec.isFinite (Spec.votedSum s rot ox oy k)) ∧
    (∀ bx by' k, k < 64 → Spec.isFinite (Spec.markedCoeff s bx by' k)) ∧
    ∀ bx by' lx ly, lx < 8 → ly < 8 → Spec.isFinite (Spec.pixelDelta s bx by' lx ly) ∧
      ∀ v : Byte, Spec.isFinite (fadd (fofNat v.toNat) (Spec.pixelDelta s bx by' lx ly))

/-- Loading a block at a rotation half a turn further gives the block turned half a turn: entry `k` is
entry 63 − k (42_search R151). -/
def Obligations.HalfTurnReversesALoadedBlock : Prop :=
  ∀ (px : Nat → Nat → Rgb) (x0 y0 : Nat) (rot half : Rotation), half.code = rot.code + 2#2 →
    ∀ k, k < 64 → entry (loadBlock px x0 y0 half) k = entry (loadBlock px x0 y0 rot) (63 - k)

/-- VOTE at rotation 0 and offset (0, 0) visits exactly the blocks of the embedding grid, loads each as
EMBED does, and votes at the decoder's index of the block (43_vote R167, R162; 41_embed R125, R126). -/
def Obligations.VoteAtTheOriginVisitsTheEmbeddingGrid : Prop :=
  (∀ size, gridBlocks size 0 = size / 8) ∧
  (∀ (px : Nat → Nat → Rgb) (bx by' : Nat),
    loadBlock px (0 + 8 * bx) (0 + 8 * by') .deg0 = lumaBlock px (8 * bx) (8 * by')) ∧
  ∀ w h sqw bx by', voteIndex w h sqw ⟨.deg0, 0, 0⟩ bx by' = decIndex sqw bx by'
end

