-- ==== Sys2Proof/Laws/Memory.lean ====
section
/-! SUPPORT. The one write operation and the one read operation of storage: what a read after a write
gives, and that a write keeps the canonical form. -/

namespace Sys2Proof.Machine

/-! ### Lists of cells -/

theorem mem_cellsFrom {a : Nat} {vs : List Byte} {c : Host.Cell} (h : c ∈ cellsFrom a vs) :
    a ≤ c.1 ∧ c.1 < a + vs.length := by
  induction vs generalizing a with
  | nil => cases h
  | cons v vs ih =>
    rcases List.mem_cons.mp h with rfl | h
    · simp
    · have := ih h
      simp only [List.length_cons]
      omega

theorem cellsFrom_wf (a : Nat) (vs : List Byte) : (cellsFrom a vs).wf := by
  induction vs generalizing a with
  | nil => exact List.Pairwise.nil
  | cons v vs ih => exact List.Pairwise.cons (fun c hc => (mem_cellsFrom hc).1) (ih (a + 1))

theorem Memory.read?_append (m n : Memory) (x : Nat) :
    Memory.read? (m ++ n) x = (Memory.read? m x).or (Memory.read? n x) := by
  induction m with
  | nil => simp [Memory.read?]
  | cons c m ih =>
    obtain ⟨b, v⟩ := c
    by_cases hb : b = x <;> simp [Memory.read?, hb, ih]

theorem Memory.read?_filter (m : Memory) (p : Nat → Bool) (x : Nat) :
    Memory.read? (m.filter fun c => p c.1) x = if p x then Memory.read? m x else none := by
  induction m with
  | nil => simp [Memory.read?]
  | cons c m ih =>
    obtain ⟨b, v⟩ := c
    by_cases hp : p b <;> by_cases hb : b = x
    · subst hb; simp [Memory.read?, hp]
    · simp [Memory.read?, hp, hb, ih]
    · subst hb; simp [hp, ih]
    · simp [Memory.read?, hp, hb, ih]

theorem Memory.read?_cellsFrom (a : Nat) (vs : List Byte) (x : Nat) :
    Memory.read? (cellsFrom a vs) x = if a ≤ x then vs[x - a]? else none := by
  induction vs generalizing a with
  | nil => simp [cellsFrom, Memory.read?]
  | cons v vs ih =>
    simp only [cellsFrom, Memory.read?, ih]
    by_cases h : a = x
    · subst h; simp
    · by_cases hle : a ≤ x
      · obtain ⟨k, rfl⟩ : ∃ k, x = a + k + 1 := ⟨x - a - 1, by omega⟩
        simp [h, show a + 1 ≤ a + k + 1 by omega, show a ≤ a + k + 1 by omega,
          show a + k + 1 - (a + 1) = k by omega, show a + k + 1 - a = k + 1 by omega]
      · simp [h, hle, show ¬ a + 1 ≤ x by omega]

/-! ### Read after write -/

/-- A read after a write: the bytes written where they were written, the old value elsewhere. -/
theorem Memory.read?_write (m : Memory) (a : Nat) (vs : List Byte) (x : Nat) :
    Memory.read? (m.write a vs) x
      = if a ≤ x ∧ x < a + vs.length then vs[x - a]? else Memory.read? m x := by
  rw [Memory.write, Memory.read?_append, Memory.read?_append,
    Memory.read?_filter m (fun c => decide (c < a)),
    Memory.read?_filter m (fun c => decide (a + vs.length ≤ c)), Memory.read?_cellsFrom]
  by_cases h1 : x < a
  · simp [h1, show ¬ a ≤ x by omega, show ¬ a + vs.length ≤ x by omega]
  · by_cases h2 : a + vs.length ≤ x
    · have h3 : vs[x - a]? = none := List.getElem?_eq_none (by omega)
      simp [h1, h2, show a ≤ x by omega, h3]
    · obtain ⟨v, hv⟩ : ∃ v, vs[x - a]? = some v :=
        ⟨vs[x - a]'(by omega), List.getElem?_eq_getElem (by omega)⟩
      simp [h1, show a ≤ x by omega, show x < a + vs.length by omega, hv]

/-- An entry after a write was listed before, or lies where the write went. -/
theorem Memory.mem_write {m : Memory} {a : Nat} {vs : List Byte} {c : Host.Cell}
    (h : c ∈ m.write a vs) : c ∈ m ∨ a ≤ c.1 ∧ c.1 < a + vs.length := by
  simp only [Memory.write, List.mem_append, List.mem_filter] at h
  rcases h with (h | h) | h
  · exact .inl h.1
  · exact .inr (mem_cellsFrom h)
  · exact .inl h.1

/-- A write keeps the canonical form. -/
theorem Memory.wf_write {m : Memory} (h : m.wf) (a : Nat) (vs : List Byte) : (m.write a vs).wf := by
  refine List.pairwise_append.mpr ⟨List.pairwise_append.mpr ⟨h.filter _, cellsFrom_wf a vs, ?_⟩,
    h.filter _, ?_⟩
  · intro c hc d hd
    have h1 := (List.mem_filter.mp hc).2
    have h2 := mem_cellsFrom hd
    simp only [decide_eq_true_eq] at h1
    omega
  · intro c hc d hd
    have h2 := (List.mem_filter.mp hd).2
    simp only [decide_eq_true_eq] at h2
    rcases List.mem_append.mp hc with hc | hc
    · have h1 := (List.mem_filter.mp hc).2
      simp only [decide_eq_true_eq] at h1
      omega
    · have h1 := mem_cellsFrom hc
      omega

/-! ### The bytes of a state -/

/-- A byte after a store. -/
theorem State.byteAt_store (s : State) (off : Nat) (vs : List Byte) (x : Nat) :
    (s.store off vs).byteAt x
      = if off ≤ x ∧ x < off + vs.length then vs.getD (x - off) 0#8 else s.byteAt x := by
  simp only [State.byteAt, State.store, Memory.read?_write]
  by_cases h : off ≤ x ∧ x < off + vs.length
  · have hlt : x - off < vs.length := by omega
    simp [h, List.getElem?_eq_getElem hlt]
  · simp only [h, if_false]

/-- A byte outside the stored bytes is unchanged. -/
theorem State.byteAt_store_of_outside {s : State} {off : Nat} {vs : List Byte} {x : Nat}
    (h : x < off ∨ off + vs.length ≤ x) : (s.store off vs).byteAt x = s.byteAt x := by
  rw [State.byteAt_store, if_neg (by omega)]

/-- A stored byte reads back. -/
theorem State.byteAt_store_of_inside {s : State} {off : Nat} {vs : List Byte} {i : Nat}
    (h : i < vs.length) : (s.store off vs).byteAt (off + i) = vs[i] := by
  rw [State.byteAt_store, if_pos (by omega)]
  simp [h]

/-- What a byte reads depends on the listed bytes and on how often the engine was reset, on nothing else. -/
theorem State.byteAt_congr {s t : State} (hm : t.mem = s.mem) (hr : t.resets = s.resets) :
    t.byteAt = s.byteAt := by
  funext x
  simp [State.byteAt, hm, hr]

end Sys2Proof.Machine
end

