-- ==== Sys2Proof/Laws/State.lean ====
section
/-! SUPPORT. What each named update leaves in each field of the state, and which readers it does not
change. All are true by unfolding the update once; later proofs use them and unfold no update. -/

namespace Sys2Proof.Machine

variable (s : State)

/-! ### store -/

@[simp] theorem State.store_cmd (off : Nat) (vs : List Byte) : (s.store off vs).cmd = s.cmd := rfl
@[simp] theorem State.store_status (off : Nat) (vs : List Byte) : (s.store off vs).status = s.status := rfl
@[simp] theorem State.store_imgW (off : Nat) (vs : List Byte) : (s.store off vs).imgW = s.imgW := rfl
@[simp] theorem State.store_imgH (off : Nat) (vs : List Byte) : (s.store off vs).imgH = s.imgH := rfl
@[simp] theorem State.store_strength (off : Nat) (vs : List Byte) : (s.store off vs).strength = s.strength := rfl
@[simp] theorem State.store_sqw (off : Nat) (vs : List Byte) : (s.store off vs).sqw = s.sqw := rfl
@[simp] theorem State.store_payloadLen (off : Nat) (vs : List Byte) : (s.store off vs).payloadLen = s.payloadLen := rfl
@[simp] theorem State.store_bitOffset (off : Nat) (vs : List Byte) : (s.store off vs).bitOffset = s.bitOffset := rfl
@[simp] theorem State.store_textLen (off : Nat) (vs : List Byte) : (s.store off vs).textLen = s.textLen := rfl
@[simp] theorem State.store_blkPos (off : Nat) (vs : List Byte) : (s.store off vs).blkPos = s.blkPos := rfl
@[simp] theorem State.store_result (off : Nat) (vs : List Byte) : (s.store off vs).result = s.result := rfl
@[simp] theorem State.store_blocks (off : Nat) (vs : List Byte) : (s.store off vs).blocks = s.blocks := rfl
@[simp] theorem State.store_conf (off : Nat) (vs : List Byte) : (s.store off vs).conf = s.conf := rfl
@[simp] theorem State.store_energy (off : Nat) (vs : List Byte) : (s.store off vs).energy = s.energy := rfl
@[simp] theorem State.store_ecount (off : Nat) (vs : List Byte) : (s.store off vs).ecount = s.ecount := rfl
@[simp] theorem State.store_byteCount (off : Nat) (vs : List Byte) : (s.store off vs).byteCount = s.byteCount := rfl
@[simp] theorem State.store_floor (off : Nat) (vs : List Byte) : (s.store off vs).floor = s.floor := rfl
@[simp] theorem State.store_doneIe (off : Nat) (vs : List Byte) : (s.store off vs).doneIe = s.doneIe := rfl
@[simp] theorem State.store_doneIp (off : Nat) (vs : List Byte) : (s.store off vs).doneIp = s.doneIp := rfl
@[simp] theorem State.store_mem (off : Nat) (vs : List Byte) : (s.store off vs).mem = s.mem.write off vs := rfl
@[simp] theorem State.store_turns (off : Nat) (vs : List Byte) : (s.store off vs).turns = s.turns := rfl
@[simp] theorem State.store_reply (off : Nat) (vs : List Byte) : (s.store off vs).reply = s.reply := rfl
@[simp] theorem State.store_resets (off : Nat) (vs : List Byte) : (s.store off vs).resets = s.resets := rfl
@[simp] theorem State.store_draws (off : Nat) (vs : List Byte) : (s.store off vs).draws = s.draws := rfl

/-! ### complete -/

@[simp] theorem State.complete_cmd (c : Code) (e w : Bool) : (s.complete c e w).cmd = s.cmd := rfl
@[simp] theorem State.complete_status (c : Code) (e w : Bool) : (s.complete c e w).status = { s.status with busy := false, done := true, err := e, warn := w, code := c } := rfl
@[simp] theorem State.complete_imgW (c : Code) (e w : Bool) : (s.complete c e w).imgW = s.imgW := rfl
@[simp] theorem State.complete_imgH (c : Code) (e w : Bool) : (s.complete c e w).imgH = s.imgH := rfl
@[simp] theorem State.complete_strength (c : Code) (e w : Bool) : (s.complete c e w).strength = s.strength := rfl
@[simp] theorem State.complete_sqw (c : Code) (e w : Bool) : (s.complete c e w).sqw = s.sqw := rfl
@[simp] theorem State.complete_payloadLen (c : Code) (e w : Bool) : (s.complete c e w).payloadLen = s.payloadLen := rfl
@[simp] theorem State.complete_bitOffset (c : Code) (e w : Bool) : (s.complete c e w).bitOffset = s.bitOffset := rfl
@[simp] theorem State.complete_textLen (c : Code) (e w : Bool) : (s.complete c e w).textLen = s.textLen := rfl
@[simp] theorem State.complete_blkPos (c : Code) (e w : Bool) : (s.complete c e w).blkPos = s.blkPos := rfl
@[simp] theorem State.complete_result (c : Code) (e w : Bool) : (s.complete c e w).result = s.result := rfl
@[simp] theorem State.complete_blocks (c : Code) (e w : Bool) : (s.complete c e w).blocks = s.blocks := rfl
@[simp] theorem State.complete_conf (c : Code) (e w : Bool) : (s.complete c e w).conf = s.conf := rfl
@[simp] theorem State.complete_energy (c : Code) (e w : Bool) : (s.complete c e w).energy = s.energy := rfl
@[simp] theorem State.complete_ecount (c : Code) (e w : Bool) : (s.complete c e w).ecount = s.ecount := rfl
@[simp] theorem State.complete_byteCount (c : Code) (e w : Bool) : (s.complete c e w).byteCount = s.byteCount := rfl
@[simp] theorem State.complete_floor (c : Code) (e w : Bool) : (s.complete c e w).floor = s.floor := rfl
@[simp] theorem State.complete_doneIe (c : Code) (e w : Bool) : (s.complete c e w).doneIe = s.doneIe := rfl
@[simp] theorem State.complete_doneIp (c : Code) (e w : Bool) : (s.complete c e w).doneIp = true := rfl
@[simp] theorem State.complete_mem (c : Code) (e w : Bool) : (s.complete c e w).mem = s.mem := rfl
@[simp] theorem State.complete_turns (c : Code) (e w : Bool) : (s.complete c e w).turns = s.turns := rfl
@[simp] theorem State.complete_reply (c : Code) (e w : Bool) : (s.complete c e w).reply = s.reply := rfl
@[simp] theorem State.complete_resets (c : Code) (e w : Bool) : (s.complete c e w).resets = s.resets := rfl
@[simp] theorem State.complete_draws (c : Code) (e w : Bool) : (s.complete c e w).draws = s.draws := rfl

/-! ### accept -/

@[simp] theorem State.accept_cmd (w : Word) : (s.accept w).cmd = w := rfl
@[simp] theorem State.accept_status (w : Word) : (s.accept w).status = Status.accepted := rfl
@[simp] theorem State.accept_imgW (w : Word) : (s.accept w).imgW = s.imgW := rfl
@[simp] theorem State.accept_imgH (w : Word) : (s.accept w).imgH = s.imgH := rfl
@[simp] theorem State.accept_strength (w : Word) : (s.accept w).strength = s.strength := rfl
@[simp] theorem State.accept_sqw (w : Word) : (s.accept w).sqw = s.sqw := rfl
@[simp] theorem State.accept_payloadLen (w : Word) : (s.accept w).payloadLen = s.payloadLen := rfl
@[simp] theorem State.accept_bitOffset (w : Word) : (s.accept w).bitOffset = s.bitOffset := rfl
@[simp] theorem State.accept_textLen (w : Word) : (s.accept w).textLen = s.textLen := rfl
@[simp] theorem State.accept_blkPos (w : Word) : (s.accept w).blkPos = s.blkPos := rfl
@[simp] theorem State.accept_result (w : Word) : (s.accept w).result = s.result := rfl
@[simp] theorem State.accept_blocks (w : Word) : (s.accept w).blocks = s.blocks := rfl
@[simp] theorem State.accept_conf (w : Word) : (s.accept w).conf = s.conf := rfl
@[simp] theorem State.accept_energy (w : Word) : (s.accept w).energy = s.energy := rfl
@[simp] theorem State.accept_ecount (w : Word) : (s.accept w).ecount = s.ecount := rfl
@[simp] theorem State.accept_byteCount (w : Word) : (s.accept w).byteCount = s.byteCount := rfl
@[simp] theorem State.accept_floor (w : Word) : (s.accept w).floor = s.floor := rfl
@[simp] theorem State.accept_doneIe (w : Word) : (s.accept w).doneIe = s.doneIe := rfl
@[simp] theorem State.accept_doneIp (w : Word) : (s.accept w).doneIp = s.doneIp := rfl
@[simp] theorem State.accept_mem (w : Word) : (s.accept w).mem = s.mem := rfl
@[simp] theorem State.accept_turns (w : Word) : (s.accept w).turns = s.turns := rfl
@[simp] theorem State.accept_reply (w : Word) : (s.accept w).reply = s.reply := rfl
@[simp] theorem State.accept_resets (w : Word) : (s.accept w).resets = s.resets := rfl
@[simp] theorem State.accept_draws (w : Word) : (s.accept w).draws = s.draws := rfl

/-! ### clearIrq -/

@[simp] theorem State.clearIrq_cmd (w : Word) : (s.clearIrq w).cmd = s.cmd := rfl
@[simp] theorem State.clearIrq_status (w : Word) : (s.clearIrq w).status = s.status := rfl
@[simp] theorem State.clearIrq_imgW (w : Word) : (s.clearIrq w).imgW = s.imgW := rfl
@[simp] theorem State.clearIrq_imgH (w : Word) : (s.clearIrq w).imgH = s.imgH := rfl
@[simp] theorem State.clearIrq_strength (w : Word) : (s.clearIrq w).strength = s.strength := rfl
@[simp] theorem State.clearIrq_sqw (w : Word) : (s.clearIrq w).sqw = s.sqw := rfl
@[simp] theorem State.clearIrq_payloadLen (w : Word) : (s.clearIrq w).payloadLen = s.payloadLen := rfl
@[simp] theorem State.clearIrq_bitOffset (w : Word) : (s.clearIrq w).bitOffset = s.bitOffset := rfl
@[simp] theorem State.clearIrq_textLen (w : Word) : (s.clearIrq w).textLen = s.textLen := rfl
@[simp] theorem State.clearIrq_blkPos (w : Word) : (s.clearIrq w).blkPos = s.blkPos := rfl
@[simp] theorem State.clearIrq_result (w : Word) : (s.clearIrq w).result = s.result := rfl
@[simp] theorem State.clearIrq_blocks (w : Word) : (s.clearIrq w).blocks = s.blocks := rfl
@[simp] theorem State.clearIrq_conf (w : Word) : (s.clearIrq w).conf = s.conf := rfl
@[simp] theorem State.clearIrq_energy (w : Word) : (s.clearIrq w).energy = s.energy := rfl
@[simp] theorem State.clearIrq_ecount (w : Word) : (s.clearIrq w).ecount = s.ecount := rfl
@[simp] theorem State.clearIrq_byteCount (w : Word) : (s.clearIrq w).byteCount = s.byteCount := rfl
@[simp] theorem State.clearIrq_floor (w : Word) : (s.clearIrq w).floor = s.floor := rfl
@[simp] theorem State.clearIrq_doneIe (w : Word) : (s.clearIrq w).doneIe = s.doneIe := rfl
@[simp] theorem State.clearIrq_doneIp (w : Word) : (s.clearIrq w).doneIp = (s.doneIp && !w.getLsbD 0) := rfl
@[simp] theorem State.clearIrq_mem (w : Word) : (s.clearIrq w).mem = s.mem := rfl
@[simp] theorem State.clearIrq_turns (w : Word) : (s.clearIrq w).turns = s.turns := rfl
@[simp] theorem State.clearIrq_reply (w : Word) : (s.clearIrq w).reply = s.reply := rfl
@[simp] theorem State.clearIrq_resets (w : Word) : (s.clearIrq w).resets = s.resets := rfl
@[simp] theorem State.clearIrq_draws (w : Word) : (s.clearIrq w).draws = s.draws := rfl

/-! ### reject -/

@[simp] theorem State.reject_cmd : (s.reject).cmd = s.cmd := rfl
@[simp] theorem State.reject_status : (s.reject).status = { s.status with rej := true } := rfl
@[simp] theorem State.reject_imgW : (s.reject).imgW = s.imgW := rfl
@[simp] theorem State.reject_imgH : (s.reject).imgH = s.imgH := rfl
@[simp] theorem State.reject_strength : (s.reject).strength = s.strength := rfl
@[simp] theorem State.reject_sqw : (s.reject).sqw = s.sqw := rfl
@[simp] theorem State.reject_payloadLen : (s.reject).payloadLen = s.payloadLen := rfl
@[simp] theorem State.reject_bitOffset : (s.reject).bitOffset = s.bitOffset := rfl
@[simp] theorem State.reject_textLen : (s.reject).textLen = s.textLen := rfl
@[simp] theorem State.reject_blkPos : (s.reject).blkPos = s.blkPos := rfl
@[simp] theorem State.reject_result : (s.reject).result = s.result := rfl
@[simp] theorem State.reject_blocks : (s.reject).blocks = s.blocks := rfl
@[simp] theorem State.reject_conf : (s.reject).conf = s.conf := rfl
@[simp] theorem State.reject_energy : (s.reject).energy = s.energy := rfl
@[simp] theorem State.reject_ecount : (s.reject).ecount = s.ecount := rfl
@[simp] theorem State.reject_byteCount : (s.reject).byteCount = s.byteCount := rfl
@[simp] theorem State.reject_floor : (s.reject).floor = s.floor := rfl
@[simp] theorem State.reject_doneIe : (s.reject).doneIe = s.doneIe := rfl
@[simp] theorem State.reject_doneIp : (s.reject).doneIp = s.doneIp := rfl
@[simp] theorem State.reject_mem : (s.reject).mem = s.mem := rfl
@[simp] theorem State.reject_turns : (s.reject).turns = s.turns := rfl
@[simp] theorem State.reject_reply : (s.reject).reply = s.reply := rfl
@[simp] theorem State.reject_resets : (s.reject).resets = s.resets := rfl
@[simp] theorem State.reject_draws : (s.reject).draws = s.draws := rfl

/-! ### setPayloadLen -/

@[simp] theorem State.setPayloadLen_cmd (n : Nat) : (s.setPayloadLen n).cmd = s.cmd := rfl
@[simp] theorem State.setPayloadLen_status (n : Nat) : (s.setPayloadLen n).status = s.status := rfl
@[simp] theorem State.setPayloadLen_imgW (n : Nat) : (s.setPayloadLen n).imgW = s.imgW := rfl
@[simp] theorem State.setPayloadLen_imgH (n : Nat) : (s.setPayloadLen n).imgH = s.imgH := rfl
@[simp] theorem State.setPayloadLen_strength (n : Nat) : (s.setPayloadLen n).strength = s.strength := rfl
@[simp] theorem State.setPayloadLen_sqw (n : Nat) : (s.setPayloadLen n).sqw = s.sqw := rfl
@[simp] theorem State.setPayloadLen_payloadLen (n : Nat) : (s.setPayloadLen n).payloadLen = BitVec.ofNat 13 n := rfl
@[simp] theorem State.setPayloadLen_bitOffset (n : Nat) : (s.setPayloadLen n).bitOffset = s.bitOffset := rfl
@[simp] theorem State.setPayloadLen_textLen (n : Nat) : (s.setPayloadLen n).textLen = s.textLen := rfl
@[simp] theorem State.setPayloadLen_blkPos (n : Nat) : (s.setPayloadLen n).blkPos = s.blkPos := rfl
@[simp] theorem State.setPayloadLen_result (n : Nat) : (s.setPayloadLen n).result = s.result := rfl
@[simp] theorem State.setPayloadLen_blocks (n : Nat) : (s.setPayloadLen n).blocks = s.blocks := rfl
@[simp] theorem State.setPayloadLen_conf (n : Nat) : (s.setPayloadLen n).conf = s.conf := rfl
@[simp] theorem State.setPayloadLen_energy (n : Nat) : (s.setPayloadLen n).energy = s.energy := rfl
@[simp] theorem State.setPayloadLen_ecount (n : Nat) : (s.setPayloadLen n).ecount = s.ecount := rfl
@[simp] theorem State.setPayloadLen_byteCount (n : Nat) : (s.setPayloadLen n).byteCount = s.byteCount := rfl
@[simp] theorem State.setPayloadLen_floor (n : Nat) : (s.setPayloadLen n).floor = s.floor := rfl
@[simp] theorem State.setPayloadLen_doneIe (n : Nat) : (s.setPayloadLen n).doneIe = s.doneIe := rfl
@[simp] theorem State.setPayloadLen_doneIp (n : Nat) : (s.setPayloadLen n).doneIp = s.doneIp := rfl
@[simp] theorem State.setPayloadLen_mem (n : Nat) : (s.setPayloadLen n).mem = s.mem := rfl
@[simp] theorem State.setPayloadLen_turns (n : Nat) : (s.setPayloadLen n).turns = s.turns := rfl
@[simp] theorem State.setPayloadLen_reply (n : Nat) : (s.setPayloadLen n).reply = s.reply := rfl
@[simp] theorem State.setPayloadLen_resets (n : Nat) : (s.setPayloadLen n).resets = s.resets := rfl
@[simp] theorem State.setPayloadLen_draws (n : Nat) : (s.setPayloadLen n).draws = s.draws := rfl

/-! ### setBlocks -/

@[simp] theorem State.setBlocks_cmd (n : Nat) : (s.setBlocks n).cmd = s.cmd := rfl
@[simp] theorem State.setBlocks_status (n : Nat) : (s.setBlocks n).status = s.status := rfl
@[simp] theorem State.setBlocks_imgW (n : Nat) : (s.setBlocks n).imgW = s.imgW := rfl
@[simp] theorem State.setBlocks_imgH (n : Nat) : (s.setBlocks n).imgH = s.imgH := rfl
@[simp] theorem State.setBlocks_strength (n : Nat) : (s.setBlocks n).strength = s.strength := rfl
@[simp] theorem State.setBlocks_sqw (n : Nat) : (s.setBlocks n).sqw = s.sqw := rfl
@[simp] theorem State.setBlocks_payloadLen (n : Nat) : (s.setBlocks n).payloadLen = s.payloadLen := rfl
@[simp] theorem State.setBlocks_bitOffset (n : Nat) : (s.setBlocks n).bitOffset = s.bitOffset := rfl
@[simp] theorem State.setBlocks_textLen (n : Nat) : (s.setBlocks n).textLen = s.textLen := rfl
@[simp] theorem State.setBlocks_blkPos (n : Nat) : (s.setBlocks n).blkPos = s.blkPos := rfl
@[simp] theorem State.setBlocks_result (n : Nat) : (s.setBlocks n).result = s.result := rfl
@[simp] theorem State.setBlocks_blocks (n : Nat) : (s.setBlocks n).blocks = BitVec.ofNat 32 n := rfl
@[simp] theorem State.setBlocks_conf (n : Nat) : (s.setBlocks n).conf = s.conf := rfl
@[simp] theorem State.setBlocks_energy (n : Nat) : (s.setBlocks n).energy = s.energy := rfl
@[simp] theorem State.setBlocks_ecount (n : Nat) : (s.setBlocks n).ecount = s.ecount := rfl
@[simp] theorem State.setBlocks_byteCount (n : Nat) : (s.setBlocks n).byteCount = s.byteCount := rfl
@[simp] theorem State.setBlocks_floor (n : Nat) : (s.setBlocks n).floor = s.floor := rfl
@[simp] theorem State.setBlocks_doneIe (n : Nat) : (s.setBlocks n).doneIe = s.doneIe := rfl
@[simp] theorem State.setBlocks_doneIp (n : Nat) : (s.setBlocks n).doneIp = s.doneIp := rfl
@[simp] theorem State.setBlocks_mem (n : Nat) : (s.setBlocks n).mem = s.mem := rfl
@[simp] theorem State.setBlocks_turns (n : Nat) : (s.setBlocks n).turns = s.turns := rfl
@[simp] theorem State.setBlocks_reply (n : Nat) : (s.setBlocks n).reply = s.reply := rfl
@[simp] theorem State.setBlocks_resets (n : Nat) : (s.setBlocks n).resets = s.resets := rfl
@[simp] theorem State.setBlocks_draws (n : Nat) : (s.setBlocks n).draws = s.draws := rfl

/-! ### setByteCount -/

@[simp] theorem State.setByteCount_cmd (n : Nat) : (s.setByteCount n).cmd = s.cmd := rfl
@[simp] theorem State.setByteCount_status (n : Nat) : (s.setByteCount n).status = s.status := rfl
@[simp] theorem State.setByteCount_imgW (n : Nat) : (s.setByteCount n).imgW = s.imgW := rfl
@[simp] theorem State.setByteCount_imgH (n : Nat) : (s.setByteCount n).imgH = s.imgH := rfl
@[simp] theorem State.setByteCount_strength (n : Nat) : (s.setByteCount n).strength = s.strength := rfl
@[simp] theorem State.setByteCount_sqw (n : Nat) : (s.setByteCount n).sqw = s.sqw := rfl
@[simp] theorem State.setByteCount_payloadLen (n : Nat) : (s.setByteCount n).payloadLen = s.payloadLen := rfl
@[simp] theorem State.setByteCount_bitOffset (n : Nat) : (s.setByteCount n).bitOffset = s.bitOffset := rfl
@[simp] theorem State.setByteCount_textLen (n : Nat) : (s.setByteCount n).textLen = s.textLen := rfl
@[simp] theorem State.setByteCount_blkPos (n : Nat) : (s.setByteCount n).blkPos = s.blkPos := rfl
@[simp] theorem State.setByteCount_result (n : Nat) : (s.setByteCount n).result = s.result := rfl
@[simp] theorem State.setByteCount_blocks (n : Nat) : (s.setByteCount n).blocks = s.blocks := rfl
@[simp] theorem State.setByteCount_conf (n : Nat) : (s.setByteCount n).conf = s.conf := rfl
@[simp] theorem State.setByteCount_energy (n : Nat) : (s.setByteCount n).energy = s.energy := rfl
@[simp] theorem State.setByteCount_ecount (n : Nat) : (s.setByteCount n).ecount = s.ecount := rfl
@[simp] theorem State.setByteCount_byteCount (n : Nat) : (s.setByteCount n).byteCount = BitVec.ofNat 10 n := rfl
@[simp] theorem State.setByteCount_floor (n : Nat) : (s.setByteCount n).floor = s.floor := rfl
@[simp] theorem State.setByteCount_doneIe (n : Nat) : (s.setByteCount n).doneIe = s.doneIe := rfl
@[simp] theorem State.setByteCount_doneIp (n : Nat) : (s.setByteCount n).doneIp = s.doneIp := rfl
@[simp] theorem State.setByteCount_mem (n : Nat) : (s.setByteCount n).mem = s.mem := rfl
@[simp] theorem State.setByteCount_turns (n : Nat) : (s.setByteCount n).turns = s.turns := rfl
@[simp] theorem State.setByteCount_reply (n : Nat) : (s.setByteCount n).reply = s.reply := rfl
@[simp] theorem State.setByteCount_resets (n : Nat) : (s.setByteCount n).resets = s.resets := rfl
@[simp] theorem State.setByteCount_draws (n : Nat) : (s.setByteCount n).draws = s.draws := rfl

/-! ### setEnergy -/

@[simp] theorem State.setEnergy_cmd (e : F64) (n : Nat) : (s.setEnergy e n).cmd = s.cmd := rfl
@[simp] theorem State.setEnergy_status (e : F64) (n : Nat) : (s.setEnergy e n).status = s.status := rfl
@[simp] theorem State.setEnergy_imgW (e : F64) (n : Nat) : (s.setEnergy e n).imgW = s.imgW := rfl
@[simp] theorem State.setEnergy_imgH (e : F64) (n : Nat) : (s.setEnergy e n).imgH = s.imgH := rfl
@[simp] theorem State.setEnergy_strength (e : F64) (n : Nat) : (s.setEnergy e n).strength = s.strength := rfl
@[simp] theorem State.setEnergy_sqw (e : F64) (n : Nat) : (s.setEnergy e n).sqw = s.sqw := rfl
@[simp] theorem State.setEnergy_payloadLen (e : F64) (n : Nat) : (s.setEnergy e n).payloadLen = s.payloadLen := rfl
@[simp] theorem State.setEnergy_bitOffset (e : F64) (n : Nat) : (s.setEnergy e n).bitOffset = s.bitOffset := rfl
@[simp] theorem State.setEnergy_textLen (e : F64) (n : Nat) : (s.setEnergy e n).textLen = s.textLen := rfl
@[simp] theorem State.setEnergy_blkPos (e : F64) (n : Nat) : (s.setEnergy e n).blkPos = s.blkPos := rfl
@[simp] theorem State.setEnergy_result (e : F64) (n : Nat) : (s.setEnergy e n).result = s.result := rfl
@[simp] theorem State.setEnergy_blocks (e : F64) (n : Nat) : (s.setEnergy e n).blocks = s.blocks := rfl
@[simp] theorem State.setEnergy_conf (e : F64) (n : Nat) : (s.setEnergy e n).conf = s.conf := rfl
@[simp] theorem State.setEnergy_energy (e : F64) (n : Nat) : (s.setEnergy e n).energy = e := rfl
@[simp] theorem State.setEnergy_ecount (e : F64) (n : Nat) : (s.setEnergy e n).ecount = BitVec.ofNat 32 n := rfl
@[simp] theorem State.setEnergy_byteCount (e : F64) (n : Nat) : (s.setEnergy e n).byteCount = s.byteCount := rfl
@[simp] theorem State.setEnergy_floor (e : F64) (n : Nat) : (s.setEnergy e n).floor = s.floor := rfl
@[simp] theorem State.setEnergy_doneIe (e : F64) (n : Nat) : (s.setEnergy e n).doneIe = s.doneIe := rfl
@[simp] theorem State.setEnergy_doneIp (e : F64) (n : Nat) : (s.setEnergy e n).doneIp = s.doneIp := rfl
@[simp] theorem State.setEnergy_mem (e : F64) (n : Nat) : (s.setEnergy e n).mem = s.mem := rfl
@[simp] theorem State.setEnergy_turns (e : F64) (n : Nat) : (s.setEnergy e n).turns = s.turns := rfl
@[simp] theorem State.setEnergy_reply (e : F64) (n : Nat) : (s.setEnergy e n).reply = s.reply := rfl
@[simp] theorem State.setEnergy_resets (e : F64) (n : Nat) : (s.setEnergy e n).resets = s.resets := rfl
@[simp] theorem State.setEnergy_draws (e : F64) (n : Nat) : (s.setEnergy e n).draws = s.draws := rfl

/-! ### setWinner -/

@[simp] theorem State.setWinner_cmd (r : Rotation) (ox oy : Nat) (e : F64) : (s.setWinner r ox oy e).cmd = s.cmd := rfl
@[simp] theorem State.setWinner_status (r : Rotation) (ox oy : Nat) (e : F64) : (s.setWinner r ox oy e).status = s.status := rfl
@[simp] theorem State.setWinner_imgW (r : Rotation) (ox oy : Nat) (e : F64) : (s.setWinner r ox oy e).imgW = s.imgW := rfl
@[simp] theorem State.setWinner_imgH (r : Rotation) (ox oy : Nat) (e : F64) : (s.setWinner r ox oy e).imgH = s.imgH := rfl
@[simp] theorem State.setWinner_strength (r : Rotation) (ox oy : Nat) (e : F64) : (s.setWinner r ox oy e).strength = s.strength := rfl
@[simp] theorem State.setWinner_sqw (r : Rotation) (ox oy : Nat) (e : F64) : (s.setWinner r ox oy e).sqw = s.sqw := rfl
@[simp] theorem State.setWinner_payloadLen (r : Rotation) (ox oy : Nat) (e : F64) : (s.setWinner r ox oy e).payloadLen = s.payloadLen := rfl
@[simp] theorem State.setWinner_bitOffset (r : Rotation) (ox oy : Nat) (e : F64) : (s.setWinner r ox oy e).bitOffset = s.bitOffset := rfl
@[simp] theorem State.setWinner_textLen (r : Rotation) (ox oy : Nat) (e : F64) : (s.setWinner r ox oy e).textLen = s.textLen := rfl
@[simp] theorem State.setWinner_blkPos (r : Rotation) (ox oy : Nat) (e : F64) : (s.setWinner r ox oy e).blkPos = s.blkPos := rfl
@[simp] theorem State.setWinner_result (r : Rotation) (ox oy : Nat) (e : F64) : (s.setWinner r ox oy e).result = { rot := r, ox := BitVec.ofNat 3 ox, oy := BitVec.ofNat 3 oy } := rfl
@[simp] theorem State.setWinner_blocks (r : Rotation) (ox oy : Nat) (e : F64) : (s.setWinner r ox oy e).blocks = s.blocks := rfl
@[simp] theorem State.setWinner_conf (r : Rotation) (ox oy : Nat) (e : F64) : (s.setWinner r ox oy e).conf = e := rfl
@[simp] theorem State.setWinner_energy (r : Rotation) (ox oy : Nat) (e : F64) : (s.setWinner r ox oy e).energy = s.energy := rfl
@[simp] theorem State.setWinner_ecount (r : Rotation) (ox oy : Nat) (e : F64) : (s.setWinner r ox oy e).ecount = s.ecount := rfl
@[simp] theorem State.setWinner_byteCount (r : Rotation) (ox oy : Nat) (e : F64) : (s.setWinner r ox oy e).byteCount = s.byteCount := rfl
@[simp] theorem State.setWinner_floor (r : Rotation) (ox oy : Nat) (e : F64) : (s.setWinner r ox oy e).floor = s.floor := rfl
@[simp] theorem State.setWinner_doneIe (r : Rotation) (ox oy : Nat) (e : F64) : (s.setWinner r ox oy e).doneIe = s.doneIe := rfl
@[simp] theorem State.setWinner_doneIp (r : Rotation) (ox oy : Nat) (e : F64) : (s.setWinner r ox oy e).doneIp = s.doneIp := rfl
@[simp] theorem State.setWinner_mem (r : Rotation) (ox oy : Nat) (e : F64) : (s.setWinner r ox oy e).mem = s.mem := rfl
@[simp] theorem State.setWinner_turns (r : Rotation) (ox oy : Nat) (e : F64) : (s.setWinner r ox oy e).turns = s.turns := rfl
@[simp] theorem State.setWinner_reply (r : Rotation) (ox oy : Nat) (e : F64) : (s.setWinner r ox oy e).reply = s.reply := rfl
@[simp] theorem State.setWinner_resets (r : Rotation) (ox oy : Nat) (e : F64) : (s.setWinner r ox oy e).resets = s.resets := rfl
@[simp] theorem State.setWinner_draws (r : Rotation) (ox oy : Nat) (e : F64) : (s.setWinner r ox oy e).draws = s.draws := rfl

/-! ### popTurn -/

@[simp] theorem State.popTurn_cmd : (s.popTurn).cmd = s.cmd := rfl
@[simp] theorem State.popTurn_status : (s.popTurn).status = s.status := rfl
@[simp] theorem State.popTurn_imgW : (s.popTurn).imgW = s.imgW := rfl
@[simp] theorem State.popTurn_imgH : (s.popTurn).imgH = s.imgH := rfl
@[simp] theorem State.popTurn_strength : (s.popTurn).strength = s.strength := rfl
@[simp] theorem State.popTurn_sqw : (s.popTurn).sqw = s.sqw := rfl
@[simp] theorem State.popTurn_payloadLen : (s.popTurn).payloadLen = s.payloadLen := rfl
@[simp] theorem State.popTurn_bitOffset : (s.popTurn).bitOffset = s.bitOffset := rfl
@[simp] theorem State.popTurn_textLen : (s.popTurn).textLen = s.textLen := rfl
@[simp] theorem State.popTurn_blkPos : (s.popTurn).blkPos = s.blkPos := rfl
@[simp] theorem State.popTurn_result : (s.popTurn).result = s.result := rfl
@[simp] theorem State.popTurn_blocks : (s.popTurn).blocks = s.blocks := rfl
@[simp] theorem State.popTurn_conf : (s.popTurn).conf = s.conf := rfl
@[simp] theorem State.popTurn_energy : (s.popTurn).energy = s.energy := rfl
@[simp] theorem State.popTurn_ecount : (s.popTurn).ecount = s.ecount := rfl
@[simp] theorem State.popTurn_byteCount : (s.popTurn).byteCount = s.byteCount := rfl
@[simp] theorem State.popTurn_floor : (s.popTurn).floor = s.floor := rfl
@[simp] theorem State.popTurn_doneIe : (s.popTurn).doneIe = s.doneIe := rfl
@[simp] theorem State.popTurn_doneIp : (s.popTurn).doneIp = s.doneIp := rfl
@[simp] theorem State.popTurn_mem : (s.popTurn).mem = s.mem := rfl
@[simp] theorem State.popTurn_turns : (s.popTurn).turns = s.turns.tail := rfl
@[simp] theorem State.popTurn_reply : (s.popTurn).reply = none := rfl
@[simp] theorem State.popTurn_resets : (s.popTurn).resets = s.resets := rfl
@[simp] theorem State.popTurn_draws : (s.popTurn).draws = s.draws := rfl

/-! ### answer -/

@[simp] theorem State.answer_cmd (r : Resp) (d : Word) : (s.answer r d).cmd = s.cmd := rfl
@[simp] theorem State.answer_status (r : Resp) (d : Word) : (s.answer r d).status = s.status := rfl
@[simp] theorem State.answer_imgW (r : Resp) (d : Word) : (s.answer r d).imgW = s.imgW := rfl
@[simp] theorem State.answer_imgH (r : Resp) (d : Word) : (s.answer r d).imgH = s.imgH := rfl
@[simp] theorem State.answer_strength (r : Resp) (d : Word) : (s.answer r d).strength = s.strength := rfl
@[simp] theorem State.answer_sqw (r : Resp) (d : Word) : (s.answer r d).sqw = s.sqw := rfl
@[simp] theorem State.answer_payloadLen (r : Resp) (d : Word) : (s.answer r d).payloadLen = s.payloadLen := rfl
@[simp] theorem State.answer_bitOffset (r : Resp) (d : Word) : (s.answer r d).bitOffset = s.bitOffset := rfl
@[simp] theorem State.answer_textLen (r : Resp) (d : Word) : (s.answer r d).textLen = s.textLen := rfl
@[simp] theorem State.answer_blkPos (r : Resp) (d : Word) : (s.answer r d).blkPos = s.blkPos := rfl
@[simp] theorem State.answer_result (r : Resp) (d : Word) : (s.answer r d).result = s.result := rfl
@[simp] theorem State.answer_blocks (r : Resp) (d : Word) : (s.answer r d).blocks = s.blocks := rfl
@[simp] theorem State.answer_conf (r : Resp) (d : Word) : (s.answer r d).conf = s.conf := rfl
@[simp] theorem State.answer_energy (r : Resp) (d : Word) : (s.answer r d).energy = s.energy := rfl
@[simp] theorem State.answer_ecount (r : Resp) (d : Word) : (s.answer r d).ecount = s.ecount := rfl
@[simp] theorem State.answer_byteCount (r : Resp) (d : Word) : (s.answer r d).byteCount = s.byteCount := rfl
@[simp] theorem State.answer_floor (r : Resp) (d : Word) : (s.answer r d).floor = s.floor := rfl
@[simp] theorem State.answer_doneIe (r : Resp) (d : Word) : (s.answer r d).doneIe = s.doneIe := rfl
@[simp] theorem State.answer_doneIp (r : Resp) (d : Word) : (s.answer r d).doneIp = s.doneIp := rfl
@[simp] theorem State.answer_mem (r : Resp) (d : Word) : (s.answer r d).mem = s.mem := rfl
@[simp] theorem State.answer_turns (r : Resp) (d : Word) : (s.answer r d).turns = s.turns := rfl
@[simp] theorem State.answer_reply (r : Resp) (d : Word) : (s.answer r d).reply = some { resp := r, data := d } := rfl
@[simp] theorem State.answer_resets (r : Resp) (d : Word) : (s.answer r d).resets = s.resets := rfl
@[simp] theorem State.answer_draws (r : Resp) (d : Word) : (s.answer r d).draws = s.draws + 1 := rfl

@[simp] theorem State.store_width (off : Nat) (vs : List Byte) : (s.store off vs).width = s.width := rfl
@[simp] theorem State.store_height (off : Nat) (vs : List Byte) : (s.store off vs).height = s.height := rfl
@[simp] theorem State.store_imageInvalid (off : Nat) (vs : List Byte) : (s.store off vs).imageInvalid = s.imageInvalid := rfl
@[simp] theorem State.complete_byteAt (c : Code) (e w : Bool) : (s.complete c e w).byteAt = s.byteAt := rfl
@[simp] theorem State.complete_bytesAt (c : Code) (e w : Bool) : (s.complete c e w).bytesAt = s.bytesAt := rfl
@[simp] theorem State.complete_f64At (c : Code) (e w : Bool) : (s.complete c e w).f64At = s.f64At := rfl
@[simp] theorem State.complete_width (c : Code) (e w : Bool) : (s.complete c e w).width = s.width := rfl
@[simp] theorem State.complete_height (c : Code) (e w : Bool) : (s.complete c e w).height = s.height := rfl
@[simp] theorem State.complete_rgbAt (c : Code) (e w : Bool) : (s.complete c e w).rgbAt = s.rgbAt := rfl
@[simp] theorem State.complete_blk (c : Code) (e w : Bool) : (s.complete c e w).blk = s.blk := rfl
@[simp] theorem State.complete_vote (c : Code) (e w : Bool) : (s.complete c e w).vote = s.vote := rfl
@[simp] theorem State.complete_pbit (c : Code) (e w : Bool) : (s.complete c e w).pbit = s.pbit := rfl
@[simp] theorem State.complete_textByte (c : Code) (e w : Bool) : (s.complete c e w).textByte = s.textByte := rfl
@[simp] theorem State.complete_imageInvalid (c : Code) (e w : Bool) : (s.complete c e w).imageInvalid = s.imageInvalid := rfl
@[simp] theorem State.accept_byteAt (w : Word) : (s.accept w).byteAt = s.byteAt := rfl
@[simp] theorem State.accept_bytesAt (w : Word) : (s.accept w).bytesAt = s.bytesAt := rfl
@[simp] theorem State.accept_f64At (w : Word) : (s.accept w).f64At = s.f64At := rfl
@[simp] theorem State.accept_width (w : Word) : (s.accept w).width = s.width := rfl
@[simp] theorem State.accept_height (w : Word) : (s.accept w).height = s.height := rfl
@[simp] theorem State.accept_rgbAt (w : Word) : (s.accept w).rgbAt = s.rgbAt := rfl
@[simp] theorem State.accept_blk (w : Word) : (s.accept w).blk = s.blk := rfl
@[simp] theorem State.accept_vote (w : Word) : (s.accept w).vote = s.vote := rfl
@[simp] theorem State.accept_pbit (w : Word) : (s.accept w).pbit = s.pbit := rfl
@[simp] theorem State.accept_textByte (w : Word) : (s.accept w).textByte = s.textByte := rfl
@[simp] theorem State.accept_imageInvalid (w : Word) : (s.accept w).imageInvalid = s.imageInvalid := rfl
@[simp] theorem State.clearIrq_byteAt (w : Word) : (s.clearIrq w).byteAt = s.byteAt := rfl
@[simp] theorem State.clearIrq_bytesAt (w : Word) : (s.clearIrq w).bytesAt = s.bytesAt := rfl
@[simp] theorem State.clearIrq_f64At (w : Word) : (s.clearIrq w).f64At = s.f64At := rfl
@[simp] theorem State.clearIrq_width (w : Word) : (s.clearIrq w).width = s.width := rfl
@[simp] theorem State.clearIrq_height (w : Word) : (s.clearIrq w).height = s.height := rfl
@[simp] theorem State.clearIrq_rgbAt (w : Word) : (s.clearIrq w).rgbAt = s.rgbAt := rfl
@[simp] theorem State.clearIrq_blk (w : Word) : (s.clearIrq w).blk = s.blk := rfl
@[simp] theorem State.clearIrq_vote (w : Word) : (s.clearIrq w).vote = s.vote := rfl
@[simp] theorem State.clearIrq_pbit (w : Word) : (s.clearIrq w).pbit = s.pbit := rfl
@[simp] theorem State.clearIrq_textByte (w : Word) : (s.clearIrq w).textByte = s.textByte := rfl
@[simp] theorem State.clearIrq_imageInvalid (w : Word) : (s.clearIrq w).imageInvalid = s.imageInvalid := rfl
@[simp] theorem State.reject_byteAt : (s.reject).byteAt = s.byteAt := rfl
@[simp] theorem State.reject_bytesAt : (s.reject).bytesAt = s.bytesAt := rfl
@[simp] theorem State.reject_f64At : (s.reject).f64At = s.f64At := rfl
@[simp] theorem State.reject_width : (s.reject).width = s.width := rfl
@[simp] theorem State.reject_height : (s.reject).height = s.height := rfl
@[simp] theorem State.reject_rgbAt : (s.reject).rgbAt = s.rgbAt := rfl
@[simp] theorem State.reject_blk : (s.reject).blk = s.blk := rfl
@[simp] theorem State.reject_vote : (s.reject).vote = s.vote := rfl
@[simp] theorem State.reject_pbit : (s.reject).pbit = s.pbit := rfl
@[simp] theorem State.reject_textByte : (s.reject).textByte = s.textByte := rfl
@[simp] theorem State.reject_imageInvalid : (s.reject).imageInvalid = s.imageInvalid := rfl
@[simp] theorem State.setPayloadLen_byteAt (n : Nat) : (s.setPayloadLen n).byteAt = s.byteAt := rfl
@[simp] theorem State.setPayloadLen_bytesAt (n : Nat) : (s.setPayloadLen n).bytesAt = s.bytesAt := rfl
@[simp] theorem State.setPayloadLen_f64At (n : Nat) : (s.setPayloadLen n).f64At = s.f64At := rfl
@[simp] theorem State.setPayloadLen_width (n : Nat) : (s.setPayloadLen n).width = s.width := rfl
@[simp] theorem State.setPayloadLen_height (n : Nat) : (s.setPayloadLen n).height = s.height := rfl
@[simp] theorem State.setPayloadLen_rgbAt (n : Nat) : (s.setPayloadLen n).rgbAt = s.rgbAt := rfl
@[simp] theorem State.setPayloadLen_blk (n : Nat) : (s.setPayloadLen n).blk = s.blk := rfl
@[simp] theorem State.setPayloadLen_vote (n : Nat) : (s.setPayloadLen n).vote = s.vote := rfl
@[simp] theorem State.setPayloadLen_pbit (n : Nat) : (s.setPayloadLen n).pbit = s.pbit := rfl
@[simp] theorem State.setPayloadLen_textByte (n : Nat) : (s.setPayloadLen n).textByte = s.textByte := rfl
@[simp] theorem State.setPayloadLen_imageInvalid (n : Nat) : (s.setPayloadLen n).imageInvalid = s.imageInvalid := rfl
@[simp] theorem State.setBlocks_byteAt (n : Nat) : (s.setBlocks n).byteAt = s.byteAt := rfl
@[simp] theorem State.setBlocks_bytesAt (n : Nat) : (s.setBlocks n).bytesAt = s.bytesAt := rfl
@[simp] theorem State.setBlocks_f64At (n : Nat) : (s.setBlocks n).f64At = s.f64At := rfl
@[simp] theorem State.setBlocks_width (n : Nat) : (s.setBlocks n).width = s.width := rfl
@[simp] theorem State.setBlocks_height (n : Nat) : (s.setBlocks n).height = s.height := rfl
@[simp] theorem State.setBlocks_rgbAt (n : Nat) : (s.setBlocks n).rgbAt = s.rgbAt := rfl
@[simp] theorem State.setBlocks_blk (n : Nat) : (s.setBlocks n).blk = s.blk := rfl
@[simp] theorem State.setBlocks_vote (n : Nat) : (s.setBlocks n).vote = s.vote := rfl
@[simp] theorem State.setBlocks_pbit (n : Nat) : (s.setBlocks n).pbit = s.pbit := rfl
@[simp] theorem State.setBlocks_textByte (n : Nat) : (s.setBlocks n).textByte = s.textByte := rfl
@[simp] theorem State.setBlocks_imageInvalid (n : Nat) : (s.setBlocks n).imageInvalid = s.imageInvalid := rfl
@[simp] theorem State.setByteCount_byteAt (n : Nat) : (s.setByteCount n).byteAt = s.byteAt := rfl
@[simp] theorem State.setByteCount_bytesAt (n : Nat) : (s.setByteCount n).bytesAt = s.bytesAt := rfl
@[simp] theorem State.setByteCount_f64At (n : Nat) : (s.setByteCount n).f64At = s.f64At := rfl
@[simp] theorem State.setByteCount_width (n : Nat) : (s.setByteCount n).width = s.width := rfl
@[simp] theorem State.setByteCount_height (n : Nat) : (s.setByteCount n).height = s.height := rfl
@[simp] theorem State.setByteCount_rgbAt (n : Nat) : (s.setByteCount n).rgbAt = s.rgbAt := rfl
@[simp] theorem State.setByteCount_blk (n : Nat) : (s.setByteCount n).blk = s.blk := rfl
@[simp] theorem State.setByteCount_vote (n : Nat) : (s.setByteCount n).vote = s.vote := rfl
@[simp] theorem State.setByteCount_pbit (n : Nat) : (s.setByteCount n).pbit = s.pbit := rfl
@[simp] theorem State.setByteCount_textByte (n : Nat) : (s.setByteCount n).textByte = s.textByte := rfl
@[simp] theorem State.setByteCount_imageInvalid (n : Nat) : (s.setByteCount n).imageInvalid = s.imageInvalid := rfl
@[simp] theorem State.setEnergy_byteAt (e : F64) (n : Nat) : (s.setEnergy e n).byteAt = s.byteAt := rfl
@[simp] theorem State.setEnergy_bytesAt (e : F64) (n : Nat) : (s.setEnergy e n).bytesAt = s.bytesAt := rfl
@[simp] theorem State.setEnergy_f64At (e : F64) (n : Nat) : (s.setEnergy e n).f64At = s.f64At := rfl
@[simp] theorem State.setEnergy_width (e : F64) (n : Nat) : (s.setEnergy e n).width = s.width := rfl
@[simp] theorem State.setEnergy_height (e : F64) (n : Nat) : (s.setEnergy e n).height = s.height := rfl
@[simp] theorem State.setEnergy_rgbAt (e : F64) (n : Nat) : (s.setEnergy e n).rgbAt = s.rgbAt := rfl
@[simp] theorem State.setEnergy_blk (e : F64) (n : Nat) : (s.setEnergy e n).blk = s.blk := rfl
@[simp] theorem State.setEnergy_vote (e : F64) (n : Nat) : (s.setEnergy e n).vote = s.vote := rfl
@[simp] theorem State.setEnergy_pbit (e : F64) (n : Nat) : (s.setEnergy e n).pbit = s.pbit := rfl
@[simp] theorem State.setEnergy_textByte (e : F64) (n : Nat) : (s.setEnergy e n).textByte = s.textByte := rfl
@[simp] theorem State.setEnergy_imageInvalid (e : F64) (n : Nat) : (s.setEnergy e n).imageInvalid = s.imageInvalid := rfl
@[simp] theorem State.setWinner_byteAt (r : Rotation) (ox oy : Nat) (e : F64) : (s.setWinner r ox oy e).byteAt = s.byteAt := rfl
@[simp] theorem State.setWinner_bytesAt (r : Rotation) (ox oy : Nat) (e : F64) : (s.setWinner r ox oy e).bytesAt = s.bytesAt := rfl
@[simp] theorem State.setWinner_f64At (r : Rotation) (ox oy : Nat) (e : F64) : (s.setWinner r ox oy e).f64At = s.f64At := rfl
@[simp] theorem State.setWinner_width (r : Rotation) (ox oy : Nat) (e : F64) : (s.setWinner r ox oy e).width = s.width := rfl
@[simp] theorem State.setWinner_height (r : Rotation) (ox oy : Nat) (e : F64) : (s.setWinner r ox oy e).height = s.height := rfl
@[simp] theorem State.setWinner_rgbAt (r : Rotation) (ox oy : Nat) (e : F64) : (s.setWinner r ox oy e).rgbAt = s.rgbAt := rfl
@[simp] theorem State.setWinner_blk (r : Rotation) (ox oy : Nat) (e : F64) : (s.setWinner r ox oy e).blk = s.blk := rfl
@[simp] theorem State.setWinner_vote (r : Rotation) (ox oy : Nat) (e : F64) : (s.setWinner r ox oy e).vote = s.vote := rfl
@[simp] theorem State.setWinner_pbit (r : Rotation) (ox oy : Nat) (e : F64) : (s.setWinner r ox oy e).pbit = s.pbit := rfl
@[simp] theorem State.setWinner_textByte (r : Rotation) (ox oy : Nat) (e : F64) : (s.setWinner r ox oy e).textByte = s.textByte := rfl
@[simp] theorem State.setWinner_imageInvalid (r : Rotation) (ox oy : Nat) (e : F64) : (s.setWinner r ox oy e).imageInvalid = s.imageInvalid := rfl
@[simp] theorem State.popTurn_byteAt : (s.popTurn).byteAt = s.byteAt := rfl
@[simp] theorem State.popTurn_bytesAt : (s.popTurn).bytesAt = s.bytesAt := rfl
@[simp] theorem State.popTurn_f64At : (s.popTurn).f64At = s.f64At := rfl
@[simp] theorem State.popTurn_width : (s.popTurn).width = s.width := rfl
@[simp] theorem State.popTurn_height : (s.popTurn).height = s.height := rfl
@[simp] theorem State.popTurn_rgbAt : (s.popTurn).rgbAt = s.rgbAt := rfl
@[simp] theorem State.popTurn_blk : (s.popTurn).blk = s.blk := rfl
@[simp] theorem State.popTurn_vote : (s.popTurn).vote = s.vote := rfl
@[simp] theorem State.popTurn_pbit : (s.popTurn).pbit = s.pbit := rfl
@[simp] theorem State.popTurn_textByte : (s.popTurn).textByte = s.textByte := rfl
@[simp] theorem State.popTurn_imageInvalid : (s.popTurn).imageInvalid = s.imageInvalid := rfl
@[simp] theorem State.answer_byteAt (r : Resp) (d : Word) : (s.answer r d).byteAt = s.byteAt := rfl
@[simp] theorem State.answer_bytesAt (r : Resp) (d : Word) : (s.answer r d).bytesAt = s.bytesAt := rfl
@[simp] theorem State.answer_f64At (r : Resp) (d : Word) : (s.answer r d).f64At = s.f64At := rfl
@[simp] theorem State.answer_width (r : Resp) (d : Word) : (s.answer r d).width = s.width := rfl
@[simp] theorem State.answer_height (r : Resp) (d : Word) : (s.answer r d).height = s.height := rfl
@[simp] theorem State.answer_rgbAt (r : Resp) (d : Word) : (s.answer r d).rgbAt = s.rgbAt := rfl
@[simp] theorem State.answer_blk (r : Resp) (d : Word) : (s.answer r d).blk = s.blk := rfl
@[simp] theorem State.answer_vote (r : Resp) (d : Word) : (s.answer r d).vote = s.vote := rfl
@[simp] theorem State.answer_pbit (r : Resp) (d : Word) : (s.answer r d).pbit = s.pbit := rfl
@[simp] theorem State.answer_textByte (r : Resp) (d : Word) : (s.answer r d).textByte = s.textByte := rfl
@[simp] theorem State.answer_imageInvalid (r : Resp) (d : Word) : (s.answer r d).imageInvalid = s.imageInvalid := rfl

/-! ### Updates named for what they mean -/

@[simp] theorem State.succeed_eq : s.succeed = s.complete .none false false := rfl

@[simp] theorem State.raise_eq (e : Code) : s.raise e = s.complete e true false := rfl

@[simp] theorem State.illegalCommand_eq : s.illegalCommand = s.complete .illegalCommand true false := rfl

@[simp] theorem State.recordWinner_eq (b : Scored) :
    s.recordWinner b = s.setWinner b.hyp.rot b.hyp.ox b.hyp.oy b.energy := rfl

end Sys2Proof.Machine
end

