-- ==== Sys2Proof/Laws/Bus.lean ====
section
/-! SUPPORT. What the address map says of an offset, and everything a host access can do. -/

namespace Sys2Proof.Machine

/-! ### The address map -/

theorem window_eq_registers {off : Nat} : window off = some .registers ↔ off < 0x1000 := by
  unfold window
  repeat' split
  all_goals (simp; omega)

theorem window_eq_vote {off : Nat} : window off = some .vote ↔ 0x4000 ≤ off ∧ off < 0xC000 := by
  unfold window
  repeat' split
  all_goals (simp; omega)

theorem window_eq_none {off : Nat} : window off = none ↔ 0x1000 ≤ off ∧ ¬ storageOffset off := by
  unfold window storageOffset
  repeat' split
  all_goals (simp; omega)

/-- The accesses that the bus refuses (20_memory R68 to R70). -/
theorem accessRefused_iff {off : Nat} {size : Size} : accessRefused off size = true ↔
    off % size.bytes ≠ 0 ∨ off < 0x1000 ∧ size ≠ .word ∨ 0x1000 ≤ off ∧ ¬ storageOffset off := by
  unfold accessRefused
  rw [Bool.or_eq_true, decide_eq_true_eq]
  refine or_congr Iff.rfl ?_
  cases h : window off with
  | none =>
    have h1 := window_eq_none.mp h
    simp only [true_iff]
    exact .inr h1
  | some w =>
    have h2 : ¬ (0x1000 ≤ off ∧ ¬ storageOffset off) := fun hn => by
      rw [window_eq_none.mpr hn] at h; cases h
    by_cases hr : off < 0x1000
    · have h1 := window_eq_registers.mpr hr
      rw [h] at h1
      cases h1
      simp [hr, h2]
    · have h1 : w ≠ .registers := fun he => hr (window_eq_registers.mp (he ▸ h))
      cases w <;> simp [hr, h2] at h1 ⊢

/-! ### Read data -/

/-- The low lanes of the read data hold the value read, whatever the others hold. -/
theorem Size.lanes_low (size : Size) (value rest : Word) {i : Nat} (h : i < size.bytes) :
    (size.lanes value rest).extractLsb' (8 * i) 8 = value.extractLsb' (8 * i) 8 := by
  cases size with
  | word => rfl
  | _ =>
    simp only [Size.bytes] at h
    ext j hj
    simp only [Size.lanes, BitVec.getElem_extractLsb', BitVec.getLsbD_append, BitVec.getLsbD_extractLsb',
      Nat.zero_add]
    rw [if_pos (by omega), decide_eq_true (by omega), Bool.true_and]

/-! ### Everything a host access can do -/

/-- A write that is refused, rejected while busy, or done. -/
theorem State.hostWrite_cases (s : State) (off : Nat) (size : Size) (v : Word) :
    (accessRefused off size = true ∧ s.hostWrite off size v = s.answer .error 0#32) ∨
    (accessRefused off size = false ∧ s.status.busy = true ∧ irqRegister off = false ∧
      s.hostWrite off size v = s.reject.answer .error s.openLanes) ∨
    (accessRefused off size = false ∧ (s.status.busy = false ∨ irqRegister off = true) ∧
      s.hostWrite off size v = (s.writeData off size v).answer .okay s.openLanes) := by
  unfold State.hostWrite
  cases accessRefused off size <;> cases s.status.busy <;> cases irqRegister off <;> simp

/-- A read that is refused, answered with a free value, or answered with the data. -/
theorem State.hostRead_cases (s : State) (off : Nat) (size : Size) :
    (accessRefused off size = true ∧ s.hostRead off size = s.answer .error 0#32) ∨
    (accessRefused off size = false ∧ s.status.busy = true ∧ s.steadyWhileBusy off = false ∧
      s.hostRead off size = s.answer .okay (Config.busyRead s.draws)) ∨
    (accessRefused off size = false ∧ (s.status.busy = false ∨ s.steadyWhileBusy off = true) ∧
      s.hostRead off size = s.answer .okay (s.readData off size)) := by
  unfold State.hostRead
  cases accessRefused off size <;> cases s.status.busy <;> cases s.steadyWhileBusy off <;> simp

/-- A read is answered, and does nothing else. -/
theorem State.hostRead_eq (s : State) (off : Nat) (size : Size) : ∃ resp data,
    s.hostRead off size = s.answer resp data := by
  rcases s.hostRead_cases off size with ⟨-, h⟩ | ⟨-, -, -, h⟩ | ⟨-, -, h⟩ <;> exact ⟨_, _, h⟩

/-- A write to a mapped offset stores to a memory, or is a register write, or is ignored. -/
theorem State.writeData_cases (s : State) (off : Nat) (size : Size) (v : Word) :
    (off < 0x1000 ∧ s.writeData off size v = s.writeReg off v) ∨
    (0x4000 ≤ off ∧ off < 0xC000 ∧ s.writeData off size v = s) ∨
    (0x1000 ≤ off ∧ ¬ (0x4000 ≤ off ∧ off < 0xC000) ∧
      s.writeData off size v = s.store off (toLittle size.bytes v.toNat)) := by
  unfold State.writeData
  by_cases h1 : off < 0x1000
  · rw [window_eq_registers.mpr h1]
    exact .inl ⟨h1, rfl⟩
  · by_cases h2 : 0x4000 ≤ off ∧ off < 0xC000
    · rw [window_eq_vote.mpr h2]
      exact .inr (.inl ⟨h2.1, h2.2, rfl⟩)
    · refine .inr (.inr ⟨by omega, h2, ?_⟩)
      split
      · next h => exact absurd (window_eq_registers.mp h) h1
      · next h => exact absurd (window_eq_vote.mp h) h2
      · rfl

/-- A register write leaves memory, the result registers and the model's own fields; STATUS changes only by
acceptance. -/
theorem State.writeReg_eq (s : State) (off : Nat) (v : Word) :
    s.writeReg off v = { s with
      cmd := (s.writeReg off v).cmd, status := (s.writeReg off v).status,
      imgW := (s.writeReg off v).imgW, imgH := (s.writeReg off v).imgH,
      strength := (s.writeReg off v).strength, sqw := (s.writeReg off v).sqw,
      payloadLen := (s.writeReg off v).payloadLen, bitOffset := (s.writeReg off v).bitOffset,
      textLen := (s.writeReg off v).textLen, blkPos := (s.writeReg off v).blkPos,
      floor := (s.writeReg off v).floor, doneIe := (s.writeReg off v).doneIe,
      doneIp := (s.writeReg off v).doneIp } ∧
    ((s.writeReg off v).status = s.status ∨
      off = 0x008 ∧ (s.writeReg off v).status = Status.accepted) := by
  unfold State.writeReg
  split <;> first
    | exact ⟨rfl, .inl rfl⟩
    | exact ⟨rfl, .inr ⟨rfl, rfl⟩⟩

end Sys2Proof.Machine
end

