-- ==== Sys2Proof/Laws/Bytes.lean ====
section
/-! SUPPORT. Little-endian values, and what the reads of BLK, VOTE, PAYLOAD, BYTEBUF and PIX give after
the writes of the commands. -/

namespace Sys2Proof.Machine

/-! ### Byte order -/

@[simp] theorem toLittle_length (n v : Nat) : (toLittle n v).length = n := by
  induction n generalizing v with
  | zero => rfl
  | succ n ih => simp [toLittle, ih]

theorem ofLittle_toLittle (n v : Nat) : ofLittle (toLittle n v) = v % 256 ^ n := by
  induction n generalizing v with
  | zero => simp [toLittle, ofLittle, Nat.mod_one]
  | succ n ih =>
    have h : v % 256 ^ (n + 1) = v % 256 + 256 * (v / 256 % 256 ^ n) := by
      rw [Nat.pow_succ, Nat.mul_comm, Nat.mod_mul]
    simp [toLittle, ofLittle, ih, h]

@[simp] theorem State.bytesAt_length (s : State) (off n : Nat) : (s.bytesAt off n).length = n := by
  simp [State.bytesAt]

/-- A binary64 value read where its eight bytes lie. -/
theorem State.f64At_of_bytes {s : State} {off : Nat} {x : F64}
    (h : s.bytesAt off 8 = toLittle 8 x.toNat) : s.f64At off = x := by
  rw [State.f64At, h, ofLittle_toLittle]
  have hx : x.toNat < 256 ^ 8 := x.isLt
  rw [Nat.mod_eq_of_lt hx]
  simp

/-! ### Binary64 arrays -/

@[simp] theorem f64Bytes_length (xs : List F64) : (f64Bytes xs).length = 8 * xs.length := by
  induction xs with
  | nil => rfl
  | cons x xs ih =>
    simp only [f64Bytes, List.flatMap_cons, List.length_append, toLittle_length, List.length_cons] at *
    omega

theorem f64Bytes_getD (xs : List F64) {k i : Nat} (hk : k < xs.length) (hi : i < 8) :
    (f64Bytes xs).getD (8 * k + i) 0#8 = (toLittle 8 xs[k].toNat).getD i 0#8 := by
  induction xs generalizing k with
  | nil => cases hk
  | cons x xs ih =>
    have hcons : f64Bytes (x :: xs) = toLittle 8 x.toNat ++ f64Bytes xs := rfl
    rw [hcons]
    cases k with
    | zero => rw [List.getD_append _ _ _ _ (by simp; omega)]; simp
    | succ k =>
      rw [List.getD_append_right _ _ _ _ (by simp; omega)]
      have : 8 * (k + 1) + i - (toLittle 8 x.toNat).length = 8 * k + i := by simp; omega
      rw [this]
      exact ih (by simpa using hk)

/-- The bytes of entry `k` after an array of binary64 values is stored. -/
theorem State.bytesAt_store_f64Bytes {s : State} {off : Nat} {xs : List F64} {k : Nat}
    (hk : k < xs.length) :
    (s.store off (f64Bytes xs)).bytesAt (off + 8 * k) 8 = toLittle 8 xs[k].toNat := by
  refine List.ext_getElem (by simp) fun i h1 h2 => ?_
  have hi : i < 8 := by simpa using h1
  simp only [State.bytesAt, List.getElem_map, List.getElem_range]
  rw [State.byteAt_store, if_pos (by simp; omega),
    show off + 8 * k + i - off = 8 * k + i by omega, f64Bytes_getD xs hk hi]
  simp [hi]

/-- Entry `k` after an array of binary64 values is stored. -/
theorem State.f64At_store_f64Bytes {s : State} {off : Nat} {xs : List F64} {k : Nat}
    (hk : k < xs.length) : (s.store off (f64Bytes xs)).f64At (off + 8 * k) = xs[k] :=
  State.f64At_of_bytes (State.bytesAt_store_f64Bytes hk)

/-- A binary64 value outside the stored bytes is unchanged. -/
theorem State.f64At_store_of_outside {s : State} {off : Nat} {vs : List Byte} {a : Nat}
    (h : a + 8 ≤ off ∨ off + vs.length ≤ a) : (s.store off vs).f64At a = s.f64At a := by
  have : (s.store off vs).bytesAt a 8 = s.bytesAt a 8 := by
    refine List.map_congr_left fun i hi => ?_
    have := List.mem_range.mp hi
    exact State.byteAt_store_of_outside (by omega)
  rw [State.f64At, State.f64At, this]

@[simp] theorem State.blk_length (s : State) : s.blk.length = 64 := by simp [State.blk]

/-- BLK after a 64-entry block is stored. -/
theorem State.blk_storeBlk {s : State} {xs : List F64} (h : xs.length = 64) :
    (s.storeBlk xs).blk = xs := by
  refine List.ext_getElem (by simp [h]) fun k h1 h2 => ?_
  simp only [State.blk, State.storeBlk, List.getElem_map, List.getElem_range]
  exact State.f64At_store_f64Bytes h2

/-- V[k] after the vote entries are stored. -/
theorem State.vote_storeVotes {s : State} {vs : List F64} {k : Nat} (h : k < vs.length) :
    (s.storeVotes vs).vote k = vs[k] :=
  State.f64At_store_f64Bytes h

/-! ### Payload bits -/

theorem packByte_getLsbD (f : Nat → Bool) {t : Nat} (ht : t < 8) :
    (packByte f).getLsbD (7 - t) = f t := by
  have key : ∀ b0 b1 b2 b3 b4 b5 b6 b7 : Bool, ∀ u : Fin 8,
      (BitVec.ofNat 8 (2 * (2 * (2 * (2 * (2 * (2 * (2 * (2 * 0 + b0.toNat) + b1.toNat) + b2.toNat)
        + b3.toNat) + b4.toNat) + b5.toNat) + b6.toNat) + b7.toNat)).getLsbD (7 - u.val)
        = [b0, b1, b2, b3, b4, b5, b6, b7].getD u.val false := by decide
  have h := key (f 0) (f 1) (f 2) (f 3) (f 4) (f 5) (f 6) (f 7) ⟨t, ht⟩
  have hl : [f 0, f 1, f 2, f 3, f 4, f 5, f 6, f 7].getD t false = f t := by
    interval_cases t <;> rfl
  rw [hl] at h
  exact h

/-- PBIT(i) after payload bits are stored: the new bit below `n`, the old one from `n` on. -/
theorem State.pbit_storePbits (s : State) (n : Nat) (bits : Nat → Bool) (i : Nat) :
    (s.storePbits n bits).pbit i = if i < n then bits i else s.pbit i := by
  have hi : 8 * (i / 8) + i % 8 = i := Nat.div_add_mod i 8
  have ht : i % 8 < 8 := Nat.mod_lt _ (by omega)
  unfold State.pbit State.storePbits
  rw [State.byteAt_store]
  by_cases hb : i / 8 < (n + 7) / 8
  · rw [if_pos (by simp; omega), Nat.add_sub_cancel_left]
    rw [List.getD_eq_getElem _ _ (by simpa using hb)]
    simp only [List.getElem_map, List.getElem_range]
    rw [packByte_getLsbD _ ht, hi]
    rfl
  · rw [if_neg (by simp; omega), if_neg (by omega)]

/-! ### Text bytes -/

/-- BYTE(j) after text bytes are stored. -/
theorem State.textByte_storeText (s : State) (vs : List Byte) (j : Nat) :
    (s.storeText vs).textByte j = if j < vs.length then vs.getD j 0#8 else s.textByte j := by
  unfold State.textByte State.storeText
  rw [State.byteAt_store]
  by_cases h : j < vs.length
  · rw [if_pos (by omega), if_pos h, Nat.add_sub_cancel_left]
  · rw [if_neg (by omega), if_neg h]

/-! ### Pixels -/

/-- Two pixels of the image that share an offset are one pixel. -/
theorem pixelOffset_inj {w x y x' y' : Nat} (hx : x < w) (hx' : x' < w)
    (h : pixelOffset w x y = pixelOffset w x' y') : x = x' ∧ y = y' := by
  have h1 : y * w + x = y' * w + x' := by unfold pixelOffset at h; omega
  have hy : y = y' := by
    have h2 : (y * w + x) / w = y := by
      rw [Nat.mul_comm, Nat.mul_add_div (by omega), Nat.div_eq_of_lt hx]; omega
    have h3 : (y' * w + x') / w = y' := by
      rw [Nat.mul_comm, Nat.mul_add_div (by omega), Nat.div_eq_of_lt hx']; omega
    rw [← h2, ← h3, h1]
  subst hy
  exact ⟨by omega, rfl⟩

@[simp] theorem State.storeRgb_width (s : State) (x y : Nat) (p : Rgb) :
    (s.storeRgb x y p).width = s.width := rfl

@[simp] theorem State.storeRgb_height (s : State) (x y : Nat) (p : Rgb) :
    (s.storeRgb x y p).height = s.height := rfl

/-- The pixel written reads back. -/
theorem State.rgbAt_storeRgb_self (s : State) (x y : Nat) (p : Rgb) :
    (s.storeRgb x y p).rgbAt x y = p := by
  unfold State.rgbAt
  rw [State.storeRgb_width]
  simp only [State.storeRgb, State.byteAt_store]
  simp

/-- Another pixel of the image is unchanged. -/
theorem State.rgbAt_storeRgb_of_ne {s : State} {x y x' y' : Nat} {p : Rgb} (hx : x < s.width)
    (hx' : x' < s.width) (h : (x', y') ≠ (x, y)) :
    (s.storeRgb x y p).rgbAt x' y' = s.rgbAt x' y' := by
  have hne : pixelOffset s.width x' y' ≠ pixelOffset s.width x y := by
    intro he
    obtain ⟨h1, h2⟩ := pixelOffset_inj hx' hx he
    exact h (by rw [h1, h2])
  have hfar : pixelOffset s.width x' y' + 4 ≤ pixelOffset s.width x y ∨
      pixelOffset s.width x y + 4 ≤ pixelOffset s.width x' y' := by
    unfold pixelOffset at *; omega
  unfold State.rgbAt
  rw [State.storeRgb_width]
  simp only [State.storeRgb]
  rw [State.byteAt_store_of_outside (by simp; omega), State.byteAt_store_of_outside (by simp; omega),
    State.byteAt_store_of_outside (by simp; omega)]

end Sys2Proof.Machine
end

