-- ==== Sys2Proof/Laws/Float.lean ====
section
/-! SUPPORT. What the rounding of binary64 arithmetic gives: the place of the top bit, the nearest whole
number, the datum that a rounded magnitude stands for, and a bound that rounding keeps. -/

namespace Sys2Proof.Machine

/-! ### The top bit -/

theorem topBit_halve {n a k : Nat} (h : n >>> a ≠ 0 ∧ n >>> (a + (k + k)) = 0) :
    n >>> (if n >>> (a + k) = 0 then a else a + k) ≠ 0 ∧
      n >>> ((if n >>> (a + k) = 0 then a else a + k) + k) = 0 := by
  by_cases hk : n >>> (a + k) = 0
  · simp only [hk, if_true]
    exact ⟨h.1, trivial⟩
  · simp only [hk, if_false]
    exact ⟨hk, by rw [Nat.add_assoc]; exact h.2⟩

/-- A number below a power of two up to 2^8192 has no bit from the place 8192 on. -/
theorem shiftRight_eq_zero_of_lt {n k : Nat} (h : n < 2 ^ k) (hk : k ≤ 8192) : n >>> 8192 = 0 := by
  rw [Nat.shiftRight_eq_div_pow]
  exact Nat.div_eq_of_lt (h.trans_le (Nat.pow_le_pow_right (by omega) hk))

/-- `topBit` is the place of the highest 1 bit of every number the arithmetic meets. -/
theorem topBit_spec {n : Nat} (h0 : n ≠ 0) (h : n >>> 8192 = 0) :
    2 ^ topBit n ≤ n ∧ n < 2 ^ (topBit n + 1) := by
  have hs : n >>> (0 + (4096 + 4096)) = 0 := h
  have h1 := topBit_halve (n := n) (a := 0) (k := 4096) ⟨by simpa using h0, hs⟩
  have h2 := topBit_halve (k := 2048) h1
  have h3 := topBit_halve (k := 1024) h2
  have h4 := topBit_halve (k := 512) h3
  have h5 := topBit_halve (k := 256) h4
  have h6 := topBit_halve (k := 128) h5
  have h7 := topBit_halve (k := 64) h6
  have h8 := topBit_halve (k := 32) h7
  have h9 := topBit_halve (k := 16) h8
  have h10 := topBit_halve (k := 8) h9
  have h11 := topBit_halve (k := 4) h10
  have h12 := topBit_halve (k := 2) h11
  have h13 := topBit_halve (k := 1) h12
  have hr : n >>> topBit n ≠ 0 ∧ n >>> (topBit n + 1) = 0 := h13
  rw [Nat.shiftRight_eq_div_pow, Nat.shiftRight_eq_div_pow] at hr
  have hp : 0 < 2 ^ topBit n := Nat.two_pow_pos _
  refine ⟨?_, ?_⟩
  · exact (Nat.le_div_iff_mul_le hp).mp (Nat.one_le_iff_ne_zero.mpr hr.1) |> fun h => by simpa using h
  · exact (Nat.div_eq_zero_iff.mp hr.2).resolve_left (Nat.two_pow_pos _).ne'

/-! ### The nearest whole number -/

theorem divRne_le {num den k : Nat} (hd : 0 < den) (h : num ≤ den * k) : divRne num den ≤ k := by
  have hdm := Nat.div_add_mod num den
  have hlt := Nat.mod_lt num hd
  have hq : num / den ≤ k := Nat.div_le_of_le_mul h
  by_cases he : num / den = k
  · have hr : num % den = 0 := by
      have : den * (num / den) = den * k := by rw [he]
      omega
    simp [divRne, hr, he, hd]
  · have : num / den % 2 ≤ 1 := Nat.le_of_lt_succ (Nat.mod_lt _ (by omega))
    unfold divRne
    split
    · omega
    · split <;> omega

theorem le_divRne {num den k : Nat} (hd : 0 < den) (h : den * k ≤ num) : k ≤ divRne num den := by
  have hq : k ≤ num / den := (Nat.le_div_iff_mul_le hd).mpr (by rw [Nat.mul_comm]; exact h)
  unfold divRne
  split
  · exact hq
  · split <;> omega

/-- A whole quotient is not changed by rounding. -/
theorem divRne_mul {den : Nat} (hd : 0 < den) (k : Nat) : divRne (den * k) den = k :=
  Nat.le_antisymm (divRne_le hd (Nat.le_refl _)) (le_divRne hd (Nat.le_refl _))

@[simp] theorem divRne_one (n : Nat) : divRne n 1 = n := by
  simpa using divRne_mul (den := 1) (by omega) n

/-- The rounding error is at most one half, and on a tie the result is even. -/
theorem divRne_nearest {num den : Nat} (hd : 0 < den) :
    (2 * num ≤ den * (2 * divRne num den + 1) ∧ den * (2 * divRne num den) ≤ 2 * num + den) ∧
      (2 * num = den * (2 * divRne num den + 1) ∨ den * (2 * divRne num den) = 2 * num + den →
        divRne num den % 2 = 0) := by
  have hdm := Nat.div_add_mod num den
  have hlt := Nat.mod_lt num hd
  generalize hq : num / den = q at *
  generalize hr : num % den = r at *
  unfold divRne
  rw [hq, hr]
  have e1 : den * (2 * q + 1) = 2 * (den * q) + den := by ring
  have e2 : den * (2 * (q + 1) + 1) = 2 * (den * q) + 3 * den := by ring
  have e3 : den * (2 * q) = 2 * (den * q) := by ring
  have e4 : den * (2 * (q + 1)) = 2 * (den * q) + 2 * den := by ring
  split
  · rw [e1, e3]; refine ⟨⟨by omega, by omega⟩, fun h => by omega⟩
  · split
    · rw [e2, e4]; refine ⟨⟨by omega, by omega⟩, fun h => by omega⟩
    · have hm : q % 2 = 0 ∨ q % 2 = 1 := by omega
      rcases hm with hm | hm
      · simp only [hm, Nat.add_zero, e1, e3]
        exact ⟨⟨by omega, by omega⟩, fun _ => trivial⟩
      · rw [hm, e2, e4]
        exact ⟨⟨by omega, by omega⟩, fun _ => by omega⟩

/-! ### Rounding to 53 bits -/

/-- The significand a rounding leaves: at most 2^53, and full unless no place is dropped. -/
theorem significand_bounds {num den : Nat} (hd : 0 < den) (hq : (num / den) >>> 8192 = 0) :
    divRne num (den <<< dropBits num den) ≤ 2 ^ 53 ∧
      (0 < dropBits num den → 2 ^ 52 ≤ divRne num (den <<< dropBits num den)) := by
  rw [Nat.shiftLeft_eq]
  have hd' : 0 < den * 2 ^ dropBits num den := Nat.mul_pos hd (Nat.two_pow_pos _)
  by_cases h0 : num / den = 0
  · have hs : dropBits num den = 0 := by
      rw [dropBits, h0]
      decide
    have hlt : num < den := (Nat.div_eq_zero_iff.mp h0).resolve_left hd.ne'
    have hle : divRne num (den * 2 ^ dropBits num den) ≤ 1 := by
      rw [hs]
      exact divRne_le (by simpa using hd) (by simpa using hlt.le)
    have : (2 : Nat) ^ 53 = 9007199254740992 := by norm_num
    exact ⟨by omega, fun h => by omega⟩
  · obtain ⟨hlo, hhi⟩ := topBit_spec h0 hq
    have hlt : num < den * 2 ^ (topBit (num / den) + 1) := by
      have := (Nat.div_lt_iff_lt_mul hd).mp hhi
      rwa [Nat.mul_comm] at this
    have hge : den * 2 ^ topBit (num / den) ≤ num := by
      have := (Nat.le_div_iff_mul_le hd).mp hlo
      rwa [Nat.mul_comm] at this
    refine ⟨divRne_le hd' ?_, fun hpos => le_divRne hd' ?_⟩
    · rw [Nat.mul_assoc, ← Nat.pow_add]
      refine hlt.le.trans (Nat.mul_le_mul_left _ (Nat.pow_le_pow_right (by omega) ?_))
      unfold dropBits
      omega
    · rw [Nat.mul_assoc, ← Nat.pow_add]
      have : dropBits num den + 52 = topBit (num / den) := by unfold dropBits at *; omega
      rw [this]
      exact hge

/-- The datum of a pattern whose lower 63 bits are those of a finite number. -/
theorem unpack_packSign {neg : Bool} {b : Nat} (h : b < 9218868437227405312) :
    unpack (packSign neg b) = .fin neg
      (if b < 2 ^ 52 then b else (2 ^ 52 + b % 2 ^ 52) <<< (b / 2 ^ 52 - 1)) := by
  have e52 : (2 : Nat) ^ 52 = 4503599627370496 := by norm_num
  have hn : (packSign neg b).toNat = if neg then 9223372036854775808 + b else b := by
    cases neg
    · simp [packSign]
      omega
    · simp [packSign]
      omega
  have hsgn : signField (packSign neg b) = neg := by
    cases neg
    · simp only [signField, hn, Bool.false_eq_true, if_false]
      rw [Bool.eq_false_iff]
      intro hb
      have := Nat.le_of_ble_eq_true hb
      omega
    · simp only [signField, hn, if_true]
      exact Nat.ble_eq_true_of_le (by omega)
  have hexp : expField (packSign neg b) = b / 2 ^ 52 := by
    rw [expField, hn, Nat.shiftRight_eq_div_pow, e52]
    cases neg <;> simp only [if_true, Bool.false_eq_true, if_false] <;> omega
  have hfrac : fracField (packSign neg b) = b % 2 ^ 52 := by
    rw [fracField, hn, e52]
    cases neg <;> simp only [if_true, Bool.false_eq_true, if_false] <;> omega
  rw [unpack, hsgn, hexp, hfrac, e52]
  have h1 : b / 4503599627370496 ≠ 2047 := by omega
  rw [if_neg h1]
  by_cases hb : b < 4503599627370496
  · rw [if_pos (by omega), if_pos hb, Nat.mod_eq_of_lt hb]
  · rw [if_neg (by omega), if_neg hb]

/-- The infinities, and nothing below them, unpack as infinities. -/
theorem unpack_infinity (neg : Bool) : unpack (infinity neg) = .inf neg := by
  cases neg <;> decide +kernel

/-- The datum that a rounded magnitude stands for: the significand at its place, or the infinity where
the exponent field is full. -/
theorem unpack_roundUnits (neg : Bool) {num den : Nat} (hd : 0 < den) (hq : (num / den) >>> 8192 = 0) :
    unpack (roundUnits neg num den) =
      if dropBits num den * 2 ^ 52 + divRne num (den <<< dropBits num den) < 9218868437227405312
      then .fin neg (divRne num (den <<< dropBits num den) * 2 ^ dropBits num den)
      else .inf neg := by
  obtain ⟨hle, hge⟩ := significand_bounds hd hq
  have e52 : (2 : Nat) ^ 52 = 4503599627370496 := by norm_num
  have e53 : (2 : Nat) ^ 53 = 9007199254740992 := by norm_num
  generalize hn : divRne num (den <<< dropBits num den) = n at *
  unfold roundUnits roundMag
  rw [hn, Nat.shiftLeft_eq]
  generalize hs : dropBits num den = sh at *
  by_cases hfin : sh * 2 ^ 52 + n < 9218868437227405312
  · rw [if_pos hfin, Nat.min_eq_left hfin.le, unpack_packSign hfin]
    congr 1
    by_cases hsmall : sh * 2 ^ 52 + n < 2 ^ 52
    · have hs0 : sh = 0 := by
        rcases Nat.eq_zero_or_pos sh with h | h
        · exact h
        · have := hge h; omega
      rw [if_pos hsmall, hs0]
      simp
    · rw [if_neg hsmall, Nat.shiftLeft_eq]
      by_cases hfull : n = 2 ^ 53
      · have h1 : (sh * 2 ^ 52 + n) % 2 ^ 52 = 0 := by omega
        have h2 : (sh * 2 ^ 52 + n) / 2 ^ 52 - 1 = sh + 1 := by omega
        rw [h1, h2, hfull, Nat.pow_succ]
        ring
      · have hlo : 2 ^ 52 ≤ n := by
          rcases Nat.eq_zero_or_pos sh with h | h
          · subst h; omega
          · exact hge h
        have h1 : (sh * 2 ^ 52 + n) % 2 ^ 52 = n - 2 ^ 52 := by omega
        have h2 : (sh * 2 ^ 52 + n) / 2 ^ 52 - 1 = sh := by omega
        rw [h1, h2, Nat.add_sub_cancel' hlo]
  · rw [if_neg hfin, Nat.min_eq_right (by omega)]
    exact unpack_infinity neg

/-- Any other multiple of the place is no nearer, and as near only on a tie, where the result is even. -/
theorem divRne_nearest_multiple {num D : Nat} (hD : 0 < D) (k : Int) :
    |(divRne num D : Int) * D - num| ≤ |k * D - num| ∧
      (k ≠ divRne num D → |k * D - num| = |(divRne num D : Int) * D - num| → divRne num D % 2 = 0) := by
  obtain ⟨⟨h1, h2⟩, h3⟩ := divRne_nearest (num := num) hD
  generalize divRne num D = q at *
  have e1 : (D : Int) * (2 * q + 1) = 2 * (q * D) + D := by ring
  have e2 : (D : Int) * (2 * q) = 2 * (q * D) := by ring
  have g1 : 2 * (num : Int) ≤ 2 * (q * D) + D := by rw [← e1]; exact_mod_cast h1
  have g2 : 2 * ((q : Int) * D) ≤ 2 * num + D := by rw [← e2]; exact_mod_cast h2
  have g3 : 2 * (num : Int) = 2 * (q * D) + D ∨ 2 * ((q : Int) * D) = 2 * num + D → q % 2 = 0 := by
    rw [← e1, ← e2]
    intro h
    exact h3 (by exact_mod_cast h)
  have hD' : (0 : Int) < D := by exact_mod_cast hD
  obtain ⟨Q, hQ⟩ : ∃ Q, (q : Int) * D = Q := ⟨_, rfl⟩
  clear h1 h2 h3 e1 e2
  rw [hQ] at g1 g2 g3 ⊢
  rcases lt_trichotomy k q with h | h | h
  · have hk : k * D ≤ Q - D := by
      have := mul_le_mul_of_nonneg_right (show k ≤ q - 1 by omega) hD'.le
      rw [sub_mul, one_mul, hQ] at this
      exact this
    generalize k * (D : Int) = K at *
    rw [abs_of_nonpos (show K - num ≤ 0 by omega)]
    refine ⟨abs_le.mpr ⟨by omega, by omega⟩, fun _ he => g3 ?_⟩
    rcases abs_cases (Q - num : Int) with ⟨ha, -⟩ | ⟨ha, -⟩ <;> rw [ha] at he <;> omega
  · subst h
    rw [hQ]
    exact ⟨le_refl _, fun h => absurd rfl h⟩
  · have hk : Q + D ≤ k * D := by
      have := mul_le_mul_of_nonneg_right (show q + 1 ≤ k by omega) hD'.le
      rw [add_mul, one_mul, hQ] at this
      exact this
    generalize k * (D : Int) = K at *
    rw [abs_of_nonneg (show 0 ≤ K - num by omega)]
    refine ⟨abs_le.mpr ⟨by omega, by omega⟩, fun _ he => g3 ?_⟩
    rcases abs_cases (Q - num : Int) with ⟨ha, -⟩ | ⟨ha, -⟩ <;> rw [ha] at he <;> omega

/-- Where places are dropped, the magnitude has its highest bit 52 places above them. -/
theorem dropBits_pos {num den : Nat} (hd : 0 < den) (hq : (num / den) >>> 8192 = 0)
    (hp : 0 < dropBits num den) : den * 2 ^ (52 + dropBits num den) ≤ num := by
  have h0 : num / den ≠ 0 := by
    intro h0
    rw [dropBits, h0] at hp
    exact absurd hp (by decide)
  have he : 52 + dropBits num den = topBit (num / den) := by unfold dropBits at *; omega
  rw [he, Nat.mul_comm]
  exact (Nat.le_div_iff_mul_le hd).mp (topBit_spec h0 hq).1

/-- No number of 53 significant bits is nearer to `num / den` than the rounded significand at its place,
and only an even significand shares its distance with another number. -/
theorem significand_nearest {num den : Nat} (hd : 0 < den) (hq : (num / den) >>> 8192 = 0) {m : Int}
    (hm : ∃ a b : Nat, a < 2 ^ 53 ∧ m.natAbs = a * 2 ^ b) :
    let q := divRne num (den <<< dropBits num den)
    let n : Int := q * 2 ^ dropBits num den
    |n * den - num| ≤ |m * den - num| ∧ (m ≠ n → |m * den - num| = |n * den - num| → q % 2 = 0) := by
  have hpos := dropBits_pos hd hq
  rw [Nat.shiftLeft_eq]
  generalize dropBits num den = d at *
  have hD : 0 < den * 2 ^ d := Nat.mul_pos hd (Nat.two_pow_pos _)
  have key := divRne_nearest_multiple (num := num) hD
  generalize divRne num (den * 2 ^ d) = q at *
  have ec : ∀ k : Int, k * ((den * 2 ^ d : Nat) : Int) = k * 2 ^ d * den := fun k => by push_cast; ring
  simp only [ec] at key
  intro q' n
  by_cases hk : ∃ k : Int, m = k * 2 ^ d
  · obtain ⟨k, rfl⟩ := hk
    refine ⟨(key k).1, fun hne => (key k).2 fun h => hne ?_⟩
    rw [h]
  · obtain ⟨a, b, ha, hab⟩ := hm
    have hbd : b < d := by
      by_contra hge
      refine hk ?_
      have : m.natAbs = a * 2 ^ (b - d) * 2 ^ d := by
        rw [hab, Nat.mul_assoc, ← Nat.pow_add, Nat.sub_add_cancel (by omega)]
      rcases Int.natAbs_eq m with h | h
      · exact ⟨((a * 2 ^ (b - d) : Nat) : Int), by rw [h, this]; push_cast; ring⟩
      · exact ⟨-((a * 2 ^ (b - d) : Nat) : Int), by rw [h, this]; push_cast; ring⟩
    have hlt : m.natAbs < 2 ^ (52 + d) := by
      rw [hab]
      calc a * 2 ^ b < 2 ^ 53 * 2 ^ b := Nat.mul_lt_mul_of_pos_right ha (Nat.two_pow_pos _)
        _ = 2 ^ (53 + b) := (Nat.pow_add _ _ _).symm
        _ ≤ 2 ^ (52 + d) := Nat.pow_le_pow_right (by omega) (by omega)
    have hnum : ((2 ^ 52 : Int) * 2 ^ d) * den ≤ num := by
      have := hpos (by omega)
      have e : den * 2 ^ (52 + d) = 2 ^ 52 * 2 ^ d * den := by rw [Nat.pow_add]; ring
      rw [e] at this
      exact_mod_cast this
    have hmden : m * den < (2 ^ 52 * 2 ^ d : Int) * den := by
      refine mul_lt_mul_of_pos_right ?_ (by exact_mod_cast hd)
      have h1 : (m.natAbs : Int) < 2 ^ (52 + d) := by exact_mod_cast hlt
      rw [pow_add] at h1
      exact (Int.le_natAbs).trans_lt h1
    have hstrict : |n * den - num| < |m * den - num| := by
      refine (key (2 ^ 52)).1.trans_lt ?_
      rw [abs_of_nonpos (by linarith), abs_of_nonpos (by linarith)]
      linarith
    exact ⟨hstrict.le, fun _ h => absurd h hstrict.ne'⟩

/-- The rounded magnitude is finite exactly below the point halfway between the largest finite number and
2^1024, which is `(2^54 - 1) * 2^2044` units. -/
theorem roundMag_finite_iff {num den j : Nat} (hj : j = 2044) (hd : 0 < den)
    (hq : (num / den) >>> 8192 = 0) :
    dropBits num den * 2 ^ 52 + divRne num (den <<< dropBits num den) < 9218868437227405312 ↔
      num < den * ((2 ^ 54 - 1) * 2 ^ j) := by
  obtain ⟨hle, hge⟩ := significand_bounds hd hq
  have hpos := dropBits_pos hd hq
  rw [Nat.shiftLeft_eq] at *
  generalize hds : dropBits num den = d at *
  have hD : 0 < den * 2 ^ d := Nat.mul_pos hd (Nat.two_pow_pos _)
  obtain ⟨⟨h1, h2⟩, h3⟩ := divRne_nearest (num := num) hD
  generalize divRne num (den * 2 ^ d) = q at *
  have e52 : (2 : Nat) ^ 52 = 4503599627370496 := by norm_num
  have e53 : (2 : Nat) ^ 53 = 9007199254740992 := by norm_num
  have e54 : (2 : Nat) ^ 54 = 18014398509481984 := by norm_num
  rw [e53] at hle
  rw [e52] at hge
  rw [e52, e54]
  obtain ⟨X, hX⟩ : ∃ X, den * 2 ^ j = X := ⟨_, rfl⟩
  have hXpos : 0 < X := hX ▸ Nat.mul_pos hd (Nat.two_pow_pos _)
  have eT : den * ((18014398509481984 - 1) * 2 ^ j) = 18014398509481983 * X := by rw [← hX]; ring
  rw [eT]
  rcases Nat.lt_trichotomy d (j + 1) with hlt | heq | hgt
  · refine ⟨fun _ => ?_, fun _ => by omega⟩
    have hDX : den * 2 ^ d ≤ X := hX ▸ Nat.mul_le_mul_left _ (Nat.pow_le_pow_right (by omega) (by omega))
    have : den * 2 ^ d * (2 * q + 1) ≤ X * 18014398509481985 := Nat.mul_le_mul hDX (by omega)
    omega
  · have hDX : den * 2 ^ d = 2 * X := by rw [heq, Nat.pow_succ, ← hX]; ring
    rw [hDX] at h1 h2 h3
    constructor
    · intro hf
      have hqle : 2 * q + 1 ≤ 18014398509481983 := by omega
      have h4 : 2 * X * (2 * q + 1) ≤ 2 * X * 18014398509481983 := Nat.mul_le_mul_left _ hqle
      by_contra hn
      have h5 : 2 * num = 2 * X * (2 * q + 1) := by omega
      have h6 : 2 * X * (2 * q + 1) = 2 * X * 18014398509481983 := by omega
      have h7 : 2 * q + 1 = 18014398509481983 := Nat.eq_of_mul_eq_mul_left (by omega) h6
      have := h3 (.inl h5)
      omega
    · intro hn
      by_contra hf
      have hq53 : q = 9007199254740992 := by omega
      subst hq53
      omega
  · have hp := hpos (by omega)
    have h4 : X * 18014398509481984 ≤ num := by
      refine Nat.le_trans ?_ hp
      rw [← hX, Nat.mul_assoc, ← e54, ← Nat.pow_add]
      exact Nat.mul_le_mul_left _ (Nat.pow_le_pow_right (by omega) (by omega))
    refine ⟨fun hf => ?_, fun hn => by omega⟩
    have := hge (by omega)
    omega

/-- A finite magnitude has at most 53 significant bits (40_transform R100). -/
theorem unpack_significand {x : F64} {neg : Bool} {m : Nat} (h : unpack x = .fin neg m) :
    ∃ a b, a < 2 ^ 53 ∧ b < 2048 ∧ m = a * 2 ^ b := by
  have hf : fracField x < 4503599627370496 := Nat.mod_lt _ (by decide)
  have he : expField x < 2048 := Nat.mod_lt _ (by decide)
  have e53 : (2 : Nat) ^ 53 = 9007199254740992 := by norm_num
  rw [e53]
  unfold unpack at h
  split at h
  · split at h <;> cases h
  · split at h
    · injection h with _ h2
      exact ⟨m, 0, by omega, by omega, by simp⟩
    · injection h with _ h2
      exact ⟨4503599627370496 + fracField x, expField x - 1, by omega, by omega,
        by rw [← h2, Nat.shiftLeft_eq]⟩

/-- Rounding keeps a power-of-two bound below 2^1024: the result is finite and no larger. -/
theorem roundUnits_le (neg : Bool) {num den j : Nat} (hd : 0 < den) (h : num ≤ den * 2 ^ j)
    (hj : j < 2098) : ∃ m, unpack (roundUnits neg num den) = .fin neg m ∧ m ≤ 2 ^ j := by
  have hqj : num / den ≤ 2 ^ j := Nat.div_le_of_le_mul h
  have hq : (num / den) >>> 8192 = 0 :=
    shiftRight_eq_zero_of_lt (k := j + 1)
      (hqj.trans_lt (Nat.pow_lt_pow_right (by omega) (by omega))) (by omega)
  obtain ⟨hle, hge⟩ := significand_bounds hd hq
  rw [unpack_roundUnits neg hd hq]
  have e52 : (2 : Nat) ^ 52 = 4503599627370496 := by norm_num
  have e53 : (2 : Nat) ^ 53 = 9007199254740992 := by norm_num
  rcases Nat.eq_zero_or_pos (dropBits num den) with hs | hs
  · simp only [hs, Nat.shiftLeft_zero] at hle ⊢
    have hle' : divRne num den ≤ 2 ^ j := divRne_le hd h
    rw [if_pos (by omega)]
    exact ⟨_, rfl, by simpa using hle'⟩
  · have hdrop : dropBits num den + 52 = topBit (num / den) := by unfold dropBits at *; omega
    have h0 : num / den ≠ 0 := by
      intro h0
      rw [dropBits, h0] at hs
      exact absurd hs (by decide)
    have htop : topBit (num / den) ≤ j :=
      (Nat.pow_le_pow_iff_right (by omega)).mp ((topBit_spec h0 hq).1.trans hqj)
    have hle' : divRne num (den <<< dropBits num den) ≤ 2 ^ (j - dropBits num den) := by
      rw [Nat.shiftLeft_eq]
      refine divRne_le (Nat.mul_pos hd (Nat.two_pow_pos _)) ?_
      rw [Nat.mul_assoc, ← Nat.pow_add, Nat.add_sub_cancel' (by omega)]
      exact h
    have hmag : divRne num (den <<< dropBits num den) * 2 ^ dropBits num den ≤ 2 ^ j := by
      calc _ ≤ 2 ^ (j - dropBits num den) * 2 ^ dropBits num den := Nat.mul_le_mul_right _ hle'
        _ = 2 ^ j := by rw [← Nat.pow_add, Nat.sub_add_cancel (by omega)]
    have hfin : dropBits num den * 2 ^ 52 + divRne num (den <<< dropBits num den)
        < 9218868437227405312 := by
      rcases Nat.lt_or_ge (dropBits num den + 52) j with hlt | hgej
      · omega
      · have : j - dropBits num den = 52 := by omega
        rw [this] at hle'
        omega
    rw [if_pos hfin]
    exact ⟨_, rfl, hmag⟩

/-- A magnitude that 53 bits hold is not changed by rounding. -/
theorem roundUnits_exact (neg : Bool) {den a b : Nat} (hd : 0 < den) (ha : a < 2 ^ 53) (hb : b ≤ 2045) :
    unpack (roundUnits neg (den * (a * 2 ^ b)) den) = .fin neg (a * 2 ^ b) := by
  have hq : den * (a * 2 ^ b) / den = a * 2 ^ b := Nat.mul_div_cancel_left _ hd
  have hlt : a * 2 ^ b < 2 ^ (53 + b) := by
    rw [Nat.pow_add]
    exact Nat.mul_lt_mul_of_pos_right ha (Nat.two_pow_pos _)
  have hsm : (den * (a * 2 ^ b) / den) >>> 8192 = 0 := by
    rw [hq]
    exact shiftRight_eq_zero_of_lt hlt (by omega)
  have e52 : (2 : Nat) ^ 52 = 4503599627370496 := by norm_num
  have e53 : (2 : Nat) ^ 53 = 9007199254740992 := by norm_num
  have hle := (significand_bounds hd hsm).1
  rw [unpack_roundUnits neg hd hsm]
  generalize hs : dropBits (den * (a * 2 ^ b)) den = sh at *
  have hsb : sh ≤ b := by
    rcases Nat.eq_zero_or_pos sh with h | h
    · omega
    · have hdrop : sh + 52 = topBit (a * 2 ^ b) := by
        have := hs
        rw [dropBits, hq] at this
        omega
      have h0 : a * 2 ^ b ≠ 0 := by
        intro h0
        rw [dropBits, hq, h0] at hs
        rw [← hs] at h
        exact absurd h (by decide)
      have htop := (topBit_spec h0 (by rw [← hq]; exact hsm)).1
      have := (Nat.pow_lt_pow_iff_right (by omega : 1 < 2)).mp (htop.trans_lt hlt)
      omega
  have hval : divRne (den * (a * 2 ^ b)) (den <<< sh) = a * 2 ^ (b - sh) := by
    rw [Nat.shiftLeft_eq]
    have : den * (a * 2 ^ b) = den * 2 ^ sh * (a * 2 ^ (b - sh)) := by
      have hp : (2 : Nat) ^ b = 2 ^ sh * 2 ^ (b - sh) := by
        rw [← Nat.pow_add, Nat.add_sub_cancel' hsb]
      rw [hp]; ring
    rw [this, divRne_mul (Nat.mul_pos hd (Nat.two_pow_pos _))]
  rw [hval] at hle ⊢
  have hmag : a * 2 ^ (b - sh) * 2 ^ sh = a * 2 ^ b := by
    rw [Nat.mul_assoc, ← Nat.pow_add, Nat.sub_add_cancel hsb]
  have hfin : sh * 2 ^ 52 + a * 2 ^ (b - sh) < 9218868437227405312 := by
    by_cases h : sh = b
    · subst h
      simp only [Nat.sub_self, Nat.pow_zero, Nat.mul_one]
      omega
    · omega
  rw [if_pos hfin, hmag]

/-! ### Bounded numbers -/

/-- A finite number of at most 2^j units. -/
def Bounded (j : Nat) (x : F64) : Prop := ∃ neg m, unpack x = .fin neg m ∧ m ≤ 2 ^ j

theorem unpack_zero : unpack 0#64 = .fin false 0 := by decide +kernel

theorem bounded_zero (j : Nat) : Bounded j 0#64 := ⟨false, 0, unpack_zero, Nat.zero_le _⟩

theorem Bounded.mono {i j : Nat} {x : F64} (h : Bounded i x) (hij : i ≤ j) : Bounded j x := by
  obtain ⟨neg, m, hx, hm⟩ := h
  exact ⟨neg, m, hx, hm.trans (Nat.pow_le_pow_right (by omega) hij)⟩

theorem bounded_roundUnits (neg : Bool) {num den j : Nat} (hd : 0 < den) (h : num ≤ den * 2 ^ j)
    (hj : j < 2098) : Bounded j (roundUnits neg num den) := by
  obtain ⟨m, hm, hle⟩ := roundUnits_le neg hd h hj
  exact ⟨neg, m, hm, hle⟩

theorem bounded_fadd {j : Nat} {x y : F64} (hx : Bounded j x) (hy : Bounded j y) (hj : j + 1 < 2098) :
    Bounded (j + 1) (fadd x y) := by
  obtain ⟨a, m, hxm, hm⟩ := hx
  obtain ⟨b, n, hyn, hn⟩ := hy
  have hp : (2 : Nat) ^ (j + 1) = 2 ^ j + 2 ^ j := by rw [Nat.pow_succ]; omega
  rw [fadd, hxm, hyn, addVal]
  split
  · exact bounded_roundUnits _ (by omega) (by omega) hj
  · split
    · exact bounded_roundUnits _ (by omega) (by omega) hj
    · split
      · exact bounded_roundUnits _ (by omega) (by omega) hj
      · exact bounded_zero _

/-- Beyond a power of two, an excess of less than half a place is rounded away. -/
theorem bounded_roundUnits_absorb (neg : Bool) {num i j : Nat} (h : num ≤ 2 ^ j + 2 ^ i) (hij : i + 54 ≤ j)
    (hj : j < 2097) : Bounded j (roundUnits neg num 1) := by
  by_cases hle : num ≤ 2 ^ j
  · exact bounded_roundUnits neg Nat.one_pos (by omega) (by omega)
  · have hi2 : 2 * 2 ^ i < 2 ^ (j - 52) := by
      rw [Nat.mul_comm, ← Nat.pow_succ]
      exact Nat.pow_lt_pow_right (by omega) (by omega)
    have ej : 2 ^ 52 * 2 ^ (j - 52) = 2 ^ j := by rw [← Nat.pow_add, Nat.add_sub_cancel' (by omega)]
    have hlt : num < 2 ^ (j + 1) := by
      have : 2 ^ i < 2 ^ j := Nat.pow_lt_pow_right (by omega) (by omega)
      rw [Nat.pow_succ]
      omega
    have hq : (num / 1) >>> 8192 = 0 :=
      shiftRight_eq_zero_of_lt (by rwa [Nat.div_one]) (by omega)
    have hpos : 0 < 2 ^ j := Nat.two_pow_pos _
    have h0 : num ≠ 0 := by omega
    obtain ⟨hlo, hhi⟩ := topBit_spec h0 (by rwa [Nat.div_one] at hq)
    have htop : topBit num = j := by
      have h1 := (Nat.pow_lt_pow_iff_right (by omega : 1 < 2)).mp (hlo.trans_lt hlt)
      have h2 := (Nat.pow_lt_pow_iff_right (by omega : 1 < 2)).mp ((Nat.lt_of_not_le hle).trans hhi)
      omega
    have hd : dropBits num 1 = j - 52 := by rw [dropBits, Nat.div_one, htop]
    have hval : divRne num (1 <<< (j - 52)) = 2 ^ 52 := by
      rw [Nat.one_shiftLeft]
      generalize 2 ^ (j - 52) = D at *
      have hmod : num % D = num - D * 2 ^ 52 ∧ num / D = 2 ^ 52 := by
        have hD : 0 < D := by omega
        rw [← ej, Nat.mul_comm] at h hle
        have hd : num / D = 2 ^ 52 := by
          refine Nat.div_eq_of_lt_le (by rw [Nat.mul_comm]; omega) ?_
          rw [Nat.add_mul, Nat.one_mul, Nat.mul_comm]
          omega
        refine ⟨?_, hd⟩
        have := Nat.div_add_mod num D
        rw [hd] at this
        omega
      rw [divRne, hmod.1, hmod.2, if_pos]
      rw [← ej, Nat.mul_comm] at h
      omega
    have hfin : (j - 52) * 2 ^ 52 + 2 ^ 52 < 9218868437227405312 := by
      have e52 : (2 : Nat) ^ 52 = 4503599627370496 := by norm_num
      omega
    refine ⟨neg, 2 ^ j, ?_, le_refl _⟩
    rw [unpack_roundUnits neg Nat.one_pos hq, hd, hval, if_pos hfin, ej]

/-- Adding a number too small to change the bound: a sum of any number of such terms stays below it. -/
theorem bounded_fadd_absorb {i j : Nat} {x y : F64} (hx : Bounded j x) (hy : Bounded i y)
    (hij : i + 54 ≤ j) (hj : j < 2097) : Bounded j (fadd x y) := by
  obtain ⟨a, m, hxm, hm⟩ := hx
  obtain ⟨b, n, hyn, hn⟩ := hy
  rw [fadd, hxm, hyn, addVal]
  split
  · exact bounded_roundUnits_absorb _ (by omega) hij hj
  · split
    · exact bounded_roundUnits_absorb _ (by omega) hij hj
    · split
      · exact bounded_roundUnits_absorb _ (by omega) hij hj
      · exact bounded_zero _

theorem mul_le_shiftLeft_mul {k j m n : Nat} (hm : m ≤ 2 ^ k) (hn : n ≤ 2 ^ j) :
    m * n ≤ (1 <<< k) * 2 ^ j := by
  rw [Nat.one_shiftLeft]
  exact Nat.mul_le_mul hm hn

theorem one_shiftLeft_pos (k : Nat) : 0 < 1 <<< k := by
  rw [Nat.one_shiftLeft]
  exact Nat.two_pow_pos k

theorem bounded_roundUnits_mul (neg : Bool) {k j m n : Nat} (hm : m ≤ 2 ^ k) (hn : n ≤ 2 ^ j)
    (hj : j < 2098) : Bounded j (roundUnits neg (m * n) (1 <<< k)) :=
  bounded_roundUnits _ (one_shiftLeft_pos k) (mul_le_shiftLeft_mul hm hn) hj

theorem mulVal_fin (a b : Bool) (m n : Nat) :
    mulVal (.fin a m) (.fin b n) = roundUnits (a ^^ b) (m * n) (1 <<< 1074) := rfl

theorem bounded_mulVal {k j m n : Nat} (hk : k = 1074) (hm : m ≤ 2 ^ k) (hn : n ≤ 2 ^ j)
    (hj : j < 2098) (a b : Bool) : Bounded j (mulVal (.fin a m) (.fin b n)) := by
  rw [mulVal_fin, ← hk]
  exact bounded_roundUnits_mul (a ^^ b) hm hn hj

/-- A factor of magnitude at most 1, which is 2^1074 units, keeps a bound. -/
theorem bounded_fmul {k j : Nat} {x y : F64} (hk : k = 1074) (hx : Bounded k x) (hy : Bounded j y)
    (hj : j < 2098) : Bounded j (fmul x y) := by
  obtain ⟨a, m, hxm, hm⟩ := hx
  obtain ⟨b, n, hyn, hn⟩ := hy
  rw [fmul, hxm, hyn]
  exact bounded_mulVal hk hm hn hj a b

theorem divVal_fin {a b : Bool} {m n : Nat} (hn : n ≠ 0) :
    divVal (.fin a m) (.fin b n) = roundUnits (a ^^ b) (m <<< 1074) n := if_neg hn

/-- A divisor of magnitude at least 1, which is 2^1074 units, keeps a bound. -/
theorem bounded_fdiv {k j n : Nat} {b : Bool} {x y : F64} (hk : k = 1074) (hx : Bounded j x)
    (hy : unpack y = .fin b n) (hn : 2 ^ k ≤ n) (hj : j < 2098) : Bounded j (fdiv x y) := by
  obtain ⟨a, m, hxm, hm⟩ := hx
  have hpos : 0 < n := (Nat.two_pow_pos k).trans_le hn
  rw [fdiv, hxm, hy, divVal_fin hpos.ne', ← hk]
  refine bounded_roundUnits _ hpos ?_ hj
  rw [Nat.shiftLeft_eq, Nat.mul_comm]
  exact Nat.mul_le_mul hn hm

theorem fneg_toNat (x : F64) : (fneg x).toNat = (x.toNat + 9223372036854775808) % 2 ^ 64 := by
  have h : (0x8000000000000000#64 : F64).toNat = 9223372036854775808 := by decide
  rw [fneg, BitVec.toNat_add, h]
theorem expField_fneg (x : F64) : expField (fneg x) = expField x := by
  unfold expField
  rw [fneg_toNat, Nat.shiftRight_eq_div_pow, Nat.shiftRight_eq_div_pow]
  omega
theorem fracField_fneg (x : F64) : fracField (fneg x) = fracField x := by
  unfold fracField
  rw [fneg_toNat]
  omega
theorem signField_fneg (x : F64) : signField (fneg x) = !signField x := by
  have hx := x.isLt
  unfold signField
  rw [fneg_toNat, Bool.eq_iff_iff, Bool.not_eq_true', ← Bool.not_eq_true, Nat.ble_eq, Nat.ble_eq]
  omega
/-- The datum of a negated pattern. -/
theorem unpack_fneg (x : F64) : unpack (fneg x) =
    match unpack x with
    | .nan => .nan
    | .inf neg => .inf (!neg)
    | .fin neg m => .fin (!neg) m := by
  unfold unpack
  rw [expField_fneg, fracField_fneg, signField_fneg]
  by_cases h : expField x = 2047
  · simp only [h, if_true]
    split <;> simp
  · simp only [h, if_false]
    split <;> simp

theorem bounded_fneg {j : Nat} {x : F64} (h : Bounded j x) : Bounded j (fneg x) := by
  obtain ⟨neg, m, hx, hm⟩ := h
  exact ⟨!neg, m, by rw [unpack_fneg, hx], hm⟩

theorem bounded_fsub {j : Nat} {x y : F64} (hx : Bounded j x) (hy : Bounded j y) (hj : j + 1 < 2098) :
    Bounded (j + 1) (fsub x y) :=
  bounded_fadd hx (bounded_fneg hy) hj

/-- `f64(n)` is exact below 2^53 (00_scope R10). -/
theorem unpack_fofNat {n : Nat} (h : n < 2 ^ 53) : unpack (fofNat n) = .fin false (n <<< 1074) := by
  have key : ∀ b, b ≤ 2045 → unpack (roundUnits false (n <<< b) 1) = .fin false (n <<< b) := by
    intro b hb
    have := roundUnits_exact false (den := 1) (a := n) (b := b) (by omega) h hb
    rwa [Nat.one_mul, ← Nat.shiftLeft_eq] at this
  exact key 1074 (by omega)

/-! ### Numbers that are neither negative nor NaN -/

theorem nonNeg_zero : notNegative 0#64 := by
  unfold notNegative
  decide

theorem packSign_false_toNat {m : Nat} (h : m ≤ 9218868437227405312) :
    (packSign false m).toNat = m := by
  simp [packSign]
  omega

theorem nonNeg_roundUnits (num den : Nat) : notNegative (roundUnits false num den) := by
  have h : roundMag num den ≤ 9218868437227405312 := Nat.min_le_right _ _
  unfold notNegative roundUnits
  rw [packSign_false_toNat h]
  exact h

theorem nonNeg_infinity : notNegative (infinity false) := by
  unfold notNegative
  decide

/-- What a pattern that is neither negative nor NaN stands for. -/
theorem unpack_nonNeg {x : F64} (h : notNegative x) :
    unpack x = .inf false ∨ ∃ m, unpack x = .fin false m := by
  unfold notNegative at h
  have hx : x = packSign false x.toNat := by
    apply BitVec.eq_of_toNat_eq
    rw [packSign_false_toNat h]
  rcases Nat.lt_or_ge x.toNat 9218868437227405312 with hlt | hge
  · right
    rw [hx, unpack_packSign hlt]
    exact ⟨_, rfl⟩
  · left
    have : x.toNat = 9218868437227405312 := by omega
    rw [hx, this]
    exact unpack_infinity false

theorem nonNeg_fadd {x y : F64} (hx : notNegative x) (hy : notNegative y) : notNegative (fadd x y) := by
  rcases unpack_nonNeg hx with hx | ⟨m, hx⟩ <;> rcases unpack_nonNeg hy with hy | ⟨n, hy⟩ <;>
    rw [fadd, hx, hy, addVal]
  · rw [if_pos rfl]; exact nonNeg_infinity
  · exact nonNeg_infinity
  · exact nonNeg_infinity
  · rw [if_pos rfl]; exact nonNeg_roundUnits _ _

theorem nonNeg_fdiv {x y : F64} {n : Nat} (hx : notNegative x) (hy : unpack y = .fin false n)
    (hn : n ≠ 0) : notNegative (fdiv x y) := by
  rcases unpack_nonNeg hx with hx | ⟨m, hx⟩ <;> rw [fdiv, hx, hy, divVal]
  · exact nonNeg_infinity
  · rw [if_neg hn]; exact nonNeg_roundUnits _ _

/-- The absolute value of a number is neither negative nor NaN. -/
theorem nonNeg_fabs {j : Nat} {x : F64} (h : Bounded j x) : notNegative (fabs x) := by
  obtain ⟨neg, m, hx, -⟩ := h
  have hlt := x.isLt
  have hn : (fabs x).toNat = x.toNat % 2 ^ 63 := by
    rw [fabs, BitVec.toNat_and]
    exact Nat.and_two_pow_sub_one_eq_mod x.toNat 63
  have hexp : expField x ≠ 2047 := by
    intro he
    rw [unpack, if_pos he] at hx
    split at hx <;> cases hx
  unfold expField at hexp
  rw [Nat.shiftRight_eq_div_pow] at hexp
  unfold notNegative
  rw [hn]
  omega

/-! ### Comparison -/

/-- `x < y` by the order keys. -/
theorem flt_eq_true_iff {x y : F64} :
    flt x y = true ↔ ∃ a b, orderKey (unpack x) = some a ∧ orderKey (unpack y) = some b ∧ a < b := by
  unfold flt
  split
  · next a b ha hb => simp [ha, hb]
  · next h =>
    constructor
    · intro h; cases h
    · rintro ⟨a, b, ha, hb, -⟩
      exact absurd hb (h a b ha)

/-- A number that is neither negative nor NaN has a place in the order. -/
theorem orderKey_nonNeg {x : F64} (h : notNegative x) : ∃ a, orderKey (unpack x) = some a := by
  rcases unpack_nonNeg h with h | ⟨m, h⟩ <;> exact ⟨_, by rw [h]; rfl⟩

end Sys2Proof.Machine
end

