-- ==== Sys2Proof/Laws/Search.lean ====
section
/-! SUPPORT. Every number the engine derives from pixel bytes is finite, so an energy is never negative
and never a NaN; and what the search keeps is no worse than anything it has seen. -/

namespace Sys2Proof.Machine

/-! ### Blocks -/

@[simp] theorem block64_length (f : Nat → F64) : (block64 f).length = 64 := by simp [block64]

@[simp] theorem fdct_length (xs : List F64) : (fdct xs).length = 64 := block64_length _

@[simp] theorem idct_length (xs : List F64) : (idct xs).length = 64 := block64_length _

@[simp] theorem loadBlock_length (px : Nat → Nat → Rgb) (x0 y0 : Nat) (rot : Rotation) :
    (loadBlock px x0 y0 rot).length = 64 := block64_length _

@[simp] theorem margin_length (c : List F64) (b : Bool) (p : F64) :
    (margin c b p).length = c.length := by
  unfold margin
  split <;> split <;> simp

theorem entry_block64 (f : Nat → F64) {k : Nat} (h : k < 64) : entry (block64 f) k = f k := by
  simp [entry, block64, h]

theorem entry_of_le {xs : List F64} {k : Nat} (h : xs.length ≤ k) : entry xs k = 0#64 := by
  simp [entry, h]

theorem entry_of_lt {xs : List F64} {k : Nat} (h : k < xs.length) : entry xs k = xs[k] := by
  simp [entry, h]

theorem bounded_entry_block64 {j : Nat} {f : Nat → F64} (h : ∀ k, k < 64 → Bounded j (f k)) (k : Nat) :
    Bounded j (entry (block64 f) k) := by
  by_cases hk : k < 64
  · rw [entry_block64 f hk]; exact h k hk
  · rw [entry_of_le (by simp; omega)]; exact bounded_zero j

/-! ### The transform keeps a bound up to 2^16 -/

/-- A sum of eight terms grows by less than 2^8. -/
theorem bounded_dot8 {j : Nat} {a b : Nat → F64}
    (h : ∀ k, k < 8 → Bounded j (fmul (a k) (b k))) (hj : j + 8 < 2098) :
    Bounded (j + 8) (dot8 a b) := by
  have key : ∀ ks : List Nat, (∀ k ∈ ks, k < 8) → ∀ i s, i + ks.length < 2098 → j ≤ i →
      Bounded i s →
      Bounded (i + ks.length) (ks.foldl (fun s k => fadd s (fmul (a k) (b k))) s) := by
    intro ks
    induction ks with
    | nil => intro _ i s _ _ hs; exact hs
    | cons k ks ih =>
      intro hk i s hi hji hs
      simp only [List.length_cons] at hi
      have h1 : Bounded (i + 1) (fadd s (fmul (a k) (b k))) :=
        bounded_fadd hs ((h k (hk k List.mem_cons_self)).mono hji) (by omega)
      have h2 := ih (fun x hx => hk x (List.mem_cons_of_mem _ hx)) (i + 1) _ (by omega) (by omega) h1
      have : i + (k :: ks).length = i + 1 + ks.length := by simp only [List.length_cons]; omega
      rw [this]
      exact h2
  have := key (List.range 8) (fun k hk => List.mem_range.mp hk) j 0#64 (by simpa using hj)
    (Nat.le_refl _) (bounded_zero j)
  simpa [dot8] using this

/-- A pattern whose exponent field is below that of 1.0 stands for at most 2^1074 units. -/
theorem bounded_of_expField {x : F64} {k : Nat} (hk : k = 1074) (h : expField x < 1023) : Bounded k x := by
  have hf : fracField x < 2 ^ 52 := by
    have : (2 : Nat) ^ 52 = 4503599627370496 := by norm_num
    unfold fracField
    omega
  by_cases h0 : expField x = 0
  · refine ⟨signField x, fracField x, by simp [unpack, h0], hf.le.trans ?_⟩
    exact Nat.pow_le_pow_right (by omega) (by omega)
  · refine ⟨signField x, (4503599627370496 + fracField x) <<< (expField x - 1), ?_, ?_⟩
    · rw [unpack, if_neg (by omega), if_neg h0]
    · have e53 : (2 : Nat) ^ 53 = 9007199254740992 := by norm_num
      have e52 : (2 : Nat) ^ 52 = 4503599627370496 := by norm_num
      rw [Nat.shiftLeft_eq]
      calc (4503599627370496 + fracField x) * 2 ^ (expField x - 1)
          ≤ 2 ^ 53 * 2 ^ (expField x - 1) := Nat.mul_le_mul_right _ (by omega)
        _ = 2 ^ (53 + (expField x - 1)) := by rw [Nat.pow_add]
        _ ≤ 2 ^ k := Nat.pow_le_pow_right (by omega) (by omega)

theorem basis_expField : ∀ k, k < 64 → expField (basisRom.getD k 0#64) < 1023 := by decide +kernel

/-- Every basis value has a magnitude of at most 1. -/
theorem bounded_basis {k : Nat} (hk : k = 1074) {u x : Nat} (hu : u < 8) (hx : x < 8) :
    Bounded k (basis u x) :=
  bounded_of_expField hk (basis_expField _ (by omega))

/-- A sum of eight products with the basis grows by less than 2^8. -/
theorem bounded_dot8_basis {j k : Nat} (hk : k = 1074) {m a : Nat → F64} (hj : j + 8 < 2098)
    (hm : ∀ i, i < 8 → Bounded k (m i)) (ha : ∀ i, Bounded j (a i)) : Bounded (j + 8) (dot8 m a) :=
  bounded_dot8 (fun i hi => bounded_fmul hk (hm i hi) (ha i) (by omega)) hj

theorem bounded_fdctRows {j : Nat} {xs : List F64} (hj : j + 8 < 2098)
    (h : ∀ k, Bounded j (entry xs k)) (k : Nat) : Bounded (j + 8) (entry (fdctRows xs) k) := by
  obtain ⟨b, hb⟩ : ∃ b, b = 1074 := ⟨_, rfl⟩
  unfold fdctRows
  refine bounded_entry_block64 (fun i hi => ?_) k
  exact bounded_dot8_basis hb hj (fun k hk => bounded_basis hb (by omega) hk) (fun k => h _)

theorem bounded_fdctCols {j : Nat} {xs : List F64} (hj : j + 8 < 2098)
    (h : ∀ k, Bounded j (entry xs k)) (k : Nat) : Bounded (j + 8) (entry (fdctCols xs) k) := by
  obtain ⟨b, hb⟩ : ∃ b, b = 1074 := ⟨_, rfl⟩
  unfold fdctCols
  refine bounded_entry_block64 (fun i hi => ?_) k
  exact bounded_dot8_basis hb hj (fun k hk => bounded_basis hb (by omega) hk) (fun k => h _)

/-- The transform keeps a bound up to 2^16 (40_transform R110 has 2^3). -/
theorem bounded_fdct {j : Nat} {xs : List F64} (hj : j + 8 + 8 < 2098)
    (h : ∀ k, Bounded j (entry xs k)) (k : Nat) : Bounded (j + 8 + 8) (entry (fdct xs) k) := by
  unfold fdct
  exact bounded_fdctCols hj (bounded_fdctRows (by omega) h) k

/-! ### Luma and block differences -/

/-- A luma is finite (41_embed R120). -/
theorem bounded_luma (p : Rgb) : Bounded 1085 (luma p) := by
  have hbyte : ∀ v : Byte, Bounded 1082 (fofNat v.toNat) := by
    intro v
    have hv := v.isLt
    refine ⟨false, v.toNat <<< 1074, unpack_fofNat (by omega), ?_⟩
    have key : ∀ a b : Nat, a = 8 + b → v.toNat <<< b ≤ 2 ^ a := by
      rintro a b rfl
      rw [Nat.shiftLeft_eq, Nat.pow_add]
      exact Nat.mul_le_mul_right _ (by omega)
    exact key 1082 1074 (by omega)
  have hK : ∀ x : F64, expField x < 1023 → ∀ v : Byte, Bounded 1082 (fmul x (fofNat v.toNat)) :=
    fun x hx v => bounded_fmul rfl (bounded_of_expField rfl hx) (hbyte v) (by omega)
  have h128 : Bounded 1084 0x4060000000000000#64 := by
    have h := unpack_fofNat (n := 128) (by norm_num)
    have hx : fofNat 128 = 0x4060000000000000#64 := by decide +kernel
    rw [hx] at h
    refine ⟨_, _, h, ?_⟩
    have key : ∀ a b : Nat, a = 10 + b → 128 <<< b ≤ 2 ^ a := by
      rintro a b rfl
      rw [Nat.shiftLeft_eq, Nat.pow_add]
      exact Nat.mul_le_mul_right _ (by omega)
    exact key 1084 1074 (by omega)
  have h1 := bounded_fadd (hK lumaR (by decide +kernel) p.r) (hK lumaG (by decide +kernel) p.g) (by omega)
  have h2 := bounded_fadd h1 ((hK lumaB (by decide +kernel) p.b).mono (by omega)) (by omega)
  exact bounded_fsub h2 h128 (by omega)

/-- A block difference is finite (42_search R144). -/
theorem bounded_blockDiff (px : Nat → Nat → Rgb) (x0 y0 : Nat) (rot : Rotation) :
    Bounded 1102 (blockDiff px x0 y0 rot) := by
  have h := bounded_fdct (j := 1085) (by omega)
    (bounded_entry_block64 (f := fun i =>
      luma (px (x0 + (srcPos rot (i % 8) (i / 8)).1) (y0 + (srcPos rot (i % 8) (i / 8)).2)))
      fun k _ => bounded_luma _)
  exact bounded_fsub (h 35) (h 28) (by omega)

/-! ### Energies -/

theorem nonNeg_hypSum (px : Nat → Nat → Rgb) (w h : Nat) (hyp : Hyp) (stride : Nat) :
    notNegative (hypSum px w h hyp stride) := by
  unfold hypSum
  generalize raster _ _ = bs
  suffices key : ∀ s, notNegative s → notNegative (bs.foldl (fun sum ij =>
      fadd sum (fabs (blockDiff px (hyp.ox + stride * ij.1) (hyp.oy + stride * ij.2) hyp.rot))) s) from
    key _ nonNeg_zero
  induction bs with
  | nil => exact fun s hs => hs
  | cons b bs ih => exact fun s hs => ih _ (nonNeg_fadd hs (nonNeg_fabs (bounded_blockDiff px _ _ _)))

theorem samples_le (size o stride : Nat) : samples size o stride ≤ size := by
  unfold samples
  split
  · have := Nat.div_le_self (size - o - 8) stride
    omega
  · omega

/-- The energy of a hypothesis is never negative and never a NaN (42_search R145). -/
theorem nonNeg_hypEnergy (px : Nat → Nat → Rgb) {w h : Nat} (hw : w < 8192) (hh : h < 8192) (hyp : Hyp)
    (stride : Nat) : notNegative (hypEnergy px w h hyp stride) := by
  unfold hypEnergy
  split
  · exact nonNeg_zero
  · next hn =>
    have hle : hypCount w h hyp stride ≤ 8192 * 8192 :=
      Nat.mul_le_mul ((samples_le _ _ _).trans hw.le) ((samples_le _ _ _).trans hh.le)
    refine nonNeg_fdiv (nonNeg_hypSum px w h hyp stride) (unpack_fofNat (by omega)) ?_
    have key : ∀ b, hypCount w h hyp stride <<< b ≠ 0 := by
      intro b
      rw [Nat.shiftLeft_eq]
      exact Nat.mul_ne_zero hn (Nat.two_pow_pos _).ne'
    exact key 1074

/-! ### What the search keeps -/

/-- A comparison that is false keeps being false against what is smaller or equal. -/
theorem flt_false_trans {x y z : F64} (hxy : flt x y = false) (hyz : flt y z = false)
    (hy : notNegative y) : flt x z = false := by
  rw [← Bool.not_eq_true] at *
  rw [flt_eq_true_iff] at *
  rintro ⟨a, c, ha, hc, hac⟩
  obtain ⟨b, hb⟩ := orderKey_nonNeg hy
  have h1 : ¬ a < b := fun h => hxy ⟨a, b, ha, hb, h⟩
  have h2 : ¬ b < c := fun h => hyz ⟨b, c, hb, hc, h⟩
  omega

theorem flt_irrefl (x : F64) : flt x x = false := by
  rw [← Bool.not_eq_true, flt_eq_true_iff]
  rintro ⟨a, b, ha, hb, hab⟩
  rw [ha] at hb
  cases hb
  omega

theorem flt_asymm {x y : F64} (h : flt x y = true) : flt y x = false := by
  rw [← Bool.not_eq_true, flt_eq_true_iff]
  obtain ⟨a, b, ha, hb, hab⟩ := flt_eq_true_iff.mp h
  rintro ⟨c, d, hc, hd, hcd⟩
  rw [ha] at hd
  rw [hb] at hc
  cases hc
  cases hd
  omega

/-- What is kept is the best so far or the candidate. -/
theorem keepBetter_cases (b c : Scored) :
    keepBetter b c = b ∧ flt b.energy c.energy = false ∨
      keepBetter b c = c ∧ flt b.energy c.energy = true := by
  unfold keepBetter
  cases h : flt b.energy c.energy <;> simp

/-- A pass over hypotheses keeps its start or one of them, with the energy of what it keeps. -/
theorem foldl_keepBetter_mem (px : Nat → Nat → Rgb) (w h : Nat) (hyps : List Hyp) (b : Scored)
    (hb : b = score px w h b.hyp) :
    let r := hyps.foldl (fun best hyp => keepBetter best (score px w h hyp)) b
    r = score px w h r.hyp ∧ (r.hyp = b.hyp ∨ r.hyp ∈ hyps) := by
  induction hyps generalizing b with
  | nil => exact ⟨hb, .inl rfl⟩
  | cons hyp hyps ih =>
    rcases keepBetter_cases b (score px w h hyp) with ⟨hk, -⟩ | ⟨hk, -⟩
    · obtain ⟨h1, h2⟩ := ih (keepBetter b (score px w h hyp)) (by rw [hk]; exact hb)
      rw [hk] at h1 h2
      simp only [List.foldl_cons, hk]
      exact ⟨h1, h2.imp id (List.mem_cons_of_mem _)⟩
    · obtain ⟨h1, h2⟩ := ih (keepBetter b (score px w h hyp)) (by rw [hk]; rfl)
      rw [hk] at h1 h2
      simp only [List.foldl_cons, hk]
      refine ⟨h1, .inr ?_⟩
      rcases h2 with h2 | h2
      · rw [h2]; exact List.mem_cons_self
      · exact List.mem_cons_of_mem _ h2

/-- A pass over hypotheses ends with an energy that neither its start nor any of them exceeds. -/
theorem foldl_keepBetter_max (px : Nat → Nat → Rgb) {w h : Nat} (hw : w < 8192) (hh : h < 8192)
    (hyps : List Hyp) (b : Scored) (hb : notNegative b.energy) :
    let r := hyps.foldl (fun best hyp => keepBetter best (score px w h hyp)) b
    notNegative r.energy ∧ flt r.energy b.energy = false ∧
      ∀ hyp ∈ hyps, flt r.energy (hypEnergy px w h hyp 16) = false := by
  induction hyps generalizing b with
  | nil => exact ⟨hb, flt_irrefl _, fun _ h => by cases h⟩
  | cons hyp hyps ih =>
    have hs : notNegative (score px w h hyp).energy := nonNeg_hypEnergy px hw hh hyp 16
    simp only [List.foldl_cons]
    rcases keepBetter_cases b (score px w h hyp) with ⟨hk, hf⟩ | ⟨hk, hf⟩
    · rw [hk]
      obtain ⟨h1, h2, h3⟩ := ih b hb
      refine ⟨h1, h2, fun x hx => ?_⟩
      rcases List.mem_cons.mp hx with rfl | hx
      · exact flt_false_trans h2 hf hb
      · exact h3 x hx
    · rw [hk]
      obtain ⟨h1, h2, h3⟩ := ih _ hs
      refine ⟨h1, flt_false_trans h2 (flt_asymm hf) hs, fun x hx => ?_⟩
      rcases List.mem_cons.mp hx with rfl | hx
      · exact h2
      · exact h3 x hx

end Sys2Proof.Machine
end

