-- ==== Sys2Proof/Laws/Commands.lean ====
section
/-! SUPPORT. What the checks of a command decide, what each shared part of the commands leaves in memory,
and that every command answers a next state. -/

namespace Sys2Proof.Machine

/-! ### Checks -/

/-- The image is valid: both sides are in 1..4096 (10_state R28, R29). -/
theorem State.imageInvalid_eq_false {s : State} : s.imageInvalid = false ↔
    (1 ≤ s.imgW.toNat ∧ s.imgW.toNat ≤ 4096) ∧ (1 ≤ s.imgH.toNat ∧ s.imgH.toNat ≤ 4096) := by
  simp only [State.imageInvalid, Bool.not_eq_false', Bool.and_eq_true, decide_eq_true_eq, and_assoc]
  rfl

theorem State.imageInvalid_eq_true {s : State} : s.imageInvalid = true ↔
    ¬ ((1 ≤ s.imgW.toNat ∧ s.imgW.toNat ≤ 4096) ∧ (1 ≤ s.imgH.toNat ∧ s.imgH.toNat ≤ 4096)) := by
  rw [← State.imageInvalid_eq_false, Bool.not_eq_false]

/-- A checked command ends with the first failing check or with its statements; in the second case no check
failed. -/
theorem runChecked_cases (s : State) (checks : List (Bool × Code)) (f : State → State) :
    (∃ c ∈ checks, c.1 = true ∧ firstFailing checks = some c.2 ∧
      runChecked s checks f = .next (s.raise c.2)) ∨
    ((∀ c ∈ checks, c.1 = false) ∧ runChecked s checks f = .next (f s)) := by
  induction checks with
  | nil => exact .inr ⟨fun _ h => absurd h List.not_mem_nil, rfl⟩
  | cons c cs ih =>
    obtain ⟨b, e⟩ := c
    cases b with
    | true => exact .inl ⟨(true, e), List.mem_cons_self, rfl, rfl, rfl⟩
    | false =>
      rcases ih with ⟨d, hd, h1, h2, h3⟩ | ⟨h1, h2⟩
      · exact .inl ⟨d, List.mem_cons_of_mem _ hd, h1, h2, h3⟩
      · refine .inr ⟨fun d hd => ?_, h2⟩
        rcases List.mem_cons.mp hd with rfl | hd
        · rfl
        · exact h1 d hd

/-- A checked command whose checks all pass runs its statements. -/
theorem runChecked_of_pass {s : State} {checks : List (Bool × Code)} {f : State → State}
    (h : ∀ c ∈ checks, c.1 = false) : runChecked s checks f = .next (f s) := by
  rcases runChecked_cases s checks f with ⟨c, hc, h1, -⟩ | ⟨-, h2⟩
  · rw [h c hc] at h1; cases h1
  · exact h2

/-! ### Each command where its checks pass -/

theorem exec_margin {s : State} (bit : Bool) (h : s.strength.toNat ≠ 0) :
    exec (.margin bit) s = .next (s.storeBlk (margin s.blk bit s.strengthP)).succeed := by
  unfold exec execMargin
  exact runChecked_of_pass (by simpa using h)

theorem exec_ldluma {s : State} (rot : Rotation) (hi : s.imageInvalid = false)
    (hx : s.blkPos.x0.toNat + 8 ≤ s.imgW.toNat) (hy : s.blkPos.y0.toNat + 8 ≤ s.imgH.toNat) :
    exec (.ldluma rot) s
      = .next (s.storeBlk (loadBlock s.rgbAt s.blkPos.x0.toNat s.blkPos.y0.toNat rot)).succeed := by
  have hb : s.blkPosBad = false := by
    simp only [State.blkPosBad, Bool.or_eq_false_iff, decide_eq_false_iff_not]
    unfold State.width State.height
    omega
  unfold exec execLdluma
  exact runChecked_of_pass (by simp [hi, hb])

theorem exec_hype {s : State} (rot : Rotation) (ox oy : Nat) (stride : Stride)
    (hi : s.imageInvalid = false) : exec (.hype rot ox oy stride) s
      = .next (s.measure { rot := rot, ox := ox, oy := oy } stride.pixels).succeed := by
  unfold exec execHype
  exact runChecked_of_pass (by simp [hi])

theorem exec_search {s : State} (hi : s.imageInvalid = false) :
    exec .search s = .next ((s.recordWinner s.winner).finishSearch s.winner.energy) := by
  unfold exec execSearch
  exact runChecked_of_pass (by simp [hi])

theorem exec_vote {s : State} (rot : Rotation) (ox oy : Nat) (hi : s.imageInvalid = false)
    (hq : s.sqw.toNat ≤ 64) : exec (.vote rot ox oy) s
      = .next (s.fullDecode { rot := rot, ox := ox, oy := oy }).succeed := by
  have hb : s.sqwBad = false := decide_eq_false (Nat.not_lt.mpr hq)
  unfold exec execVote
  exact runChecked_of_pass (by simp [hi, hb])

theorem exec_decode {s : State} (hi : s.imageInvalid = false) (hq : s.sqw.toNat ≤ 64) :
    exec .decode s = .next
      (((s.recordWinner s.winner).fullDecode s.winner.hyp).finishSearch s.winner.energy) := by
  have hb : s.sqwBad = false := decide_eq_false (Nat.not_lt.mpr hq)
  unfold exec execDecode
  exact runChecked_of_pass (by simp [hi, hb])

theorem exec_embed {s : State} (hi : s.imageInvalid = false) (hl : 1 ≤ s.payloadLen.toNat)
    (hb : s.embedParamsBad = false) :
    exec .embed s
      = .next (s.embedImage.setBlocks (s.width / 8 * (s.height / 8))).succeed := by
  have h0 : ¬ s.payloadLen.toNat = 0 := by omega
  unfold exec execEmbed
  exact runChecked_of_pass (by simp [hi, hb, h0])

theorem exec_ser {s : State} (h : s.textLen.toNat ≤ 511) :
    exec .ser s = .next ((s.storePbits (8 * (s.textLen.toNat + 1)) s.serBit).setPayloadLen
      (8 * (s.textLen.toNat + 1))).succeed := by
  have hb : decide (Config.maxText < s.textLen.toNat) = false := decide_eq_false (Nat.not_lt.mpr h)
  unfold exec execSer
  exact runChecked_of_pass (by simp [hb])

theorem exec_deser {s : State} (h : s.payloadLen.toNat ≤ 4096) :
    exec .deser s = .next ((s.storeText ((List.range s.deserCount).map s.deserByte)).setByteCount
      s.deserCount).succeed := by
  have hb : decide (Config.payloadCap < s.payloadLen.toNat) = false :=
    decide_eq_false (Nat.not_lt.mpr h)
  unfold exec execDeser
  exact runChecked_of_pass (by simp [hb])

/-! ### Blocks -/

/-- The bytes of a binary64 value are those it was read from. -/
theorem toLittle_f64At (s : State) (off : Nat) :
    toLittle 8 (s.f64At off).toNat = s.bytesAt off 8 := by
  have key : ∀ bs : List Byte, toLittle bs.length (ofLittle bs) = bs := by
    intro bs
    induction bs with
    | nil => rfl
    | cons b bs ih =>
      have h1 : (b.toNat + 256 * ofLittle bs) / 256 = ofLittle bs := by have := b.isLt; omega
      simp only [List.length_cons, toLittle, ofLittle, h1, ih]
      congr 1
      apply BitVec.eq_of_toNat_eq
      have := b.isLt
      simp; omega
  have hlt : ∀ bs : List Byte, ofLittle bs < 256 ^ bs.length := by
    intro bs
    induction bs with
    | nil => simp [ofLittle]
    | cons b bs ih =>
      have := b.isLt
      simp only [ofLittle, List.length_cons, Nat.pow_succ]
      omega
  have h := hlt (s.bytesAt off 8)
  rw [State.bytesAt_length] at h
  have h2 : (s.f64At off).toNat = ofLittle (s.bytesAt off 8) := by
    rw [State.f64At, BitVec.toNat_ofNat]
    exact Nat.mod_eq_of_lt h
  have h3 := key (s.bytesAt off 8)
  rw [State.bytesAt_length] at h3
  rw [h2, h3]

/-- A byte of an entry that a stored array leaves equal to what was there keeps its value. -/
theorem State.byteAt_store_f64Bytes_same {s : State} {off : Nat} {xs : List F64} {k i : Nat}
    (hk : k < xs.length) (hi : i < 8) (h : xs[k] = s.f64At (off + 8 * k)) :
    (s.store off (f64Bytes xs)).byteAt (off + 8 * k + i) = s.byteAt (off + 8 * k + i) := by
  have h1 := State.bytesAt_store_f64Bytes (s := s) (off := off) hk
  rw [h, toLittle_f64At] at h1
  have h2 := congrArg (fun l => l.getD i 0#8) h1
  simpa [State.bytesAt, hi] using h2

theorem State.byteAt_storeBlk_of_outside {s : State} {xs : List F64} {a : Nat} (hl : xs.length = 64)
    (h : a < 0x1000 ∨ 0x1200 ≤ a) : (s.storeBlk xs).byteAt a = s.byteAt a :=
  State.byteAt_store_of_outside (by simp [hl, Config.blkBase]; omega)

theorem entry_blk (s : State) {k : Nat} (h : k < 64) : entry s.blk k = s.f64At (0x1000 + 8 * k) := by
  rw [entry_of_lt (by simpa using h)]
  simp [State.blk, Config.blkBase]

theorem State.f64At_storeBlk {s : State} {xs : List F64} {k : Nat} (hl : xs.length = 64) (h : k < 64) :
    (s.storeBlk xs).f64At (0x1000 + 8 * k) = entry xs k := by
  rw [entry_of_lt (by omega)]
  exact State.f64At_store_f64Bytes (by omega)

theorem entry_set {c : List F64} {k : Nat} (v : F64) (j : Nat) (h : k < c.length) :
    entry (c.set k v) j = if j = k then v else entry c j := by
  unfold entry
  by_cases h' : j = k
  · subst h'; simp [h]
  · rw [if_neg h']; simp [List.getD_eq_getElem?_getD, List.getElem?_set_ne (Ne.symm h')]

/-! ### Payload and votes -/

theorem State.byteAt_storePbits_of_outside {s : State} {n : Nat} {bits : Nat → Bool} {a : Nat}
    (h : a < 0x2000 ∨ 0x2000 + (n + 7) / 8 ≤ a) : (s.storePbits n bits).byteAt a = s.byteAt a :=
  State.byteAt_store_of_outside (by simp [Config.payloadBase]; omega)

@[simp] theorem castVote_length (px : Nat → Nat → Rgb) (w h sqw : Nat) (hyp : Hyp) (vs : List F64)
    (b : Nat × Nat) : (castVote px w h sqw hyp vs b).length = vs.length := by
  simp [castVote]

@[simp] theorem voteSums_length (px : Nat → Nat → Rgb) (w h sqw : Nat) (hyp : Hyp) :
    (voteSums px w h sqw hyp).length = 4096 := by
  unfold voteSums
  generalize raster _ _ = bs
  suffices key : ∀ vs : List F64,
      (bs.foldl (castVote px w h sqw hyp) vs).length = vs.length from (key _).trans List.length_replicate
  induction bs with
  | nil => exact fun _ => rfl
  | cons b bs ih => exact fun vs => (ih _).trans (castVote_length px w h sqw hyp vs b)

theorem State.byteAt_storeVotes_of_outside {s : State} {vs : List F64} {a : Nat}
    (hl : vs.length = 4096) (h : a < 0x4000 ∨ 0xC000 ≤ a) : (s.storeVotes vs).byteAt a = s.byteAt a :=
  State.byteAt_store_of_outside (by simp [hl, Config.voteBase]; omega)

/-- N is at most 4096 where SQW is legal (43_vote R164). -/
theorem decodedBits_le {sqw : Nat} (h : sqw ≤ 64) : decodedBits sqw ≤ 4096 := by
  unfold decodedBits
  split
  · exact Nat.le_refl _
  · exact Nat.mul_le_mul h h

/-- The full-decode stage changes no byte outside V and the payload. -/
theorem State.byteAt_fullDecode_of_outside {s : State} {hyp : Hyp} {a : Nat}
    (h1 : ¬ (0x4000 ≤ a ∧ a < 0xC000))
    (h2 : ¬ (0x2000 ≤ a ∧ a < 0x2000 + (decodedBits s.sqw.toNat + 7) / 8)) :
    (s.fullDecode hyp).byteAt a = s.byteAt a := by
  have h := State.byteAt_storePbits_of_outside
    (s := s.storeVotes (voteSums s.rgbAt s.width s.height s.sqw.toNat hyp))
    (n := decodedBits s.sqw.toNat)
    (bits := fun k => flt 0#64 (entry (voteSums s.rgbAt s.width s.height s.sqw.toNat hyp) k))
    (a := a) (by omega)
  exact Eq.trans h (State.byteAt_storeVotes_of_outside (voteSums_length _ _ _ _ _) (by omega))

/-- The full-decode stage changes memory, PAYLOAD_LEN and BLOCKS and nothing else (43_vote R165). -/
theorem State.fullDecode_eq (s : State) (hyp : Hyp) : ∃ m p b,
    s.fullDecode hyp = { s with mem := m, payloadLen := p, blocks := b } := ⟨_, _, _, rfl⟩

/-- V[k] after the full-decode stage (43_vote R163). -/
theorem State.vote_fullDecode {s : State} (hyp : Hyp) {k : Nat} (hq : s.sqw.toNat ≤ 64) (hk : k < 4096) :
    (s.fullDecode hyp).vote k
      = entry (voteSums s.rgbAt s.width s.height s.sqw.toNat hyp) k := by
  have hl := voteSums_length s.rgbAt s.width s.height s.sqw.toNat hyp
  have hn : (s.storeVotes (voteSums s.rgbAt s.width s.height s.sqw.toNat hyp)).sqw = s.sqw := rfl
  have hN := decodedBits_le hq
  unfold State.fullDecode
  dsimp only
  rw [State.setBlocks_vote, State.setPayloadLen_vote, State.threshold, hn]
  unfold State.vote State.storePbits
  rw [State.f64At_store_of_outside (by right; simp [Config.payloadBase, Config.voteBase]; omega),
    entry_of_lt (by omega)]
  exact State.vote_storeVotes (by omega)

/-- PBIT(i) after the full-decode stage (43_vote R164, R165). -/
theorem State.pbit_fullDecode {s : State} (hyp : Hyp) {i : Nat} (hi : i < 4096) :
    (s.fullDecode hyp).pbit i = if i < decodedBits s.sqw.toNat
      then flt 0#64 (entry (voteSums s.rgbAt s.width s.height s.sqw.toNat hyp) i) else s.pbit i := by
  have hl := voteSums_length s.rgbAt s.width s.height s.sqw.toNat hyp
  have hn : (s.storeVotes (voteSums s.rgbAt s.width s.height s.sqw.toNat hyp)).sqw = s.sqw := rfl
  unfold State.fullDecode
  dsimp only
  rw [State.setBlocks_pbit, State.setPayloadLen_pbit, State.threshold, hn, State.pbit_storePbits]
  split
  · rfl
  · unfold State.pbit
    rw [State.byteAt_storeVotes_of_outside hl (by left; unfold Config.payloadBase; omega)]

/-! ### The embedding -/

theorem foldl_inv {α β : Type} (P : β → Prop) (f : β → α → β) (xs : List α) (b : β) (hb : P b)
    (h : ∀ b, P b → ∀ x ∈ xs, P (f b x)) : P (xs.foldl f b) := by
  induction xs generalizing b with
  | nil => exact hb
  | cons x xs ih =>
    exact ih _ (h b hb x List.mem_cons_self) fun b hb y hy => h b hb y (List.mem_cons_of_mem _ hy)

theorem mem_raster {w h x y : Nat} : (x, y) ∈ raster w h ↔ x < w ∧ y < h := by
  simp [raster, and_comm]

/-- The embedding changes memory and nothing else. -/
theorem State.embedBlock_eq (s : State) (bx by' : Nat) :
    s.embedBlock bx by' = { s with mem := (s.embedBlock bx by').mem } := by
  unfold State.embedBlock
  exact foldl_inv (fun t : State => t = { s with mem := t.mem }) _ _ s rfl
    fun t ht i _ => by rw [ht]; rfl

theorem State.embedImage_eq (s : State) : s.embedImage = { s with mem := s.embedImage.mem } := by
  unfold State.embedImage
  exact foldl_inv (fun t : State => t = { s with mem := t.mem }) _ _ s rfl
    fun t ht b _ => by rw [State.embedBlock_eq t, ht]

end Sys2Proof.Machine
end

