-- ==== Sys2Proof/Laws/Embedding.lean ====
section
/-! SUPPORT. What the embedding of a block and of the image leaves in each pixel and in each byte. -/

namespace Sys2Proof.Machine

/-! ### Writing pixels one after another -/

/-- A byte that is no R, G or B sample of the pixel written is unchanged. -/
theorem State.byteAt_storeRgb_of_outside {s : State} {x y a : Nat} {p : Rgb}
    (h : ∀ c, c < 3 → a ≠ pixelOffset s.width x y + c) : (s.storeRgb x y p).byteAt a = s.byteAt a := by
  have h0 := h 0 (by omega)
  have h1 := h 1 (by omega)
  have h2 := h 2 (by omega)
  exact State.byteAt_store_of_outside (by simp; omega)

/-- The pixels at `pos i`, for the `i` of a list, updated one after another. -/
def updateEach (pos : Nat → Nat × Nat) (delta : Nat → F64) (is : List Nat) (s : State) : State :=
  is.foldl (fun t i => t.storeRgb (pos i).1 (pos i).2
    (rgbUpd (t.rgbAt (pos i).1 (pos i).2) (delta i))) s

theorem updateEach_cons (pos : Nat → Nat × Nat) (delta : Nat → F64) (i : Nat) (is : List Nat) (s : State) :
    updateEach pos delta (i :: is) s = updateEach pos delta is (s.storeRgb (pos i).1 (pos i).2
      (rgbUpd (s.rgbAt (pos i).1 (pos i).2) (delta i))) := rfl

@[simp] theorem updateEach_width (pos : Nat → Nat × Nat) (delta : Nat → F64) (is : List Nat) (s : State) :
    (updateEach pos delta is s).width = s.width := by
  induction is generalizing s with
  | nil => rfl
  | cons i is ih => rw [updateEach_cons, ih, State.storeRgb_width]

theorem updateEach_byteAt {pos : Nat → Nat × Nat} {delta : Nat → F64} {is : List Nat} {s : State} {a : Nat}
    (h : ∀ i ∈ is, ∀ c, c < 3 → a ≠ pixelOffset s.width (pos i).1 (pos i).2 + c) :
    (updateEach pos delta is s).byteAt a = s.byteAt a := by
  induction is generalizing s with
  | nil => rfl
  | cons i is ih =>
    rw [updateEach_cons, ih fun j hj => by
      rw [State.storeRgb_width]; exact h j (List.mem_cons_of_mem _ hj)]
    exact State.byteAt_storeRgb_of_outside (h i List.mem_cons_self)

theorem updateEach_rgbAt_of_ne {pos : Nat → Nat × Nat} {delta : Nat → F64} {is : List Nat} {s : State}
    {x y : Nat} (hx : x < s.width) (hw : ∀ i ∈ is, (pos i).1 < s.width) (h : ∀ i ∈ is, (x, y) ≠ pos i) :
    (updateEach pos delta is s).rgbAt x y = s.rgbAt x y := by
  induction is generalizing s with
  | nil => rfl
  | cons i is ih =>
    rw [updateEach_cons, ih (by rwa [State.storeRgb_width])
      (fun j hj => by rw [State.storeRgb_width]; exact hw j (List.mem_cons_of_mem _ hj))
      fun j hj => h j (List.mem_cons_of_mem _ hj)]
    exact State.rgbAt_storeRgb_of_ne (hw i List.mem_cons_self) hx (h i List.mem_cons_self)

theorem updateEach_rgbAt {pos : Nat → Nat × Nat} {delta : Nat → F64} {is : List Nat} {s : State}
    (hw : ∀ i ∈ is, (pos i).1 < s.width) (hn : is.Nodup)
    (hp : ∀ i ∈ is, ∀ j ∈ is, pos i = pos j → i = j) {i : Nat} (hi : i ∈ is) :
    (updateEach pos delta is s).rgbAt (pos i).1 (pos i).2
      = rgbUpd (s.rgbAt (pos i).1 (pos i).2) (delta i) := by
  induction is generalizing s with
  | nil => cases hi
  | cons j js ih =>
    obtain ⟨hj, hn⟩ := List.nodup_cons.mp hn
    have hw' : ∀ k ∈ js, (pos k).1 < s.width := fun k hk => hw k (List.mem_cons_of_mem _ hk)
    rw [updateEach_cons]
    rcases List.mem_cons.mp hi with rfl | hi'
    · rw [updateEach_rgbAt_of_ne (by rw [State.storeRgb_width]; exact hw i List.mem_cons_self)
        (by simpa using hw')]
      · exact State.rgbAt_storeRgb_self _ _ _ _
      · intro k hk he
        exact hj (hp i List.mem_cons_self k (List.mem_cons_of_mem _ hk) he ▸ hk)
    · rw [ih (by simpa using hw') hn (fun a ha b hb => hp a (List.mem_cons_of_mem _ ha) b
        (List.mem_cons_of_mem _ hb)) hi']
      rw [State.rgbAt_storeRgb_of_ne (hw j List.mem_cons_self) (hw' i hi')]
      intro he
      exact hj (hp i hi j List.mem_cons_self he ▸ hi')

/-! ### One block -/

/-- The deltas of the block (bx, by). -/
def State.blockDeltas (s : State) (bx by' : Nat) : List F64 :=
  embedDeltas (lumaBlock s.rgbAt (8 * bx) (8 * by')) (s.blockBit bx by') s.strengthP

theorem State.embedBlock_eq_updateEach (s : State) (bx by' : Nat) :
    s.embedBlock bx by' = updateEach (fun i => (8 * bx + i % 8, 8 * by' + i / 8))
      (entry (s.blockDeltas bx by')) (List.range 64) s := by
  unfold State.embedBlock updateEach State.blockDeltas
  rfl

@[simp] theorem State.embedBlock_width (s : State) (bx by' : Nat) :
    (s.embedBlock bx by').width = s.width := by
  rw [State.embedBlock_eq_updateEach]
  exact updateEach_width _ _ _ _

/-- A byte that is no R, G or B sample of the block is unchanged. -/
theorem State.byteAt_embedBlock {s : State} {bx by' a : Nat}
    (h : ∀ x y c, x / 8 = bx → y / 8 = by' → c < 3 → a ≠ pixelOffset s.width x y + c) :
    (s.embedBlock bx by').byteAt a = s.byteAt a := by
  rw [State.embedBlock_eq_updateEach]
  refine updateEach_byteAt fun i hi c hc => h _ _ c ?_ ?_ hc
  · omega
  · have := List.mem_range.mp hi; omega

/-- A pixel of another block is unchanged. -/
theorem State.rgbAt_embedBlock_of_ne {s : State} {bx by' x y : Nat} (hb : 8 * bx + 8 ≤ s.width)
    (hx : x < s.width) (h : (x / 8, y / 8) ≠ (bx, by')) :
    (s.embedBlock bx by').rgbAt x y = s.rgbAt x y := by
  rw [State.embedBlock_eq_updateEach]
  refine updateEach_rgbAt_of_ne hx (fun i _ => ?_) fun i hi he => h ?_
  · dsimp only; omega
  · have := List.mem_range.mp hi
    obtain ⟨rfl, rfl⟩ := Prod.mk.inj he
    exact Prod.ext (by dsimp only; omega) (by dsimp only; omega)

/-- A pixel of the block is updated by its delta. -/
theorem State.rgbAt_embedBlock {s : State} {bx by' lx ly : Nat} (hb : 8 * bx + 8 ≤ s.width)
    (hx : lx < 8) (hy : ly < 8) :
    (s.embedBlock bx by').rgbAt (8 * bx + lx) (8 * by' + ly)
      = rgbUpd (s.rgbAt (8 * bx + lx) (8 * by' + ly))
          (entry (s.blockDeltas bx by') (8 * ly + lx)) := by
  have h := updateEach_rgbAt (pos := fun i => (8 * bx + i % 8, 8 * by' + i / 8))
    (delta := entry (s.blockDeltas bx by')) (is := List.range 64) (s := s) (i := 8 * ly + lx)
    (fun i _ => by dsimp only; omega) List.nodup_range
    (fun i _ j _ he => by obtain ⟨h1, h2⟩ := Prod.mk.inj he; omega) (List.mem_range.mpr (by omega))
  have h1 : (8 * ly + lx) % 8 = lx := by omega
  have h2 : (8 * ly + lx) / 8 = ly := by omega
  simp only [h1, h2] at h
  rw [State.embedBlock_eq_updateEach]
  exact h

/-- The deltas of another block are unchanged: its pixels, the payload and the registers are. -/
theorem State.blockDeltas_embedBlock {s : State} {bx by' cx cy : Nat} (hb : 8 * bx + 8 ≤ s.width)
    (hc : 8 * cx + 8 ≤ s.width) (h : (cx, cy) ≠ (bx, by')) :
    (s.embedBlock bx by').blockDeltas cx cy = s.blockDeltas cx cy := by
  have hl : lumaBlock (s.embedBlock bx by').rgbAt (8 * cx) (8 * cy)
      = lumaBlock s.rgbAt (8 * cx) (8 * cy) := by
    unfold lumaBlock block64
    refine List.map_congr_left fun i hi => ?_
    have hi := List.mem_range.mp hi
    rw [State.rgbAt_embedBlock_of_ne hb (by omega)]
    intro he
    obtain ⟨h1, h2⟩ := Prod.mk.inj he
    exact h (Prod.ext (by dsimp only; omega) (by dsimp only; omega))
  obtain ⟨m, he⟩ : ∃ m, s.embedBlock bx by' = { s with mem := m } := ⟨_, State.embedBlock_eq s bx by'⟩
  have hsq := s.sqw.isLt
  have hlen := s.payloadLen.isLt
  have hbit : (s.embedBlock bx by').blockBit cx cy = s.blockBit cx cy := by
    unfold State.blockBit
    have h1 : (s.embedBlock bx by').payloadLen = s.payloadLen := by rw [he]
    have h2 : (s.embedBlock bx by').sqw = s.sqw := by rw [he]
    rw [h1, h2]
    unfold State.pbit
    rw [State.byteAt_embedBlock]
    intro x y c _ _ _
    have key : ∀ n, n < 8388608 → Config.payloadBase + n / 8 ≠ pixelOffset s.width x y + c := by
      intro n hn
      unfold pixelOffset Config.pixBase Config.payloadBase
      omega
    refine key _ ?_
    unfold encIndex
    split
    · rcases Nat.eq_zero_or_pos s.payloadLen.toNat with h0 | h0
      · rw [h0, Nat.mod_zero]; omega
      · have := Nat.mod_lt (cy % 64 * 64 + cx % 64) h0; omega
    · next h0 =>
      have h1 := Nat.mod_lt cy (Nat.pos_of_ne_zero h0)
      have h2 := Nat.mod_lt cx (Nat.pos_of_ne_zero h0)
      have h3 : cy % s.sqw.toNat * s.sqw.toNat ≤ 256 * 256 := Nat.mul_le_mul (by omega) (by omega)
      omega
  unfold State.blockDeltas
  rw [hl, hbit]
  have hs : (s.embedBlock bx by').strengthP = s.strengthP := by rw [he, State.strengthP, State.strengthP]
  rw [hs]

/-! ### The image -/

/-- Some blocks embedded one after another. -/
def embedEach (bs : List (Nat × Nat)) (s : State) : State :=
  bs.foldl (fun t b => t.embedBlock b.1 b.2) s

theorem State.embedImage_eq_embedEach (s : State) :
    s.embedImage = embedEach (raster (s.width / 8) (s.height / 8)) s := by
  unfold State.embedImage embedEach
  rfl

theorem embedEach_cons (b : Nat × Nat) (bs : List (Nat × Nat)) (s : State) :
    embedEach (b :: bs) s = embedEach bs (s.embedBlock b.1 b.2) := by
  unfold embedEach
  rw [List.foldl_cons]

/-- A byte that is no R, G or B sample of a block is unchanged. -/
theorem embedEach_byteAt {bs : List (Nat × Nat)} {s : State} {a : Nat}
    (h : ∀ x y c, (x / 8, y / 8) ∈ bs → c < 3 → a ≠ pixelOffset s.width x y + c) :
    (embedEach bs s).byteAt a = s.byteAt a := by
  induction bs generalizing s with
  | nil => rfl
  | cons b bs ih =>
    rw [embedEach_cons, ih fun x y c hm hc => by
      rw [State.embedBlock_width]; exact h x y c (List.mem_cons_of_mem _ hm) hc]
    refine State.byteAt_embedBlock fun x y c hx hy hc => h x y c ?_ hc
    rw [hx, hy]
    exact List.mem_cons_self

/-- A pixel of none of the blocks is unchanged. -/
theorem embedEach_rgbAt_of_not_mem {bs : List (Nat × Nat)} {s : State} {x y : Nat}
    (hw : ∀ b ∈ bs, 8 * b.1 + 8 ≤ s.width) (hx : x < s.width) (h : (x / 8, y / 8) ∉ bs) :
    (embedEach bs s).rgbAt x y = s.rgbAt x y := by
  induction bs generalizing s with
  | nil => rfl
  | cons b bs ih =>
    have h1 : (x / 8, y / 8) ≠ (b.1, b.2) := fun he => h (he ▸ List.mem_cons_self)
    have h2 : (x / 8, y / 8) ∉ bs := fun hm => h (List.mem_cons_of_mem _ hm)
    rw [embedEach_cons, ih (fun c hc => by
      rw [State.embedBlock_width]; exact hw c (List.mem_cons_of_mem _ hc))
      (by rwa [State.embedBlock_width]) h2]
    exact State.rgbAt_embedBlock_of_ne (hw b List.mem_cons_self) hx h1

/-- Each pixel of each block is updated by the delta that the image had before (41_embed R127). -/
theorem embedEach_rgbAt {bs : List (Nat × Nat)} {s : State} (hn : bs.Nodup)
    (hw : ∀ b ∈ bs, 8 * b.1 + 8 ≤ s.width) {bx by' lx ly : Nat} (hb : (bx, by') ∈ bs)
    (hx : lx < 8) (hy : ly < 8) :
    (embedEach bs s).rgbAt (8 * bx + lx) (8 * by' + ly)
      = rgbUpd (s.rgbAt (8 * bx + lx) (8 * by' + ly))
          (entry (s.blockDeltas bx by') (8 * ly + lx)) := by
  have hdx : (8 * bx + lx) / 8 = bx := by omega
  have hdy : (8 * by' + ly) / 8 = by' := by omega
  induction bs generalizing s with
  | nil => cases hb
  | cons b bs ih =>
    obtain ⟨hnm, hn⟩ := List.nodup_cons.mp hn
    have hw' : ∀ c ∈ bs, 8 * c.1 + 8 ≤ s.width := fun c hc => hw c (List.mem_cons_of_mem _ hc)
    have hwb := hw b List.mem_cons_self
    rw [embedEach_cons]
    rcases List.mem_cons.mp hb with rfl | hb'
    · rw [embedEach_rgbAt_of_not_mem (by simpa using hw') (by rw [State.embedBlock_width]; omega)
        (by rwa [hdx, hdy])]
      exact State.rgbAt_embedBlock hwb hx hy
    · have hne : (bx, by') ≠ (b.1, b.2) := fun he => hnm (he ▸ hb' : (b.1, b.2) ∈ bs)
      have hwx : 8 * bx + 8 ≤ s.width := hw' _ hb'
      rw [ih hn (by simpa using hw') hb', State.blockDeltas_embedBlock hwb hwx hne,
        State.rgbAt_embedBlock_of_ne hwb (by omega) (by rwa [hdx, hdy])]

theorem raster_nodup (w h : Nat) : (raster w h).Nodup := by
  unfold raster
  refine List.nodup_flatMap.mpr ⟨fun y _ => ?_, ?_⟩
  · exact List.Nodup.map (fun a b he => (Prod.mk.inj he).1) List.nodup_range
  · refine List.Pairwise.imp ?_ List.nodup_range
    intro a b hab p ha hb
    obtain ⟨x, -, rfl⟩ := List.mem_map.mp ha
    obtain ⟨x', -, he⟩ := List.mem_map.mp hb
    exact hab (Prod.mk.inj he).2.symm

/-- Each pixel of each whole block of the image is updated by its delta (41_embed R125, R126). -/
theorem State.rgbAt_embedImage {s : State} {bx by' lx ly : Nat} (hbx : bx < s.width / 8)
    (hby : by' < s.height / 8) (hx : lx < 8) (hy : ly < 8) :
    s.embedImage.rgbAt (8 * bx + lx) (8 * by' + ly)
      = rgbUpd (s.rgbAt (8 * bx + lx) (8 * by' + ly))
          (entry (s.blockDeltas bx by') (8 * ly + lx)) := by
  rw [State.embedImage_eq_embedEach]
  refine embedEach_rgbAt (raster_nodup _ _) (fun b hb => ?_) (mem_raster.mpr ⟨hbx, hby⟩) hx hy
  have := (mem_raster (x := b.1) (y := b.2)).mp hb
  omega

/-- A byte that is no R, G or B sample of a whole block is unchanged (41_embed R126, R129). -/
theorem State.byteAt_embedImage {s : State} {a : Nat}
    (h : ∀ x y c, x < 8 * (s.width / 8) → y < 8 * (s.height / 8) → c < 3 →
      a ≠ pixelOffset s.width x y + c) : s.embedImage.byteAt a = s.byteAt a := by
  rw [State.embedImage_eq_embedEach]
  refine embedEach_byteAt fun x y c hm hc => ?_
  have := mem_raster.mp hm
  exact h x y c (by omega) (by omega) hc

end Sys2Proof.Machine
end

