-- ==== Sys2Proof/Laws/Encoding.lean ====
section
/-! SUPPORT. The fields of an assembled word, a word from its fields, and masks bit by bit. -/

namespace Sys2Proof

@[simp] theorem Rotation.ofCode_code (r : Rotation) : Rotation.ofCode r.code = r := by cases r <;> rfl

@[simp] theorem Rotation.code_ofCode (c : BitVec 2) : (Rotation.ofCode c).code = c := by
  revert c; decide

@[simp] theorem Stride.ofCode_code (s : Stride) : Stride.ofCode s.code = s := by cases s <;> rfl

@[simp] theorem Stride.code_ofCode (c : BitVec 1) : (Stride.ofCode c).code = c := by
  revert c; decide

/-- The opcode is the word modulo 256. -/
theorem opcField_toNat (w : Word) : (opcField w).toNat = w.toNat % 256 := by
  simp [opcField, BitVec.extractLsb'_toNat]

theorem oxField_lt (w : Word) : (oxField w).toNat < 8 := (oxField w).isLt

theorem oyField_lt (w : Word) : (oyField w).toNat < 8 := (oyField w).isLt

/-- A masked word is 0 exactly when every bit that the mask covers is 0. -/
theorem and_eq_zero_iff_bits {w m : Word} :
    w &&& m = 0#32 ↔ ∀ i, m.getLsbD i = true → w.getLsbD i = false := by
  constructor
  · intro h i hm
    have := congrArg (fun x : Word => x.getLsbD i) h
    simpa [hm] using this
  · intro h
    apply BitVec.eq_of_getLsbD_eq
    intro i _
    cases hm : m.getLsbD i with
    | false => simp [hm]
    | true => simp [h i hm]

/-- The check of the decoder, with the opcode, is the match of a table row whose mask covers the opcode. -/
theorem and_mask_eq_iff {w m : Word} {n : Nat} (hm : m &&& 0xFF#32 = 0xFF#32)
    (hn : (opcField w).toNat = n) :
    w &&& m &&& 0xFFFFFF00#32 = 0#32 ↔ w &&& m = BitVec.ofNat 32 n := by
  have hn' : n < 256 := hn ▸ (opcField w).isLt
  have hlow : ∀ x : Word, (x &&& 0xFF#32).toNat = x.toNat % 256 := fun x => by
    rw [BitVec.toNat_and]
    exact Nat.and_two_pow_sub_one_eq_mod x.toNat 8
  have hw : w &&& m &&& 0xFF#32 = BitVec.ofNat 32 n := by
    rw [BitVec.and_assoc, hm]
    apply BitVec.eq_of_toNat_eq
    rw [hlow, ← opcField_toNat, hn, BitVec.toNat_ofNat]
    omega
  have hsplit : w &&& m = (w &&& m &&& 0xFFFFFF00#32) ||| (w &&& m &&& 0xFF#32) := by
    rw [← BitVec.and_or_distrib_left]
    exact (BitVec.and_allOnes (x := w &&& m)).symm
  constructor
  · intro h
    rw [hsplit, h, hw]
    simp
  · intro h
    rw [h]
    apply BitVec.eq_of_toNat_eq
    have : BitVec.ofNat 32 n = BitVec.ofNat 32 n &&& 0xFF#32 := by
      rw [← h, hw, h]
    rw [this, BitVec.and_assoc]
    simp

section
variable (opc : BitVec 8) (rot : BitVec 2) (bit : Bool) (ox oy : Nat) (s8 : BitVec 1)

@[simp] theorem opcField_assemble : opcField (assemble opc rot bit ox oy s8) = opc := by
  apply BitVec.eq_of_getLsbD_eq
  intro i hi
  simp only [opcField, assemble, BitVec.getLsbD_extractLsb', BitVec.getLsbD_or, BitVec.getLsbD_shiftLeft,
    BitVec.getLsbD_setWidth]
  interval_cases i <;> simp

@[simp] theorem rotField_assemble : rotField (assemble opc rot bit ox oy s8) = rot := by
  apply BitVec.eq_of_getLsbD_eq
  intro i hi
  simp only [rotField, assemble, BitVec.getLsbD_extractLsb', BitVec.getLsbD_or, BitVec.getLsbD_shiftLeft,
    BitVec.getLsbD_setWidth]
  interval_cases i <;> simp

@[simp] theorem bitField_assemble : bitField (assemble opc rot bit ox oy s8) = bit := by
  simp only [bitField, assemble, BitVec.getLsbD_or, BitVec.getLsbD_shiftLeft, BitVec.getLsbD_setWidth]
  simp

@[simp] theorem oxField_assemble : oxField (assemble opc rot bit ox oy s8) = BitVec.ofNat 3 ox := by
  apply BitVec.eq_of_getLsbD_eq
  intro i hi
  simp only [oxField, assemble, BitVec.getLsbD_extractLsb', BitVec.getLsbD_or, BitVec.getLsbD_shiftLeft,
    BitVec.getLsbD_setWidth, BitVec.getLsbD_ofNat]
  interval_cases i <;> simp

theorem oyField_assemble (hx : ox < 8) :
    oyField (assemble opc rot bit ox oy s8) = BitVec.ofNat 3 oy := by
  have h4 : ox.testBit 4 = false := Nat.testBit_lt_two_pow (by omega)
  have h5 : ox.testBit 5 = false := Nat.testBit_lt_two_pow (by omega)
  have h6 : ox.testBit 6 = false := Nat.testBit_lt_two_pow (by omega)
  apply BitVec.eq_of_getLsbD_eq
  intro i hi
  simp only [oyField, assemble, BitVec.getLsbD_extractLsb', BitVec.getLsbD_or, BitVec.getLsbD_shiftLeft,
    BitVec.getLsbD_setWidth, BitVec.getLsbD_ofNat]
  interval_cases i <;> simp [h4, h5, h6]

theorem s8Field_assemble (hx : ox < 8) (hy : oy < 8) : s8Field (assemble opc rot bit ox oy s8) = s8 := by
  have h8 : ox.testBit 8 = false := Nat.testBit_lt_two_pow (by omega)
  have h4 : oy.testBit 4 = false := Nat.testBit_lt_two_pow (by omega)
  apply BitVec.eq_of_getLsbD_eq
  intro i hi
  simp only [s8Field, assemble, BitVec.getLsbD_extractLsb', BitVec.getLsbD_or, BitVec.getLsbD_shiftLeft,
    BitVec.getLsbD_setWidth, BitVec.getLsbD_ofNat]
  interval_cases i
  simp [h8, h4]
end

/-- A word whose reserved bits are 0 is assembled from its fields (30_encoding R85, R93). -/
theorem assemble_fields {w : Word} (h : w &&& 0xFE88EC00#32 = 0#32) :
    assemble (opcField w) (rotField w) (bitField w) (oxField w).toNat (oyField w).toNat (s8Field w) = w := by
  have hb : ∀ i, (w &&& 0xFE88EC00#32).getLsbD i = false := fun i => by rw [h]; simp
  simp only [BitVec.getLsbD_and] at hb
  apply BitVec.eq_of_getLsbD_eq
  intro i hi
  have := hb i
  simp only [opcField, rotField, bitField, oxField, oyField, s8Field, assemble, BitVec.getLsbD_extractLsb',
    BitVec.getLsbD_or, BitVec.getLsbD_shiftLeft, BitVec.getLsbD_setWidth, BitVec.ofNat_toNat]
  clear hb h
  interval_cases i <;> simp_all

end Sys2Proof
end

