-- ==== Sys2Proof/Laws/PerInstr.lean ====
section
/-! SUPPORT. Laws stated command by command: each well-formed command's word carries the fixed bits of a row
of the opcode table (30_encoding R87). -/

namespace Sys2Proof.Laws.EncodeFits

/-- The word of a well-formed command matches a row of the opcode table. -/
def Statement (i : Instr) : Prop :=
  i.wellFormed = true → ∃ row ∈ opcodeTable, encode i &&& row.mask = row.fixed

theorem nop : Statement .nop := fun _ => by decide

theorem fdct : Statement .fdct := fun _ => by decide

theorem idct : Statement .idct := fun _ => by decide

theorem margin (bit : Bool) : Statement (.margin bit) := fun _ => by
  cases bit <;> decide

theorem ldluma (rot : Rotation) : Statement (.ldluma rot) := fun _ => by
  cases rot <;> decide

theorem offsets_lt {ox oy : Nat} (h : offsetsFit ox oy = true) : ox < 8 ∧ oy < 8 := by
  simpa [offsetsFit] using h

theorem hype (rot : Rotation) (ox oy : Nat) (stride : Stride) : Statement (.hype rot ox oy stride) := by
  intro h
  obtain ⟨hx, hy⟩ := offsets_lt h
  refine ⟨⟨"HYPE", 0x05#32, 0xFE88FCFF#32⟩, by decide, ?_⟩
  have key : ∀ x < 8, ∀ y < 8,
      encode (.hype rot x y stride) &&& 0xFE88FCFF#32 = 0x05#32 := by
    cases rot <;> cases stride <;> decide +kernel
  exact key ox hx oy hy

theorem search : Statement .search := fun _ => by decide

theorem vote (rot : Rotation) (ox oy : Nat) : Statement (.vote rot ox oy) := by
  intro h
  obtain ⟨hx, hy⟩ := offsets_lt h
  refine ⟨⟨"VOTE", 0x07#32, 0xFF88FCFF#32⟩, by decide, ?_⟩
  have key : ∀ x < 8, ∀ y < 8, encode (.vote rot x y) &&& 0xFF88FCFF#32 = 0x07#32 := by
    cases rot <;> decide +kernel
  exact key ox hx oy hy

theorem decode : Statement .decode := fun _ => by decide

theorem embed : Statement .embed := fun _ => by decide

theorem ser : Statement .ser := fun _ => by decide

theorem deser : Statement .deser := fun _ => by decide

end Sys2Proof.Laws.EncodeFits
end

