-- ==== Sys2Proof/Tests/Slice0.lean ====
section
/-! SUPPORT. The model's own tests, their expected results taken from 95_test_vectors and the pages it cites,
and, for every statement with hypotheses, a state and operands that meet them. -/

namespace Sys2Proof.Tests

open Sys2Proof Sys2Proof.Machine

/-! ### Well-formedness: the ill-formed terms are refused (30_encoding R93) -/

theorem test_hype_offset_x_of_8_is_ill_formed : (Instr.hype .deg0 8 0 .every16).wellFormed = false := by
  decide
theorem test_hype_offset_y_of_8_is_ill_formed : (Instr.hype .deg90 0 8 .every8).wellFormed = false := by
  decide
theorem test_vote_offset_x_of_8_is_ill_formed : (Instr.vote .deg0 8 7).wellFormed = false := by decide
theorem test_vote_offset_y_of_8_is_ill_formed : (Instr.vote .deg270 7 8).wellFormed = false := by decide
theorem test_greatest_offsets_are_well_formed :
    (Instr.vote .deg270 7 7).wellFormed = true ∧ (Instr.hype .deg0 7 7 .every16).wellFormed = true := by
  decide

/-! ### Decoding: the words of 95_test_vectors EN1 to EN20, field by field -/

theorem test_decode_words_without_fields :
    decode 0x00000000#32 = .ok .nop ∧ decode 0x00000001#32 = .ok .fdct ∧
    decode 0x00000002#32 = .ok .idct ∧ decode 0x00000006#32 = .ok .search ∧
    decode 0x00000008#32 = .ok .decode ∧ decode 0x00000009#32 = .ok .embed ∧
    decode 0x0000000A#32 = .ok .ser ∧ decode 0x0000000B#32 = .ok .deser := by decide
theorem test_decode_margin : -- bit 12 is BIT
    decode 0b00000000000000000000000000000011#32 = .ok (.margin false) ∧
    decode 0b00000000000000000001000000000011#32 = .ok (.margin true) := by decide
theorem test_decode_ldluma : -- bits 9:8 are ROT
    decode 0b00000000000000000000001100000100#32 = .ok (.ldluma .deg270) := by decide
theorem test_decode_hype : -- S8 = 1, OY = 101, OX = 011, ROT = 01
    decode 0b00000001010100110000000100000101#32 = .ok (.hype .deg90 3 5 .every8) ∧
    decode 0x00000005#32 = .ok (.hype .deg0 0 0 .every16) := by decide
theorem test_decode_vote : -- OY = 011, OX = 101, ROT = 10
    decode 0b00000000001101010000001000000111#32 = .ok (.vote .deg180 5 3) ∧
    decode 0x00770307#32 = .ok (.vote .deg270 7 7) := by decide
theorem test_decode_refuses_reserved_opcodes :
    decode 0x0000000C#32 = .error .reservedOpcode ∧ decode 0x000000FF#32 = .error .reservedOpcode := by
  decide
theorem test_decode_refuses_stray_bits :
    decode 0x00001001#32 = .error .strayBits ∧ decode 0x00000800#32 = .error .strayBits ∧
    decode 0x01000007#32 = .error .strayBits ∧ decode 0x00080005#32 = .error .strayBits ∧
    decode 0x00000103#32 = .error .strayBits ∧ decode 0x80000009#32 = .error .strayBits := by decide
theorem test_table_word_is_decoded : decodeTableWord 32 0x01530105 = some (.hype .deg90 3 5 .every8) := by
  decide

/-! ### One command on a small state -/

/-- An idle state with an image of this size. -/
def imageOf (w h : Nat) : State :=
  { State.reset with imgW := BitVec.ofNat 13 w, imgH := BitVec.ofNat 13 h }

/-- An 8 × 8 image whose pixel of number i (row-major) is grey at level `f i`, opaque; all else as after
reset. -/
def greyImage (f : Nat → Nat) : State :=
  (imageOf 8 8).store 0x01000000
    ((List.range 64).flatMap fun i => List.replicate 3 (BitVec.ofNat 8 (f i)) ++ [0xFF#8])

/-- A state with the given entries in BLK and all else as after reset. -/
def withBlk (f : Nat → F64) : State := State.reset.storeBlk ((List.range 64).map f)

/-- The command ends in a next state of which the check holds. -/
def gives (i : Instr) (s : State) (check : State → Bool) : Bool :=
  match exec i s with
  | .next t => check t
  | .fault _ => false
  | .refused _ => false

/-- STATUS as the host reads it. -/
def statusIs (w : Word) (t : State) : Bool := decide (t.readReg 0x00C = w)

/-- Vector T9, ER2. -/
theorem test_nop : gives .nop State.reset
    (fun t => statusIs 0x2#32 t && decide (t.mem = []) && t.doneIp && !t.irq) = true := by decide

/-- Vector T2: an impulse. -/
theorem test_fdct_of_an_impulse :
    let c := fdct (block64 fun k => if k = 0 then 0x3FF0000000000000#64 else 0#64)
    entry c 0 = 0x3FC0000000000001#64 ∧ entry c 1 = 0x3FC63150B15E8536#64 ∧
      entry c 35 = 0x3FC2D062EF88E31A#64 ∧ entry c 63 = 0x3F837CA1866B95CF#64 := by decide +kernel

/-- Vector T3: a constant spectrum. -/
theorem test_idct_of_the_mean :
    let x := idct (block64 fun k => if k = 0 then 0x4020000000000000#64 else 0#64)
    entry x 0 = 0x3FF0000000000001#64 ∧ entry x 63 = 0x3FF0000000000001#64 := by decide +kernel

/-- Vector M11. -/
theorem test_margin_moves_the_pair :
    gives (.margin true)
      { withBlk (fun k => if k = 35 then 0x3FB999999999999A#64 else if k = 28 then 0x3FC999999999999A#64 else 0#64) with
        strength := 1#16 }
      (fun t => decide (t.f64At (0x1000 + 8 * 35) = 0x3FE4CCCCCCCCCCCD#64) &&
        decide (t.f64At (0x1000 + 8 * 28) = 0xBFD6666666666667#64)) = true := by decide +kernel

/-- Vector M12. -/
theorem test_margin_needs_a_strength : gives (.margin true) State.reset
    (fun t => statusIs 0x406#32 t && decide (t.mem = [])) = true := by decide +kernel

/-- Vector LD2: the luma of level n is n − 128, turned back by 90°; two entries. -/
theorem test_ldluma_90 : gives (.ldluma .deg90) (greyImage id)
    (fun t => decide (t.f64At 0x1008 = luma ⟨15#8, 15#8, 15#8⟩) &&
      decide (t.f64At 0x1040 = luma ⟨6#8, 6#8, 6#8⟩)) = true := by decide +kernel

/-- Vectors LU2, LU4 to LU7. -/
theorem test_luma : luma ⟨255#8, 255#8, 255#8⟩ = 0x405FC00000000000#64 ∧
    luma ⟨255#8, 0#8, 0#8⟩ = 0xC049E0A3D70A3D72#64 ∧ luma ⟨0#8, 255#8, 0#8⟩ = 0x4035AF5C28F5C290#64 ∧
    luma ⟨0#8, 0#8, 255#8⟩ = 0xC058BB851EB851EC#64 ∧ luma ⟨100#8, 150#8, 200#8⟩ = 0x4029800000000000#64 := by
  decide +kernel

/-- Vectors PU1 to PU5, PU8: ties to even, and both clamps. -/
theorem test_pixel_update : pixUpd 128#8 0x3FE0000000000000#64 = 128#8 ∧
    pixUpd 128#8 0x3FF8000000000000#64 = 130#8 ∧ pixUpd 128#8 0xBFE0000000000000#64 = 128#8 ∧
    pixUpd 0#8 0xC008000000000000#64 = 0#8 ∧ pixUpd 255#8 0x4000000000000000#64 = 255#8 ∧
    pixUpd 3#8 0xC00C000000000000#64 = 0#8 := by decide +kernel

/-- The levels of vector E1, row-major. -/
def e1Levels : List Nat :=
  [128, 130, 127, 123, 127, 134, 132, 122, 126, 128, 131, 131, 127, 124, 127, 132] ++
  [129, 125, 128, 133, 130, 121, 124, 134, 133, 125, 123, 128, 132, 130, 127, 127] ++
  [129, 129, 126, 124, 128, 133, 131, 123, 122, 132, 135, 126, 123, 128, 131, 127] ++
  [124, 129, 132, 129, 125, 125, 128, 130, 134, 124, 122, 129, 133, 129, 126, 128]

/-- Vector E1, the first row of pixels: a grey block with the bit 1 and strength 40. -/
theorem test_embed_deltas_of_a_grey_block :
    ((embedDeltas (block64 fun _ => luma ⟨128#8, 128#8, 128#8⟩) true (fofNat 40)).take 8).map
      (fun d => (pixUpd 128#8 d).toNat) = e1Levels.take 8 := by decide +kernel

/-- Vector E9g. -/
theorem test_embed_reports_the_image_before_the_payload : gives .embed State.reset
    (fun t => statusIs 0x206#32 t && decide (t.mem = [])) = true := by decide +kernel

/-- The grey levels of E1 as an image. -/
def e1Image (x y : Nat) : Rgb :=
  let v := BitVec.ofNat 8 (e1Levels.getD (8 * y + x) 0)
  ⟨v, v, v⟩

/-- Vectors H1 and H3: a rotation by 180° of a block changes the energy in the last bit. -/
theorem test_hype_energies : hypEnergy e1Image 8 8 ⟨.deg0, 0, 0⟩ 16 = 0x4043D4AD4380F312#64 ∧
    hypEnergy e1Image 8 8 ⟨.deg180, 0, 0⟩ 16 = 0x4043D4AD4380F311#64 := by decide +kernel

/-- Vector H9, the count. -/
theorem test_hype_counts_the_blocks : gives (.hype .deg0 1 0 .every16) (imageOf 8 8)
    (fun t => decide (t.energy = 0#64) && decide (t.ecount = 0#32)) = true ∧
    hypCount 40 24 ⟨.deg0, 7, 7⟩ 8 = 8 := by decide +kernel

/-- Vector S3. -/
theorem test_search_of_a_small_image : gives .search { imageOf 7 7 with conf := 1#64 }
    (fun t => decide (t.readReg 0x030 = 0#32) && decide (t.conf = 0#64) && statusIs 0x30A#32 t) = true := by
  decide +kernel

/-- Vector V2: the vote of one block turned by 180°. -/
theorem test_vote_180 :
    blockDiff e1Image 0 0 .deg180 = 0xC043D4AD4380F311#64 ∧ voteIndex 8 8 0 ⟨.deg180, 0, 0⟩ 0 0 = 0 := by
  decide +kernel

/-- Vector V4: no block, so no vote; the counts are still written. -/
theorem test_vote_of_a_small_image : gives (.vote .deg0 0 0) { imageOf 7 7 with blocks := 1#32 }
    (fun t => decide (t.payloadLen = 4096#13) && decide (t.blocks = 0#32) && statusIs 0x2#32 t) = true := by decide +kernel

/-- Vector V8: the payload length is written although there is no signal. -/
theorem test_decode_of_a_small_image : gives .decode { imageOf 7 7 with conf := 1#64 }
    (fun t => decide (t.payloadLen = 4096#13) && decide (t.conf = 0#64) && statusIs 0x30A#32 t) = true := by decide +kernel

/-- Vector SD1. -/
theorem test_ser : gives .ser
    ({ State.reset with textLen := 5#10 }.store 0x2400 [0x48#8, 0x45#8, 0x4C#8, 0x4C#8, 0x4F#8])
    (fun t => decide (t.bytesAt 0x2000 6 = [0x48#8, 0x45#8, 0x4C#8, 0x4C#8, 0x4F#8, 0x03#8]) &&
      decide (t.payloadLen = 48#13)) = true := by decide +kernel

/-- Vector SD3. -/
theorem test_deser_at_bit_3 : gives .deser
    ({ State.reset with payloadLen := 48#13, bitOffset := 3#3 }.store 0x2000
      [0x48#8, 0x45#8, 0x4C#8, 0x4C#8, 0x4F#8, 0x03#8])
    (fun t => decide (t.bytesAt 0x2400 5 = [0x42#8, 0x2A#8, 0x62#8, 0x62#8, 0x78#8]) &&
      decide (t.byteCount = 5#10)) = true := by decide +kernel

/-! ### The step -/

/-- A placed word is the first command after reset; EMBED then reports InvalidImage (vector E9a). -/
theorem test_step_runs_the_placed_word :
    (match step (State.reset.withFetchWord 32 0x00000009) with
      | .next t => statusIs 0x206#32 t && decide (t.readReg 0x008 = 0x9#32)
      | .fault _ => false
      | .refused _ => false) = true := by decide +kernel

/-- Vector E9h: IllegalCommand comes before InvalidImage. -/
theorem test_step_of_an_illegal_word :
    (match step (State.reset.withFetchWord 32 0x80000009) with
      | .next t => statusIs 0x506#32 t && decide (t.mem = [])
      | .fault _ => false
      | .refused _ => false) = true := by decide +kernel

/-! ### The host bus -/

/-- 20_memory R63: a narrow read has its bytes in the low lanes, whatever is in the others. -/
theorem test_narrow_read_data :
    (Size.byte.lanes 0x44434241#32 0xFFFFFFFF#32).extractLsb' 0 8 = 0x41#8 ∧
    (Size.half.lanes 0x44434241#32 0xFFFFFFFF#32).extractLsb' 0 16 = 0x4241#16 ∧
    Size.word.lanes 0x44434241#32 0xFFFFFFFF#32 = 0x44434241#32 := by decide

/-- 10_state R45, 93_implementation_defined U8: a reserved offset reads 0 while busy too. -/
theorem test_reserved_offset_while_busy :
    ((State.reset.accept 0x9#32).hostRead 0x060 .word).reply = some { resp := .okay, data := 0#32 } ∧
    ((State.reset.accept 0x9#32).hostRead 0xFFC .word).reply = some { resp := .okay, data := 0#32 } := by
  decide

/-! ### Witnesses: every hypothesis of a statement is met -/

/-- A bus address at an offset. -/
def at' (o : Word) : Word := Config.engineBase + o

theorem offsetOf_at (o : Word) : Spec.offsetOf (at' o) = o.toNat := by
  unfold Spec.offsetOf at'
  rw [BitVec.add_comm, BitVec.add_sub_cancel]

/-- A state that runs the command in CMD. -/
def running (w : Word) : State := State.reset.accept w

theorem witness_DecodeOfEncode : (Instr.hype .deg270 7 7 .every8).wellFormed = true := by decide

theorem witness_EncodeOfDecode : decode 0x01770305#32 = .ok (.hype .deg270 7 7 .every8) := by decide

theorem witness_DecodeSelectsTheTableRow :
    decode 0x00001003#32 = .ok (.margin true) ∧ decode 0x0000000C#32 = .error .reservedOpcode := by decide

theorem witness_IllegalWordsComplete :
    Spec.illegalWord 0x80000009#32 ∧ Spec.illegalWord 0x0000000C#32 ∧ decode 0#32 = .ok .nop ∧
    State.reset.status.busy = false ∧ Spec.offsetOf (at' 0x008#32) = 0x008 :=
  ⟨Or.inr ⟨31, by decide, by decide⟩, Or.inl (by decide), by decide, rfl, offsetOf_at _⟩

theorem witness_StepRunsTheDecodedCommand :
    (running 0x1#32).turns.headD Turn.quiet = Turn.quiet ∧ Turn.quiet.reset = false ∧
    Turn.quiet.access = none ∧ (running 0x1#32).status.busy = true ∧ Turn.quiet.engine = true ∧
    decode (running 0x1#32).cmd = .ok .fdct ∧ decode (running 0xC#32).cmd = .error .reservedOpcode ∧
    State.reset.status.busy = false ∧
    ({ State.reset with turns := [{ Turn.quiet with access := some (.read (at' 0x0#32) .word) }] } : State).turns.headD
      Turn.quiet = { Turn.quiet with access := some (.read (at' 0x0#32) .word) } :=
  ⟨rfl, rfl, rfl, rfl, rfl, by decide, by decide, rfl, rfl⟩

theorem witness_WriteToCmdIsAccepted :
    Spec.offsetOf (at' 0x008#32) = 0x008 ∧ State.reset.status.busy = false ∧
    (running 0x1#32).status.busy = true ∧ decode 0x6#32 = .ok .search :=
  ⟨offsetOf_at _, rfl, rfl, by decide⟩

theorem witness_EveryCommandCompletes : gives .search State.reset (fun t => t.status.err) = true ∧
    gives .search (imageOf 7 7) (fun t => t.status.warn) = true := by decide +kernel

theorem imageOk_iff {s : State} : Spec.imageOk s ↔
    (1 ≤ s.imgW.toNat ∧ s.imgW.toNat ≤ 4096) ∧ (1 ≤ s.imgH.toNat ∧ s.imgH.toNat ≤ 4096) := Iff.rfl

/-- Images of the least and the greatest size. -/
theorem imageOk_bounds : Spec.imageOk (imageOf 1 1) ∧ Spec.imageOk (imageOf 4096 4096) ∧
    ¬ Spec.imageOk (imageOf 0 8) ∧ ¬ Spec.imageOk (imageOf 8 4097) := by
  simp only [imageOk_iff]
  decide

theorem witness_FatalErrorsArePrecise :
    Spec.FirstError (.margin true) State.reset .badParameter ∧
    Spec.FirstError (.ldluma .deg0) (imageOf 7 8) .badParameter ∧
    Spec.FirstError (.hype .deg0 0 0 .every8) (imageOf 0 8) .invalidImage ∧
    Spec.FirstError .search (imageOf 8 4097) .invalidImage ∧
    Spec.FirstError (.vote .deg0 0 0) { imageOf 8 8 with sqw := 65#8 } .badParameter ∧
    Spec.FirstError .decode { imageOf 8 8 with sqw := 65#8 } .badParameter ∧
    Spec.FirstError .embed (imageOf 8 8) .emptyPayload ∧
    Spec.FirstError .embed { imageOf 8 8 with payloadLen := 4097#13, strength := 1#16 } .badParameter ∧
    Spec.FirstError .ser { State.reset with textLen := 512#10 } .badParameter ∧
    Spec.FirstError .deser { State.reset with payloadLen := 4097#13 } .badParameter ∧
    ¬ Spec.FirstError .nop State.reset .badParameter ∧
    decode (running 0xC#32).cmd = .error .reservedOpcode := by
  simp only [Spec.FirstError, imageOk_iff]
  and_intros <;> decide

theorem witness_CommandsWriteOnlyTheirOwn :
    ¬ Spec.writesLength .embed ∧ ¬ Spec.writesResult (.vote .deg0 0 0) ∧ ¬ Spec.writesBlocks .search ∧
    ¬ Spec.writesEnergy .search ∧ ¬ Spec.mayWrite .embed 0x01000003 ∧ ¬ Spec.mayWrite .ser 0x2200 := by
  refine ⟨?_, ?_, ?_, ?_, ?_, ?_⟩ <;>
    simp [Spec.writesLength, Spec.writesResult, Spec.writesBlocks, Spec.writesEnergy, Spec.mayWrite]

theorem witness_AlphaIsNeitherReadNorWritten :
    Spec.sameButAlpha State.reset (State.reset.store 0x01000003 [7#8]) ∧ Spec.alphaOffset 0x01000003 := by
  refine ⟨⟨rfl, fun a h => ?_⟩, by unfold Spec.alphaOffset; decide⟩
  have hne : a ≠ 0x01000003 := fun e => h (by unfold Spec.alphaOffset; omega)
  show (Memory.read? [(0x01000003, 7#8)] a).getD _ = _
  simp only [Memory.read?, if_neg (Ne.symm hne)]
  rfl

theorem witness_StrengthIsReadByMarginAndEmbedOnly :
    (∀ b, Instr.search ≠ .margin b) ∧ Instr.search ≠ .embed :=
  ⟨fun b h => (by cases h), fun h => (by cases h)⟩

theorem witness_RegistersAfterReset : (0xFFC : Nat) < 0x1000 ∧ 0xFFC % 4 = 0 := by decide

theorem witness_ResetTakesPrecedence :
    (({ running 0x9#32 with turns := [{ Turn.quiet with reset := true }] } : State).turns.headD
      Turn.quiet).reset = true := rfl

/-- Misaligned, too narrow for the register page, and at each edge of the unmapped ranges. -/
theorem witness_RefusedAccessesHaveNoEffect :
    Spec.refused (Spec.offsetOf (at' 0x1001#32)) .half ∧ Spec.refused (Spec.offsetOf (at' 0x00C#32)) .half ∧
    Spec.refused (Spec.offsetOf (at' 0xFFC#32)) .byte ∧ Spec.refused (Spec.offsetOf (at' 0x1200#32)) .word ∧
    Spec.refused (Spec.offsetOf (at' 0xC000#32)) .byte ∧
    Spec.refused (Spec.offsetOf (at' 0x05000000#32)) .word ∧
    ¬ Spec.refused (Spec.offsetOf (at' 0x11FF#32)) .byte ∧
    ¬ Spec.refused (Spec.offsetOf (at' 0x04FFFFFC#32)) .word ∧
    ¬ Spec.refused (Spec.offsetOf (at' 0x01000000#32)) .half := by
  simp only [offsetOf_at]
  unfold Spec.refused Spec.inMemories
  and_intros <;> decide

theorem witness_WritesWhileBusyAreRejected : (running 0x9#32).status.busy = true ∧
    ¬ Spec.refused (Spec.offsetOf (at' 0x000#32)) .word ∧
    Spec.offsetOf (at' 0x000#32) ≠ 0x058 ∧ Spec.offsetOf (at' 0x000#32) ≠ 0x05C ∧
    ¬ Spec.refused (Spec.offsetOf (at' 0x04FFFFFF#32)) .byte := by
  simp only [offsetOf_at]
  unfold Spec.refused Spec.inMemories
  and_intros <;> decide

theorem witness_ReadsWhileBusy :
    Spec.offsetOf (at' 0x00C#32) ∈ Spec.steadyOffsets ∧ Spec.offsetOf (at' 0x05C#32) ∈ Spec.steadyOffsets ∧
    Spec.offsetOf (at' 0x020#32) = 0x020 ∧ ¬ Spec.runsLengthWriter (running 0x9#32) ∧
    Spec.runsLengthWriter (running 0xA#32) ∧ Spec.offsetOf (at' 0x04C#32) ∈ Spec.resultOffsets ∧
    Spec.inMemories (Spec.offsetOf (at' 0x25FF#32)) ∧ ¬ Spec.refused (Spec.offsetOf (at' 0x25FF#32)) .byte ∧
    ¬ Spec.refused (Spec.offsetOf (at' 0x04C#32)) .word ∧
    (Spec.reserved (Spec.offsetOf (at' 0x060#32)) ∧ ¬ Spec.refused (Spec.offsetOf (at' 0x060#32)) .word) ∧
    (Spec.reserved (Spec.offsetOf (at' 0xFFC#32)) ∧ ¬ Spec.refused (Spec.offsetOf (at' 0xFFC#32)) .word) ∧
    Spec.offsetOf (at' 0x050#32) = 0x050 ∧ ¬ Spec.refused (Spec.offsetOf (at' 0x050#32)) .word ∧
    Spec.offsetOf (at' 0x054#32) = 0x054 ∧ ¬ Spec.refused (Spec.offsetOf (at' 0x054#32)) .word := by
  have hd : decode (running 0x9#32).cmd = .ok .embed := by decide
  refine ⟨?_, ?_, offsetOf_at _, ?_, ⟨.ser, by decide, .inl rfl⟩, ?_, ?_, ?_, ?_, ?_⟩
  · rw [offsetOf_at]; decide
  · rw [offsetOf_at]; decide
  · rintro ⟨i, hi, hw⟩
    rw [hd] at hi
    cases hi
    simp [Spec.writesLength] at hw
  · rw [offsetOf_at]; decide
  · rw [offsetOf_at]; unfold Spec.inMemories; decide
  · rw [offsetOf_at]; unfold Spec.refused Spec.inMemories; decide
  · rw [offsetOf_at]; unfold Spec.refused Spec.inMemories; decide
  · simp only [offsetOf_at]
    unfold Spec.reserved Spec.refused Spec.inMemories
    and_intros <;> decide

theorem witness_ReadsWhileIdle : State.reset.status.busy = false ∧
    ¬ Spec.refused (Spec.offsetOf (at' 0xFFC#32)) .word ∧
    ¬ Spec.refused (Spec.offsetOf (at' 0xBFFF#32)) .byte ∧ (3 : Nat) < Spec.width .word := by
  simp only [offsetOf_at]
  unfold Spec.refused Spec.inMemories
  and_intros <;> decide

theorem witness_MemoryWritesAreLittleEndian : State.reset.status.busy = false ∧
    (¬ Spec.refused (Spec.offsetOf (at' 0x21FE#32)) .half ∧ Spec.inMemories (Spec.offsetOf (at' 0x21FE#32)) ∧
      ¬ Spec.inVotes (Spec.offsetOf (at' 0x21FE#32))) ∧
    (¬ Spec.refused (Spec.offsetOf (at' 0xBFFC#32)) .word ∧ Spec.inMemories (Spec.offsetOf (at' 0xBFFC#32)) ∧
      Spec.inVotes (Spec.offsetOf (at' 0xBFFC#32))) := by
  simp only [offsetOf_at]
  unfold Spec.refused Spec.inMemories Spec.inVotes
  and_intros <;> decide

theorem witness_TwoWritesMakeOneEntry : State.reset.status.busy = false ∧
    Spec.offsetOf (at' 0x11F8#32) = 0x1000 + 8 * 63 ∧ Spec.offsetOf (at' 0x11FC#32) = 0x1000 + 8 * 63 + 4 :=
  ⟨rfl, offsetOf_at _, offsetOf_at _⟩

theorem witness_RegisterWritesStoreTheNamedFields : State.reset.status.busy = false ∧
    Spec.offsetOf (at' 0x058#32) = 0x058 ∧ Spec.hostWritable 0x058 ∧
    Spec.offsetOf (at' 0xFFC#32) = 0xFFC ∧ ¬ Spec.hostWritable 0xFFC ∧ ¬ Spec.hostWritable 0x000 :=
  ⟨rfl, offsetOf_at _, by unfold Spec.hostWritable; decide, offsetOf_at _,
    by unfold Spec.hostWritable; decide, by unfold Spec.hostWritable; decide⟩

theorem witness_RegistersReadTheirFields : 0x060 ≤ 0xFFF ∧ 0xFFF < 0x1000 := by decide

theorem witness_IrqStatIsWriteOneToClear :
    Spec.offsetOf (at' 0x05C#32) = 0x05C ∧ (1#32).getLsbD 0 = true ∧ (0xFFFFFFFE#32).getLsbD 0 = false :=
  ⟨offsetOf_at _, rfl, rfl⟩

theorem witness_IrqFollowsEnableAndPending :
    Spec.offsetOf (at' 0x05C#32) = 0x05C ∧ (1#32).getLsbD 0 = true ∧ Spec.offsetOf (at' 0x058#32) = 0x058 :=
  ⟨offsetOf_at _, rfl, offsetOf_at _⟩

theorem witness_CompletionAfterClearLeavesPending : (running 0x0#32).status.busy = true ∧
    Spec.offsetOf (at' 0x05C#32) = 0x05C ∧ (1#32).getLsbD 0 = true ∧
    ({ running 0x0#32 with turns := [
      { reset := false, access := some (.write (at' 0x05C#32) .word 1#32), engine := true }] } : State).turns =
      { reset := false, access := some (.write (at' 0x05C#32) .word 1#32), engine := true } :: [] :=
  ⟨rfl, offsetOf_at _, rfl, rfl⟩

/-- A state that meets the invariants and from which a step runs a command. -/
theorem witness_StepKeepsTheInvariant :
    (running 0x0#32).Inv ∧ (running 0x0#32).EnergyInv ∧ ∃ t, step (running 0x0#32) = .next t := by
  refine ⟨⟨by decide, fun c hc => (by cases hc), ⟨fun _ => ⟨rfl, rfl, rfl, rfl⟩, fun h => (by cases h),
    fun h => (by cases h), fun h => (by cases h)⟩, by decide, by decide, by decide⟩, ⟨?_, ?_⟩, _, rfl⟩ <;>
    (unfold notNegative; decide)

theorem witness_ArithmeticIsCorrectlyRounded :
    Spec.isFinite 0x7FEFFFFFFFFFFFFF#64 ∧ Spec.isFinite 0x0000000000000001#64 ∧ Spec.isFinite 0x8000000000000000#64 ∧
    Spec.units 0x0000000000000001#64 ≠ 0 := by
  unfold Spec.isFinite Spec.units Spec.exponent Spec.fraction
  decide +kernel

theorem witness_SpecialValuesFollowIeee :
    Spec.isNaN 0x7FF0000000000001#64 ∧ Spec.isInf 0x7FF0000000000000#64 ∧ Spec.isInf 0xFFF0000000000000#64 ∧
    Spec.isFinite 0x7FEFFFFFFFFFFFFF#64 ∧ Spec.isZero 0x8000000000000000#64 ∧
    ¬ Spec.isZero 0x0000000000000001#64 ∧
    Spec.units 0x3FF0000000000000#64 + Spec.units 0xBFF0000000000000#64 = 0 ∧
    Spec.units 0x0000000000000000#64 - Spec.units 0x8000000000000000#64 = 0 := by
  unfold Spec.isFinite Spec.isNaN Spec.isInf Spec.isZero Spec.units Spec.exponent Spec.fraction
  decide +kernel

theorem witness_ComparisonAndSign : Spec.isFinite 0x8000000000000000#64 ∧ Spec.isFinite 0x0000000000000000#64 ∧
    Spec.isNaN 0xFFF8000000000000#64 ∧ Spec.isInf 0x7FF0000000000000#64 ∧
    ¬ Spec.isNaN 0xFFF0000000000000#64 := by
  unfold Spec.isFinite Spec.isNaN Spec.isInf Spec.exponent Spec.fraction
  decide

theorem witness_ConversionsAndPixelUpdate : 2 ^ 53 - 1 < 2 ^ 53 ∧ Spec.isFinite 0x3FE0000000000000#64 ∧
    2 * |frne 0x3FE0000000000000#64 * 2 ^ 1074 - Spec.units 0x3FE0000000000000#64| = 2 ^ 1074 := by
  unfold Spec.isFinite Spec.units Spec.exponent Spec.fraction
  decide +kernel

theorem witness_BasisIsSymmetric : (7 : Nat) < 8 := by decide

theorem witness_MarginResult : ({ State.reset with strength := 1#16 } : State).strength.toNat ≠ 0 ∧
    ({ State.reset with strength := 0xFFFF#16 } : State).strength.toNat ≠ 0 := by decide

/-- A block that just fits in each axis. -/
theorem witness_LdlumaResult :
    let s : State := { imageOf 16 8 with blkPos := { x0 := 8#13, y0 := 0#13 } }
    Spec.imageOk s ∧ s.blkPos.x0.toNat + 8 ≤ s.imgW.toNat ∧ s.blkPos.y0.toNat + 8 ≤ s.imgH.toNat := by
  simp only [imageOk_iff]
  decide

theorem witness_HypeResult : Spec.imageOk (imageOf 4096 1) ∧ (7 : Nat) < 8 := by
  simp only [imageOk_iff]
  decide

theorem witness_SearchResult : Spec.imageOk (imageOf 7 7) := by
  simp only [imageOk_iff]
  decide

theorem witness_VoteResult : let s : State := { imageOf 8 8 with sqw := 64#8 }
    Spec.imageOk s ∧ s.sqw.toNat ≤ 64 := by
  simp only [imageOk_iff]
  decide

theorem witness_DecodeIsSearchThenVote : Spec.imageOk (imageOf 8 8) ∧ (imageOf 8 8).sqw.toNat ≤ 64 := by
  simp only [imageOk_iff]
  decide

theorem embedOk_iff {s : State} : Spec.embedOk s ↔
    ((1 ≤ s.imgW.toNat ∧ s.imgW.toNat ≤ 4096) ∧ (1 ≤ s.imgH.toNat ∧ s.imgH.toNat ≤ 4096)) ∧
    1 ≤ s.payloadLen.toNat ∧ s.payloadLen.toNat ≤ 4096 ∧ 1 ≤ s.strength.toNat ∧
    s.sqw.toNat ≤ 64 ∧ (s.sqw.toNat ≠ 0 → s.payloadLen.toNat = s.sqw.toNat * s.sqw.toNat) := Iff.rfl

/-- Flat mode, and square mode of the greatest width; a block that holds pixels, and an offset outside. -/
theorem witness_EmbedResult :
    Spec.embedOk { imageOf 15 8 with payloadLen := 1#13, strength := 1#16 } ∧
    Spec.embedOk { imageOf 8 8 with payloadLen := 4096#13, strength := 0xFFFF#16, sqw := 64#8 } ∧
    0 < (imageOf 15 8).imgW.toNat / 8 ∧ 0 < (imageOf 15 8).imgH.toNat / 8 ∧
    ¬ Spec.embeddedOffset (imageOf 15 8) 0x01000003 := by
  refine ⟨embedOk_iff.mpr (by decide), embedOk_iff.mpr (by decide), by decide, by decide, ?_⟩
  rintro ⟨x, y, c, -, -, hc, h⟩
  unfold Spec.channelOffset at h
  omega

theorem witness_SerResult : ({ State.reset with textLen := 511#10 } : State).textLen.toNat ≤ 511 := by decide

theorem witness_DeserResult : ({ State.reset with payloadLen := 4096#13 } : State).payloadLen.toNat ≤ 4096 := by
  decide

theorem witness_SerThenDeserReturnsTheText :
    let s : State := { State.reset with textLen := 511#10 }
    s.textLen.toNat ≤ 511 ∧ s.bitOffset = 0#3 := by decide

theorem witness_CoarseStageKeepsTheFirstMaximum : Spec.imageOk (imageOf 8 8) := by
  simp only [imageOk_iff]
  decide

theorem witness_NoSignalMeansNoneAboveFloor : Spec.imageOk (imageOf 7 4096) := by
  simp only [imageOk_iff]
  decide

theorem witness_SearchEvaluates72Hypotheses :
    (⟨.deg0, 0, 7⟩ : Hyp).ox < 8 ∧ (⟨.deg0, 0, 7⟩ : Hyp).oy < 8 ∧
    (⟨.deg0, 7, 0⟩ : Hyp) ∈ neighbours ⟨.deg0, 0, 7⟩ := by decide

theorem witness_SampledBlocksAreThoseInside : 0 < 16 ∧ 1 < samples 24 0 16 := by decide

/-- A grid wider than high, at each rotation, at the last block. -/
theorem witness_RemapIsOneToOneIntoTheGrid : 4 < 5 ∧ 2 < 3 ∧
    remap 5 3 .deg90 4 2 = (2, 0) ∧ remap 5 3 .deg270 4 2 = (0, 4) := by decide

theorem witness_TilingIndicesAreInRange :
    Spec.embedOk { imageOf 8 8 with payloadLen := 1#13, strength := 1#16 } ∧ 0 < 1 :=
  ⟨embedOk_iff.mpr (by decide), by decide⟩

theorem witness_ValuesFromPixelsAreFinite : (7 : Nat) < 8 ∧ 0 < 8 ∧ 63 < 64 := by decide

theorem witness_HalfTurnReversesALoadedBlock : Rotation.deg90.code = Rotation.deg270.code + 2#2 ∧
    Rotation.deg180.code = Rotation.deg0.code + 2#2 ∧ 63 < 64 := by decide

end Sys2Proof.Tests
end

section
/-! PROOF. What a binary64 pattern stands for in the specification's own words, and the statements on
comparison, sign, conversion and the pixel update (00_scope R10; 41_embed R122, R124). -/

namespace Sys2Proof.Machine

/-! ### The fields of a pattern -/

theorem expField_eq_exponent (x : F64) : expField x = Spec.exponent x := by
  rw [expField, Spec.exponent, Nat.shiftRight_eq_div_pow, show (2 : Nat) ^ 11 = 2048 by norm_num]

theorem fracField_eq_fraction (x : F64) : fracField x = Spec.fraction x := by
  rw [fracField, Spec.fraction, show (2 : Nat) ^ 52 = 4503599627370496 by norm_num]

theorem signField_eq_msb (x : F64) : signField x = x.msb := by
  rw [BitVec.msb_eq_decide, Bool.eq_iff_iff, signField, Nat.ble_eq, decide_eq_true_iff]

/-- A pattern is its three fields, one above the other. -/
theorem toNat_eq_fields (x : F64) :
    x.toNat = x.msb.toNat * 2 ^ 63 + Spec.exponent x * 2 ^ 52 + Spec.fraction x := by
  have hx := x.isLt
  rw [BitVec.msb_eq_decide, Spec.exponent, Spec.fraction]
  by_cases h : 2 ^ (64 - 1) ≤ x.toNat
  · rw [decide_eq_true h, Bool.toNat_true]; omega
  · rw [decide_eq_false h, Bool.toNat_false]; omega

/-- There is one infinity of each sign. -/
theorem isInf_ext {x y : F64} (hx : Spec.isInf x) (hy : Spec.isInf y) (h : x.msb = y.msb) : x = y := by
  obtain ⟨hxe, hxf⟩ := hx
  obtain ⟨hye, hyf⟩ := hy
  apply BitVec.eq_of_toNat_eq
  rw [toNat_eq_fields, toNat_eq_fields y, h, hxe, hxf, hye, hyf]

/-! ### The datum of a pattern -/

theorem unpack_of_isNaN {x : F64} (h : Spec.isNaN x) : unpack x = .nan := by
  obtain ⟨he, hf⟩ := h
  rw [unpack, expField_eq_exponent, fracField_eq_fraction, if_pos he, if_neg hf]

theorem unpack_of_isInf {x : F64} (h : Spec.isInf x) : unpack x = .inf x.msb := by
  obtain ⟨he, hf⟩ := h
  rw [unpack, expField_eq_exponent, fracField_eq_fraction, if_pos he, if_pos hf, signField_eq_msb]

theorem signedMag_eq_mul (neg : Bool) (m : Nat) : signedMag neg m = (if neg then -1 else 1) * (m : Int) := by
  cases neg <;> simp [signedMag]

/-- A finite pattern stands for its number of units. -/
theorem unpack_of_isFinite {x : F64} (h : Spec.isFinite x) :
    ∃ m, unpack x = .fin x.msb m ∧ signedMag x.msb m = Spec.units x := by
  rw [unpack, expField_eq_exponent, fracField_eq_fraction, signField_eq_msb, if_neg h, Spec.units]
  by_cases he : Spec.exponent x = 0
  · rw [if_pos he, if_pos he]
    exact ⟨_, rfl, signedMag_eq_mul _ _⟩
  · rw [if_neg he, if_neg he]
    refine ⟨_, rfl, ?_⟩
    rw [signedMag_eq_mul, Nat.shiftLeft_eq]
    push_cast
    rfl

theorem isFinite_of_unpack {x : F64} {neg : Bool} {m : Nat} (h : unpack x = .fin neg m) :
    Spec.isFinite x := by
  intro he
  by_cases hf : Spec.fraction x = 0
  · rw [unpack_of_isInf ⟨he, hf⟩] at h
    cases h
  · rw [unpack_of_isNaN ⟨he, hf⟩] at h
    cases h

theorem units_of_unpack {x : F64} {neg : Bool} {m : Nat} (h : unpack x = .fin neg m) :
    Spec.units x = signedMag neg m := by
  obtain ⟨n, hn, hu⟩ := unpack_of_isFinite (isFinite_of_unpack h)
  rw [h] at hn
  injection hn with hs hm
  rw [hs, hm, hu]

theorem isInf_or_isFinite {x : F64} (h : ¬ Spec.isNaN x) : Spec.isInf x ∨ Spec.isFinite x := by
  by_cases he : Spec.exponent x = 2047
  · exact .inl ⟨he, by_contra fun hf => h ⟨he, hf⟩⟩
  · exact .inr he

/-! ### The order -/

theorem orderKey_of_isFinite {x : F64} (h : Spec.isFinite x) :
    orderKey (unpack x) = some (Spec.units x) := by
  obtain ⟨m, hm, hu⟩ := unpack_of_isFinite h
  rw [hm, orderKey, hu]

theorem orderKey_of_isInf {x : F64} (h : Spec.isInf x) :
    orderKey (unpack x) = some (signedMag x.msb (1 <<< 2200)) := by
  rw [unpack_of_isInf h, orderKey]

theorem orderKey_of_isNaN {x : F64} (h : Spec.isNaN x) : orderKey (unpack x) = none := by
  rw [unpack_of_isNaN h, orderKey]

theorem flt_of_orderKey {x y : F64} {a b : Int} (hx : orderKey (unpack x) = some a)
    (hy : orderKey (unpack y) = some b) : flt x y = decide (a < b) := by
  rw [flt, hx, hy]

/-- Every finite magnitude lies below 2^2101 units, so below the place of the infinities. -/
theorem magnitude_lt {x : F64} {neg : Bool} {m k : Nat} (h : unpack x = .fin neg m) (hk : 2101 ≤ k) :
    m < 1 <<< k := by
  obtain ⟨a, b, ha, hb, rfl⟩ := unpack_significand h
  rw [Nat.one_shiftLeft]
  calc a * 2 ^ b < 2 ^ 53 * 2 ^ b := Nat.mul_lt_mul_of_pos_right ha (Nat.two_pow_pos _)
    _ = 2 ^ (53 + b) := (Nat.pow_add _ _ _).symm
    _ ≤ 2 ^ k := Nat.pow_le_pow_right (by omega) (by omega)

theorem signedMag_between {m B : Nat} (h : m < B) (neg : Bool) :
    signedMag true B < signedMag neg m ∧ signedMag neg m < signedMag false B := by
  cases neg <;> simp only [signedMag, if_true, Bool.false_eq_true, if_false] <;> omega

/-- The place of a number other than an infinity `x` lies strictly inside of that of `x`. -/
theorem orderKey_inside_isInf {x y : F64} (hx : Spec.isInf x) (hy : ¬ Spec.isNaN y) (hne : y ≠ x) :
    ∃ b, orderKey (unpack y) = some b ∧
      (x.msb = true → signedMag true (1 <<< 2200) < b) ∧
      (x.msb = false → b < signedMag false (1 <<< 2200)) := by
  rcases isInf_or_isFinite hy with hy | hy
  · have hs : y.msb = !x.msb := Bool.eq_not_of_ne fun h => hne (isInf_ext hy hx h)
    obtain ⟨hlow, hhigh⟩ := signedMag_between (one_shiftLeft_pos 2200) false
    refine ⟨_, orderKey_of_isInf hy, fun h => ?_, fun h => ?_⟩ <;> rw [hs, h] <;>
      exact hlow.trans hhigh
  · obtain ⟨m, hm, hu⟩ := unpack_of_isFinite hy
    obtain ⟨hlow, hhigh⟩ := signedMag_between (magnitude_lt hm (by omega : 2101 ≤ 2200)) y.msb
    rw [hu] at hlow hhigh
    exact ⟨_, orderKey_of_isFinite hy, fun _ => hlow, fun _ => hhigh⟩

/-- −∞ is below, and +∞ above, every other number. -/
theorem flt_of_isInf {x y : F64} (hx : Spec.isInf x) (hy : ¬ Spec.isNaN y) (hne : y ≠ x) :
    (x.msb = true → flt x y = true) ∧ (x.msb = false → flt y x = true) := by
  obtain ⟨b, hb, hlow, hhigh⟩ := orderKey_inside_isInf hx hy hne
  have hk := orderKey_of_isInf hx
  refine ⟨fun h => ?_, fun h => ?_⟩ <;> rw [h] at hk
  · rw [flt_of_orderKey hk hb, decide_eq_true (hlow h)]
  · rw [flt_of_orderKey hb hk, decide_eq_true (hhigh h)]

theorem flt_isFinite_iff {x y : F64} (hx : Spec.isFinite x) (hy : Spec.isFinite y) :
    flt x y = true ↔ Spec.units x < Spec.units y := by
  rw [flt_of_orderKey (orderKey_of_isFinite hx) (orderKey_of_isFinite hy), decide_eq_true_iff]

theorem flt_of_isNaN {x y : F64} (h : Spec.isNaN x ∨ Spec.isNaN y) : flt x y = false := by
  rw [← Bool.not_eq_true, flt_eq_true_iff]
  rintro ⟨a, b, ha, hb, -⟩
  rcases h with h | h
  · rw [orderKey_of_isNaN h] at ha
    cases ha
  · rw [orderKey_of_isNaN h] at hb
    cases hb

theorem flt_isInf_iff {x y : F64} (hx : Spec.isInf x) (hy : ¬ Spec.isNaN y) :
    (flt x y = true ↔ x.msb = true ∧ y ≠ x) ∧ (flt y x = true ↔ x.msb = false ∧ y ≠ x) := by
  by_cases hne : y = x
  · subst hne
    simp [flt_irrefl]
  · obtain ⟨hlow, hhigh⟩ := flt_of_isInf hx hy hne
    cases hs : x.msb with
    | true => simp [hlow hs, flt_asymm (hlow hs), hne]
    | false => simp [hhigh hs, flt_asymm (hhigh hs), hne]

/-! ### The sign bit -/

theorem fneg_msb (x : F64) : (fneg x).msb = !x.msb := by
  rw [← signField_eq_msb, signField_fneg, signField_eq_msb]

theorem below_sign_ext {x y : F64} (h : x.toNat % 2 ^ 63 = y.toNat % 2 ^ 63) :
    x.extractLsb' 0 63 = y.extractLsb' 0 63 := by
  apply BitVec.eq_of_toNat_eq
  rw [BitVec.extractLsb'_toNat, BitVec.extractLsb'_toNat, Nat.shiftRight_zero, Nat.shiftRight_zero, h]

theorem fneg_below_sign (x : F64) : (fneg x).extractLsb' 0 63 = x.extractLsb' 0 63 :=
  below_sign_ext (by rw [fneg_toNat]; omega)

theorem fabs_toNat (x : F64) : (fabs x).toNat = x.toNat % 2 ^ 63 := by
  rw [fabs, BitVec.toNat_and]
  exact Nat.and_two_pow_sub_one_eq_mod x.toNat 63

theorem fabs_msb (x : F64) : (fabs x).msb = false := by
  rw [BitVec.msb_eq_decide, fabs_toNat, decide_eq_false_iff_not]
  omega

theorem fabs_below_sign (x : F64) : (fabs x).extractLsb' 0 63 = x.extractLsb' 0 63 :=
  below_sign_ext (by rw [fabs_toNat, Nat.mod_mod])

/-- Settles O31: the order keys of finite numbers are their units, those of the infinities lie beyond every
finite one, and a NaN has none. -/
theorem comparisonAndSign : Obligations.ComparisonAndSign :=
  ⟨fun _ _ => flt_isFinite_iff, fun _ _ => flt_of_isNaN, fun _ _ => flt_isInf_iff,
    fun x => ⟨fneg_msb x, fneg_below_sign x⟩, fun x => ⟨fabs_msb x, fabs_below_sign x⟩⟩

/-! ### Conversions and the pixel update -/

theorem isFinite_fofNat {n : Nat} (h : n < 2 ^ 53) : Spec.isFinite (fofNat n) :=
  isFinite_of_unpack (unpack_fofNat h)

theorem units_fofNat {n k : Nat} (h : n < 2 ^ 53) (hk : k = 1074) :
    Spec.units (fofNat n) = n * 2 ^ k := by
  rw [units_of_unpack (unpack_fofNat h), ← hk, signedMag, if_neg Bool.false_ne_true, Nat.shiftLeft_eq]
  push_cast
  rfl

/-- The rounded quotient is within one half of the exact one, and even where it is that far. -/
theorem divRne_error {num den : Nat} (hd : 0 < den) :
    2 * |(divRne num den : Int) * den - num| ≤ den ∧
      (2 * |(divRne num den : Int) * den - num| = den → divRne num den % 2 = 0) := by
  obtain ⟨⟨hlow, hhigh⟩, htie⟩ := divRne_nearest (num := num) hd
  generalize divRne num den = q at *
  have e1 : den * (2 * q + 1) = 2 * (q * den) + den := by ring
  have e2 : den * (2 * q) = 2 * (q * den) := by ring
  rw [e1, e2] at htie
  rw [e1] at hlow
  rw [e2] at hhigh
  rw [← Nat.cast_mul]
  clear e1 e2
  generalize q * den = p at *
  rcases abs_cases ((p : Int) - num) with ⟨habs, -⟩ | ⟨habs, -⟩ <;> rw [habs]
  · exact ⟨by omega, fun h => htie (.inr (by omega))⟩
  · exact ⟨by omega, fun h => htie (.inl (by omega))⟩

/-- A common sign does not change a distance. -/
theorem abs_signedMag_sub (neg : Bool) (q d m : Nat) :
    |signedMag neg q * d - signedMag neg m| = |(q : Int) * d - m| := by
  cases neg with
  | false => rfl
  | true =>
    simp only [signedMag, if_true]
    rw [abs_sub_comm]
    congr 1
    ring

theorem signedMag_even {neg : Bool} {q : Nat} (h : q % 2 = 0) : signedMag neg q % 2 = 0 := by
  unfold signedMag
  split <;> omega

theorem frne_of_unpack {x : F64} {neg : Bool} {m : Nat} (h : unpack x = .fin neg m) :
    frne x = signedMag neg (divRne m (1 <<< 1074)) := by
  rw [frne, h]

/-- `rne` of a finite number is a nearest integer, the even one of two. -/
theorem frne_nearest {x : F64} (h : Spec.isFinite x) {k : Nat} (hk : k = 1074) :
    2 * |frne x * 2 ^ k - Spec.units x| ≤ 2 ^ k ∧
      (2 * |frne x * 2 ^ k - Spec.units x| = 2 ^ k → frne x % 2 = 0) := by
  obtain ⟨m, hm, hu⟩ := unpack_of_isFinite h
  obtain ⟨hle, htie⟩ := divRne_error (num := m) (one_shiftLeft_pos k)
  have hden : (2 : Int) ^ k = ((1 <<< k : Nat) : Int) := by
    rw [Nat.one_shiftLeft]
    push_cast
    rfl
  rw [frne_of_unpack hm, ← hu, ← hk, hden, abs_signedMag_sub]
  exact ⟨hle, fun he => signedMag_even (htie he)⟩

theorem clampByte_toNat (n : Int) : ((clampByte n).toNat : Int) = min (max n 0) 255 := by
  rw [clampByte, BitVec.toNat_ofNat]
  omega

theorem pixUpd_toNat (v : Byte) (delta : F64) : ((pixUpd v delta).toNat : Int) = Spec.updated v delta :=
  clampByte_toNat _

/-- Settles O32: 53 bits hold `n`, the rounded quotient of a magnitude by 2^1074 is a nearest one, and the
clamp keeps the sum within a byte. -/
theorem conversionsAndPixelUpdate : Obligations.ConversionsAndPixelUpdate :=
  ⟨fun _ h => ⟨isFinite_fofNat h, units_fofNat h rfl⟩, fun _ h => frne_nearest h rfl, pixUpd_toNat⟩

end Sys2Proof.Machine
end

section
/-! PROOF. A command as its checks, the effect of its statements and its completion; everything a command, a
host access and a step can do (60_exceptions R202, R206, R209). -/

namespace Sys2Proof.Machine

/-! ### A command as checks, effect and completion -/

/-- The checks of a command, in the order of 60_exceptions R203. -/
def checksOf (i : Instr) (s : State) : List (Bool × Code) :=
  match i with
  | .nop => []
  | .fdct => []
  | .idct => []
  | .margin _ => [(decide (s.strength.toNat = 0), .badParameter)]
  | .ldluma _ => [(s.imageInvalid, .invalidImage), (s.blkPosBad, .badParameter)]
  | .hype _ _ _ _ => [(s.imageInvalid, .invalidImage)]
  | .search => [(s.imageInvalid, .invalidImage)]
  | .vote _ _ _ => [(s.imageInvalid, .invalidImage), (s.sqwBad, .badParameter)]
  | .decode => [(s.imageInvalid, .invalidImage), (s.sqwBad, .badParameter)]
  | .embed =>
    [(s.imageInvalid, .invalidImage), (decide (s.payloadLen.toNat = 0), .emptyPayload),
      (s.embedParamsBad, .badParameter)]
  | .ser => [(decide (Config.maxText < s.textLen.toNat), .badParameter)]
  | .deser => [(decide (Config.payloadCap < s.payloadLen.toNat), .badParameter)]

/-- What the statements of a command write, before its completion. -/
def effectOf (i : Instr) (s : State) : State :=
  match i with
  | .nop => s
  | .fdct => s.storeBlk (fdct s.blk)
  | .idct => s.storeBlk (idct s.blk)
  | .margin bit => s.storeBlk (margin s.blk bit s.strengthP)
  | .ldluma rot => s.storeBlk (loadBlock s.rgbAt s.blkPos.x0.toNat s.blkPos.y0.toNat rot)
  | .hype rot ox oy stride => s.measure { rot := rot, ox := ox, oy := oy } stride.pixels
  | .search => s.recordWinner s.winner
  | .vote rot ox oy => s.fullDecode { rot := rot, ox := ox, oy := oy }
  | .decode => (s.recordWinner s.winner).fullDecode s.winner.hyp
  | .embed => s.embedImage.setBlocks (s.width / 8 * (s.height / 8))
  | .ser => (s.storePbits (8 * (s.textLen.toNat + 1)) s.serBit).setPayloadLen (8 * (s.textLen.toNat + 1))
  | .deser => (s.storeText ((List.range s.deserCount).map s.deserByte)).setByteCount s.deserCount

/-- The completion code of a command that ran from `s` (42_search R150; 60_exceptions R204). -/
def codeOf (i : Instr) (s : State) : Code :=
  match i with
  | .search => if flt s.floor s.winner.energy then .none else .noSignalDetected
  | .decode => if flt s.floor s.winner.energy then .none else .noSignalDetected
  | _ => .none

/-- The completion with a code, ERR and WARN as 60_exceptions R200 ties them to it. -/
def State.completeWith (s : State) (c : Code) : State :=
  s.complete c c.fatal (decide (c = .noSignalDetected))

theorem State.finishSearch_eq (s : State) (e : F64) :
    s.finishSearch e = s.completeWith (if flt s.floor e then .none else .noSignalDetected) := by
  unfold State.finishSearch
  split <;> rfl

theorem raise_of_fatal {e : Code} (s : State) (h : e.fatal = true) : s.raise e = s.completeWith e := by
  cases e <;> first | rfl | cases h

@[simp] theorem State.fullDecode_floor (s : State) (hyp : Hyp) : (s.fullDecode hyp).floor = s.floor := by
  obtain ⟨m, p, b, h⟩ := s.fullDecode_eq hyp
  rw [h]

/-- Every command is its checks, its statements and its completion. -/
theorem exec_eq_runChecked (i : Instr) (s : State) :
    exec i s = runChecked s (checksOf i s) fun s => (effectOf i s).completeWith (codeOf i s) := by
  cases i with
  | nop => rfl
  | fdct => rfl
  | idct => rfl
  | margin bit => rfl
  | ldluma rot => rfl
  | hype rot ox oy stride => rfl
  | search =>
    simp only [exec, execSearch, State.finishSearch_eq]
    rfl
  | vote rot ox oy => rfl
  | decode =>
    simp only [exec, execDecode, State.finishSearch_eq, State.fullDecode_floor]
    rfl
  | embed => rfl
  | ser => rfl
  | deser => rfl

/-- Every check reports a fatal error (60_exceptions R201). -/
theorem checksOf_fatal (i : Instr) (s : State) : ∀ c ∈ checksOf i s, c.2.fatal = true := by
  cases i <;> simp [checksOf, Code.fatal]

/-- No check of the command fails. -/
def accepts (i : Instr) (s : State) : Prop := ∀ c ∈ checksOf i s, c.1 = false

/-- A command ends with a fatal error and no other effect, or no check fails and its statements run. -/
theorem exec_cases (i : Instr) (s : State) :
    (∃ e : Code, e.fatal = true ∧ exec i s = .next (s.completeWith e)) ∨
    (accepts i s ∧ exec i s = .next ((effectOf i s).completeWith (codeOf i s))) := by
  rw [exec_eq_runChecked]
  rcases runChecked_cases s (checksOf i s) fun s => (effectOf i s).completeWith (codeOf i s) with
    ⟨c, hc, -, -, h⟩ | ⟨hpass, h⟩
  · have hf := checksOf_fatal i s c hc
    exact .inl ⟨c.2, hf, by rw [h, raise_of_fatal s hf]⟩
  · exact .inr ⟨hpass, h⟩

theorem accepts_image {i : Instr} {s : State} (h : accepts i s)
    (hi : (s.imageInvalid, Code.invalidImage) ∈ checksOf i s) : s.width ≤ 4096 ∧ s.height ≤ 4096 := by
  obtain ⟨⟨-, hw⟩, -, hh⟩ := State.imageInvalid_eq_false.mp (h _ hi)
  exact ⟨hw, hh⟩

theorem sqw_le_of_accepts {i : Instr} {s : State} (h : accepts i s)
    (hi : (s.sqwBad, Code.badParameter) ∈ checksOf i s) : s.sqw.toNat ≤ 64 := by
  have := of_decide_eq_false (h _ hi)
  exact Nat.not_lt.mp this

theorem textLen_le_of_accepts {s : State} (h : accepts .ser s) : s.textLen.toNat ≤ 511 :=
  Nat.not_lt.mp (of_decide_eq_false (h _ List.mem_cons_self))

theorem payloadLen_le_of_accepts {s : State} (h : accepts .deser s) : s.payloadLen.toNat ≤ 4096 :=
  Nat.not_lt.mp (of_decide_eq_false (h _ List.mem_cons_self))

/-! ### The frame of the statements of a command -/

/-- VOTE writes memory, PAYLOAD_LEN and BLOCKS. -/
theorem effectOf_vote_eq (rot : Rotation) (ox oy : Nat) (s : State) : ∃ m p b,
    effectOf (.vote rot ox oy) s = { s with mem := m, payloadLen := p, blocks := b } :=
  s.fullDecode_eq { rot := rot, ox := ox, oy := oy }

/-- DECODE writes memory, RESULT, CONF, PAYLOAD_LEN and BLOCKS. -/
theorem effectOf_decode_eq (s : State) : ∃ m p b, effectOf .decode s =
    { s.recordWinner s.winner with mem := m, payloadLen := p, blocks := b } :=
  (s.recordWinner s.winner).fullDecode_eq s.winner.hyp

/-- EMBED writes memory and BLOCKS. -/
theorem effectOf_embed_eq (s : State) : ∃ m b, effectOf .embed s = { s with mem := m, blocks := b } := by
  refine ⟨s.embedImage.mem, BitVec.ofNat 32 (s.width / 8 * (s.height / 8)), ?_⟩
  rw [effectOf, State.embedImage_eq]
  rfl

/-- The statements of a command write memory and result registers only. -/
theorem effectOf_eq (i : Instr) (s : State) : ∃ m p r c b e n k, effectOf i s = { s with
    mem := m, payloadLen := p, result := r, conf := c, blocks := b, energy := e, ecount := n,
    byteCount := k } := by
  cases i with
  | vote rot ox oy =>
    obtain ⟨m, p, b, h⟩ := effectOf_vote_eq rot ox oy s
    exact ⟨m, p, _, _, b, _, _, _, h⟩
  | decode =>
    obtain ⟨m, p, b, h⟩ := effectOf_decode_eq s
    exact ⟨m, p, _, _, b, _, _, _, h⟩
  | embed =>
    obtain ⟨m, b, h⟩ := effectOf_embed_eq s
    exact ⟨m, _, _, _, b, _, _, _, h⟩
  | _ => exact ⟨_, _, _, _, _, _, _, _, rfl⟩

theorem effectOf_payloadLen {i : Instr} (h : ¬ Spec.writesLength i) (s : State) :
    (effectOf i s).payloadLen = s.payloadLen := by
  cases i with
  | vote rot ox oy => exact absurd (.inr (.inr ⟨_, _, _, rfl⟩)) h
  | decode => exact absurd (.inr (.inl rfl)) h
  | ser => exact absurd (.inl rfl) h
  | embed => obtain ⟨m, b, he⟩ := effectOf_embed_eq s; rw [he]
  | _ => rfl

theorem effectOf_result {i : Instr} (h : ¬ Spec.writesResult i) (s : State) :
    (effectOf i s).result = s.result ∧ (effectOf i s).conf = s.conf := by
  cases i with
  | search => exact absurd (.inl rfl) h
  | decode => exact absurd (.inr rfl) h
  | vote rot ox oy => obtain ⟨m, p, b, he⟩ := effectOf_vote_eq rot ox oy s; rw [he]; exact ⟨rfl, rfl⟩
  | embed => obtain ⟨m, b, he⟩ := effectOf_embed_eq s; rw [he]; exact ⟨rfl, rfl⟩
  | _ => exact ⟨rfl, rfl⟩

theorem effectOf_blocks {i : Instr} (h : ¬ Spec.writesBlocks i) (s : State) :
    (effectOf i s).blocks = s.blocks := by
  cases i with
  | vote rot ox oy => exact absurd (.inr (.inr ⟨_, _, _, rfl⟩)) h
  | decode => exact absurd (.inr (.inl rfl)) h
  | embed => exact absurd (.inl rfl) h
  | _ => rfl

theorem effectOf_energy {i : Instr} (h : ¬ Spec.writesEnergy i) (s : State) :
    (effectOf i s).energy = s.energy ∧ (effectOf i s).ecount = s.ecount := by
  cases i with
  | hype rot ox oy stride => exact absurd ⟨_, _, _, _, rfl⟩ h
  | vote rot ox oy => obtain ⟨m, p, b, he⟩ := effectOf_vote_eq rot ox oy s; rw [he]; exact ⟨rfl, rfl⟩
  | decode => obtain ⟨m, p, b, he⟩ := effectOf_decode_eq s; rw [he]; exact ⟨rfl, rfl⟩
  | embed => obtain ⟨m, b, he⟩ := effectOf_embed_eq s; rw [he]; exact ⟨rfl, rfl⟩
  | _ => exact ⟨rfl, rfl⟩

theorem effectOf_byteCount {i : Instr} (h : i ≠ .deser) (s : State) :
    (effectOf i s).byteCount = s.byteCount := by
  cases i with
  | deser => exact absurd rfl h
  | vote rot ox oy => obtain ⟨m, p, b, he⟩ := effectOf_vote_eq rot ox oy s; rw [he]
  | decode => obtain ⟨m, p, b, he⟩ := effectOf_decode_eq s; rw [he]; rfl
  | embed => obtain ⟨m, b, he⟩ := effectOf_embed_eq s; rw [he]
  | _ => rfl

/-! ### The bytes that the statements of a command keep -/

theorem entry_margin_of_ne {c : List F64} (bit : Bool) (p : F64) {k : Nat} (hl : c.length = 64)
    (h35 : k ≠ 35) (h28 : k ≠ 28) : entry (margin c bit p) k = entry c k := by
  unfold margin
  split <;> split <;> simp [entry_set, hl, h35, h28]

/-- A byte of BLK whose entry a stored block leaves as it was keeps its value. -/
theorem State.byteAt_storeBlk_same {s : State} {xs : List F64} {a : Nat} (hl : xs.length = 64)
    (h : 0x1000 ≤ a → a < 0x1200 → entry xs ((a - 0x1000) / 8) = entry s.blk ((a - 0x1000) / 8)) :
    (s.storeBlk xs).byteAt a = s.byteAt a := by
  by_cases hout : a < 0x1000 ∨ 0x1200 ≤ a
  · exact State.byteAt_storeBlk_of_outside hl hout
  · obtain ⟨k, j, hk, hj, rfl⟩ : ∃ k j, k < 64 ∧ j < 8 ∧ a = 0x1000 + 8 * k + j :=
      ⟨(a - 0x1000) / 8, (a - 0x1000) % 8, by omega, by omega, by omega⟩
    have he := h (by omega) (by omega)
    rw [show (0x1000 + 8 * k + j - 0x1000) / 8 = k by omega, entry_blk s hk,
      entry_of_lt (by omega)] at he
    exact State.byteAt_store_f64Bytes_same (by omega) hj he

theorem State.deserCount_le {s : State} (h : s.payloadLen.toNat ≤ 4096) : s.deserCount ≤ 512 := by
  unfold State.deserCount
  split <;> omega

/-- The pixels of a valid image end with the PIX window. -/
theorem pixelOffset_lt {w h x y : Nat} (hx : x < w) (hy : y < h) (hw : w ≤ 4096) (hh : h ≤ 4096) :
    pixelOffset w x y + 4 ≤ 0x05000000 := by
  have h1 : (y + 1) * w ≤ 4096 * 4096 := Nat.mul_le_mul (by omega) hw
  rw [Nat.add_mul, Nat.one_mul] at h1
  unfold pixelOffset Config.pixBase
  omega

/-- The statements of a command leave every byte outside its own memories (10_state R47 to R51). -/
theorem effectOf_byteAt {i : Instr} {s : State} {a : Nat} (hacc : accepts i s) (h : ¬ Spec.mayWrite i a) :
    (effectOf i s).byteAt a = s.byteAt a := by
  cases i with
  | nop => rfl
  | hype rot ox oy stride => rfl
  | search => rfl
  | fdct => exact State.byteAt_storeBlk_of_outside (fdct_length _) (by unfold Spec.mayWrite at h; omega)
  | idct => exact State.byteAt_storeBlk_of_outside (idct_length _) (by unfold Spec.mayWrite at h; omega)
  | ldluma rot =>
    exact State.byteAt_storeBlk_of_outside (loadBlock_length _ _ _ _) (by unfold Spec.mayWrite at h; omega)
  | margin bit =>
    unfold Spec.mayWrite at h
    exact State.byteAt_storeBlk_same (by simp) fun h1 h2 =>
      entry_margin_of_ne bit _ (State.blk_length s) (by omega) (by omega)
  | vote rot ox oy =>
    have hN := decodedBits_le (sqw_le_of_accepts hacc (by simp [checksOf]))
    unfold Spec.mayWrite at h
    exact State.byteAt_fullDecode_of_outside (by omega) (by omega)
  | decode =>
    have hN := decodedBits_le (sqw_le_of_accepts hacc (by simp [checksOf]))
    unfold Spec.mayWrite at h
    exact State.byteAt_fullDecode_of_outside (s := s.recordWinner s.winner) (by omega)
      (by rw [State.recordWinner_eq, State.setWinner_sqw]; omega)
  | embed =>
    obtain ⟨hw, hh⟩ := accepts_image hacc (by simp [checksOf])
    rw [effectOf, State.setBlocks_byteAt]
    refine State.byteAt_embedImage fun x y c hx hy hc he => h ?_
    have := pixelOffset_lt (x := x) (y := y) (by omega) (by omega) hw hh
    unfold pixelOffset Config.pixBase at *
    unfold Spec.mayWrite
    omega
  | ser =>
    have hlen := textLen_le_of_accepts hacc
    unfold Spec.mayWrite at h
    rw [effectOf, State.setPayloadLen_byteAt]
    exact State.byteAt_storePbits_of_outside (by omega)
  | deser =>
    have hcount := State.deserCount_le (payloadLen_le_of_accepts hacc)
    unfold Spec.mayWrite at h
    rw [effectOf, State.setByteCount_byteAt]
    exact State.byteAt_store_of_outside (by simp [Config.byteBufBase]; omega)

/-- Settles O10: a failed check writes STATUS and DONE_IP only, and the statements of a command keep its
frame. -/
theorem commandsWriteOnlyTheirOwn : Obligations.CommandsWriteOnlyTheirOwn := by
  intro i s
  rcases exec_cases i s with ⟨e, -, he⟩ | ⟨hacc, he⟩
  · exact ⟨_, he, rfl, fun _ => rfl, fun _ => ⟨rfl, rfl⟩, fun _ => rfl, fun _ => ⟨rfl, rfl⟩,
      fun _ => rfl, fun _ _ => rfl⟩
  · refine ⟨_, he, ?_, fun h => effectOf_payloadLen h s, fun h => effectOf_result h s,
      fun h => effectOf_blocks h s, fun h => effectOf_energy h s, fun h => effectOf_byteCount h s,
      fun a h => effectOf_byteAt hacc h⟩
    obtain ⟨m, p, r, c, b, e, n, k, h⟩ := effectOf_eq i s
    rw [h]
    rfl

end Sys2Proof.Machine
end

section
/-! PROOF. Everything a step can do, and the invariants that it keeps (20_memory R62; 60_exceptions R200, R206,
R209; 42_search R145). -/

namespace Sys2Proof.Machine

/-! ### Everything a step can do -/

theorem State.hostAccess_write (s : State) (addr : Word) (size : Size) (v : Word) :
    s.hostAccess (.write addr size v) = s.hostWrite (busOffset addr) size v := rfl

/-- A host access does nothing, sets REJ while busy, writes a register or stores in a memory, and is
answered. -/
theorem State.hostAccess_cases (s : State) (a : BusAccess) : ∃ u r d, s.hostAccess a = u.answer r d ∧
    (u = s ∨ (s.status.busy = true ∧ u = s.reject) ∨
      (∃ off v, (s.status.busy = false ∨ irqRegister off = true) ∧ u = s.writeReg off v) ∨
      ∃ (off : Nat) (size : Size) (v : Word), off % size.bytes = 0 ∧ storageOffset off ∧
        u = s.store off (toLittle size.bytes v.toNat)) := by
  cases a with
  | read addr size =>
    obtain ⟨r, d, h⟩ := s.hostRead_eq (busOffset addr) size
    exact ⟨s, r, d, h, .inl rfl⟩
  | write addr size v =>
    rw [State.hostAccess_write]
    generalize busOffset addr = off
    rcases s.hostWrite_cases off size v with ⟨-, h⟩ | ⟨-, hb, -, h⟩ | ⟨hr, hb, h⟩
    · exact ⟨_, _, _, h, .inl rfl⟩
    · exact ⟨_, _, _, h, .inr (.inl ⟨hb, rfl⟩)⟩
    · refine ⟨_, _, _, h, ?_⟩
      rcases s.writeData_cases off size v with ⟨-, hd⟩ | ⟨-, -, hd⟩ | ⟨hoff, -, hd⟩ <;> rw [hd]
      · exact .inr (.inr (.inl ⟨off, v, hb, rfl⟩))
      · exact .inl rfl
      · rw [← Bool.not_eq_true, accessRefused_iff] at hr
        push Not at hr
        obtain ⟨halign, -, hmapped⟩ := hr
        exact .inr (.inr (.inr ⟨off, size, v, halign, hmapped hoff, rfl⟩))

/-- The host's part of a step is the end of a turn, with an access or without. -/
theorem State.hostPart_cases (s : State) :
    s.hostPart = s.popTurn ∨ ∃ a, s.hostPart = s.popTurn.hostAccess a := by
  unfold State.hostPart
  split
  · exact .inl rfl
  · next a _ => exact .inr ⟨a, rfl⟩

/-- The running command ends with a fatal error and no other effect, or its word is that of a command whose
statements run. -/
theorem State.runCommand_cases (s : State) :
    (∃ e : Code, e.fatal = true ∧ s.runCommand = .next (s.completeWith e)) ∨
    ∃ i, decode s.cmd = .ok i ∧ accepts i s ∧
      s.runCommand = .next ((effectOf i s).completeWith (codeOf i s)) := by
  unfold State.runCommand State.fetch
  split
  · next i hi => exact (exec_cases i s).imp id fun ⟨hacc, he⟩ => ⟨i, hi, hacc, he⟩
  · exact .inl ⟨.illegalCommand, rfl, rfl⟩

theorem State.runCommand_next {s t : State} (h : s.runCommand = .next t) :
    (∃ e, t = s.completeWith e) ∨ ∃ i, accepts i s ∧ t = (effectOf i s).completeWith (codeOf i s) := by
  rcases s.runCommand_cases with ⟨e, -, he⟩ | ⟨i, -, hacc, he⟩ <;> rw [h] at he <;> injection he with he
  · exact .inl ⟨e, he⟩
  · exact .inr ⟨i, hacc, he⟩

/-- A step is a reset, the host's part alone, or the host's part and the running command. -/
theorem step_cases {s t : State} (h : step s = .next t) :
    t = s.popTurn.applyReset ∨ t = s.hostPart ∨ s.hostPart.runCommand = .next t := by
  unfold step State.advance at h
  split at h
  · injection h with h
    exact .inl h.symm
  · split at h
    · exact .inr (.inr h)
    · injection h with h
      exact .inr (.inl h.symm)

/-! ### Storage -/

/-- The canonical form of memory, with offsets that exist only. -/
def Memory.Sound (m : Memory) : Prop := m.wf ∧ ∀ c ∈ m, storageOffset c.1

theorem Memory.Sound.write {m : Memory} (hm : m.Sound) {off : Nat} {vs : List Byte}
    (h : ∀ x, off ≤ x → x < off + vs.length → storageOffset x) : (m.write off vs).Sound := by
  obtain ⟨hwf, hmapped⟩ := hm
  refine ⟨Memory.wf_write hwf off vs, fun c hc => ?_⟩
  rcases Memory.mem_write hc with hc | ⟨h1, h2⟩
  · exact hmapped c hc
  · exact h c.1 h1 h2

/-- An aligned access that begins in a memory window ends in it. -/
theorem storageOffset_of_aligned {off x : Nat} {size : Size} (ha : off % size.bytes = 0)
    (h : storageOffset off) (h1 : off ≤ x) (h2 : x < off + size.bytes) : storageOffset x := by
  unfold storageOffset at *
  cases size <;> simp only [Size.bytes] at ha h2 <;> omega

theorem sound_storeBlk {s : State} {xs : List F64} (hm : s.mem.Sound) (hl : xs.length = 64) :
    (s.storeBlk xs).mem.Sound :=
  hm.write fun x h1 h2 => by
    rw [f64Bytes_length, hl] at h2
    unfold Config.blkBase at *
    unfold storageOffset
    omega

theorem sound_storePbits {s : State} {n : Nat} {bits : Nat → Bool} (hm : s.mem.Sound) (hn : n ≤ 4096) :
    (s.storePbits n bits).mem.Sound :=
  hm.write fun x h1 h2 => by
    rw [List.length_map, List.length_range] at h2
    unfold Config.payloadBase at *
    unfold storageOffset
    omega

theorem sound_fullDecode {s : State} {hyp : Hyp} (hm : s.mem.Sound) (hq : s.sqw.toNat ≤ 64) :
    (s.fullDecode hyp).mem.Sound := by
  have hl := voteSums_length s.rgbAt s.width s.height s.sqw.toNat hyp
  unfold State.fullDecode
  generalize voteSums s.rgbAt s.width s.height s.sqw.toNat hyp = vs at hl ⊢
  dsimp only
  have hv : (s.storeVotes vs).mem.Sound :=
    hm.write fun x h1 h2 => by
      rw [f64Bytes_length, hl] at h2
      unfold Config.voteBase at *
      unfold storageOffset
      omega
  rw [State.setBlocks_mem, State.setPayloadLen_mem, State.threshold]
  exact sound_storePbits hv (decodedBits_le hq)

theorem sound_storeRgb {s : State} {x y : Nat} {p : Rgb} (hm : s.mem.Sound) (hx : x < s.width)
    (hw : s.width ≤ 4096) (hy : y < 4096) : (s.storeRgb x y p).mem.Sound :=
  hm.write fun a h1 h2 => by
    have := pixelOffset_lt hx hy hw (Nat.le_refl _)
    simp only [List.length_cons, List.length_nil] at h2
    unfold storageOffset
    unfold pixelOffset Config.pixBase at *
    omega

theorem sound_embedBlock {s : State} {bx by' : Nat} (hm : s.mem.Sound) (hw : s.width ≤ 4096)
    (hx : 8 * bx + 8 ≤ s.width) (hy : 8 * by' + 8 ≤ 4096) : (s.embedBlock bx by').mem.Sound := by
  unfold State.embedBlock
  refine (foldl_inv (fun t : State => t.width = s.width ∧ t.mem.Sound) _ _ s ⟨rfl, hm⟩ ?_).2
  rintro t ⟨htw, htm⟩ i hi
  have hi := List.mem_range.mp hi
  exact ⟨htw, sound_storeRgb htm (by omega) (by omega) (by omega)⟩

theorem sound_embedImage {s : State} (hm : s.mem.Sound) (hw : s.width ≤ 4096) (hh : s.height ≤ 4096) :
    s.embedImage.mem.Sound := by
  unfold State.embedImage
  refine (foldl_inv (fun t : State => t.width = s.width ∧ t.mem.Sound) _ _ s ⟨rfl, hm⟩ ?_).2
  rintro t ⟨htw, htm⟩ ⟨bx, by'⟩ hb
  obtain ⟨hx, hy⟩ := mem_raster.mp hb
  rw [State.embedBlock_width]
  exact ⟨htw, sound_embedBlock htm (by omega) (by dsimp only; omega) (by dsimp only; omega)⟩

/-- The statements of a command write to offsets that exist only. -/
theorem effectOf_sound {i : Instr} {s : State} (hacc : accepts i s) (hm : s.mem.Sound) :
    (effectOf i s).mem.Sound := by
  cases i with
  | nop => exact hm
  | fdct => exact sound_storeBlk hm (fdct_length _)
  | idct => exact sound_storeBlk hm (idct_length _)
  | margin bit => exact sound_storeBlk hm (by simp)
  | ldluma rot => exact sound_storeBlk hm (loadBlock_length _ _ _ _)
  | hype rot ox oy stride => exact hm
  | search => exact hm
  | vote rot ox oy => exact sound_fullDecode hm (sqw_le_of_accepts hacc (by simp [checksOf]))
  | decode =>
    have hq := sqw_le_of_accepts hacc (by simp [checksOf])
    exact sound_fullDecode (s := s.recordWinner s.winner) hm hq
  | embed =>
    obtain ⟨hw, hh⟩ := accepts_image hacc (by simp [checksOf])
    exact sound_embedImage hm hw hh
  | ser =>
    have hlen := textLen_le_of_accepts hacc
    exact sound_storePbits hm (by omega)
  | deser =>
    have hcount := State.deserCount_le (payloadLen_le_of_accepts hacc)
    exact hm.write fun x h1 h2 => by
      rw [List.length_map, List.length_range] at h2
      unfold Config.byteBufBase at *
      unfold storageOffset
      omega

/-! ### The counts -/

theorem toNat_ofNat_le (w n : Nat) : (BitVec.ofNat w n).toNat ≤ n := by
  rw [BitVec.toNat_ofNat]
  exact Nat.mod_le _ _

theorem toNat_ofNat_mul_le {a b : Nat} (ha : a ≤ 512) (hb : b ≤ 512) :
    (BitVec.ofNat 32 (a * b)).toNat ≤ 262144 :=
  (toNat_ofNat_le 32 _).trans (Nat.mul_le_mul ha hb)

theorem gridBlocks_le {size : Nat} (o : Nat) (h : size ≤ 4096) : gridBlocks size o ≤ 512 := by
  unfold gridBlocks
  split <;> omega

/-- Samples 8 pixels apart or more are at most 512 along an axis. -/
theorem samples_le_of_stride {size : Nat} (o : Nat) (stride : Stride) (h : size ≤ 4096) :
    samples size o stride.pixels ≤ 512 := by
  unfold samples
  cases stride <;> simp only [Stride.pixels] <;> split <;> omega

theorem effectOf_blocks_le {i : Instr} {s : State} (hacc : accepts i s) (h : s.blocks.toNat ≤ 262144) :
    (effectOf i s).blocks.toNat ≤ 262144 := by
  by_cases hw : Spec.writesBlocks i
  · rcases hw with rfl | rfl | ⟨rot, ox, oy, rfl⟩
    all_goals obtain ⟨hw, hh⟩ := accepts_image hacc (by simp [checksOf])
    · exact toNat_ofNat_mul_le (by omega) (by omega)
    · exact toNat_ofNat_mul_le (gridBlocks_le _ hw) (gridBlocks_le _ hh)
    · exact toNat_ofNat_mul_le (gridBlocks_le _ hw) (gridBlocks_le _ hh)
  · rw [effectOf_blocks hw]
    exact h

theorem effectOf_ecount_le {i : Instr} {s : State} (hacc : accepts i s) (h : s.ecount.toNat ≤ 262144) :
    (effectOf i s).ecount.toNat ≤ 262144 := by
  by_cases hw : Spec.writesEnergy i
  · obtain ⟨rot, ox, oy, stride, rfl⟩ := hw
    obtain ⟨hw, hh⟩ := accepts_image hacc (by simp [checksOf])
    exact toNat_ofNat_mul_le (samples_le_of_stride ox stride hw) (samples_le_of_stride oy stride hh)
  · rw [(effectOf_energy hw s).2]
    exact h

theorem effectOf_byteCount_le {i : Instr} {s : State} (hacc : accepts i s)
    (h : s.byteCount.toNat ≤ 512) : (effectOf i s).byteCount.toNat ≤ 512 := by
  by_cases hi : i = .deser
  · subst hi
    exact (toNat_ofNat_le 10 _).trans (State.deserCount_le (payloadLen_le_of_accepts hacc))
  · rw [effectOf_byteCount hi]
    exact h

/-! ### STATUS -/

theorem consistent_accepted : Status.accepted.Consistent :=
  ⟨fun _ => ⟨rfl, rfl, rfl, rfl⟩, fun h => (by cases h), fun h => (by cases h), fun h => (by cases h)⟩

/-- A completion leaves STATUS consistent, whatever it was. -/
theorem consistent_completeWith (s : State) (c : Code) : (s.completeWith c).status.Consistent :=
  ⟨fun h => (by cases h), fun _ => rfl, fun _ => rfl, fun _ h => (by cases h)⟩

theorem consistent_reject {s : State} (h : s.status.Consistent) (hb : s.status.busy = true) :
    s.reject.status.Consistent := by
  have hidle : ∀ {p : Prop}, s.reject.status.busy = false → p := fun h => by
    rw [State.reject_status, hb] at h; cases h
  exact ⟨h.busyShowsNothing, hidle, hidle, hidle⟩

/-! ### The invariant -/

/-- The invariant speaks of memory, STATUS and three counts. -/
theorem State.Inv.congr {s t : State} (h : s.Inv) (hm : t.mem = s.mem) (hs : t.status.Consistent)
    (hb : t.blocks = s.blocks) (he : t.ecount = s.ecount) (hc : t.byteCount = s.byteCount) : t.Inv :=
  ⟨hm ▸ h.memWf, hm ▸ h.memMapped, hs, hb ▸ h.blocks, he ▸ h.ecount, hc ▸ h.byteCount⟩

theorem State.Inv.writeReg {s : State} (h : s.Inv) (off : Nat) (v : Word) : (s.writeReg off v).Inv := by
  obtain ⟨heq, hstatus⟩ := s.writeReg_eq off v
  have hs : (s.writeReg off v).status.Consistent := by
    rcases hstatus with hs | ⟨-, hs⟩ <;> rw [hs]
    · exact h.status
    · exact consistent_accepted
  exact h.congr (by rw [heq]) hs (by rw [heq]) (by rw [heq]) (by rw [heq])

theorem State.Inv.hostAccess {s : State} (h : s.Inv) (a : BusAccess) : (s.hostAccess a).Inv := by
  obtain ⟨u, r, d, ha, hu⟩ := s.hostAccess_cases a
  have hInv : u.Inv := by
    rcases hu with rfl | ⟨hb, rfl⟩ | ⟨off, v, -, rfl⟩ | ⟨off, size, v, halign, hmapped, rfl⟩
    · exact h
    · exact h.congr rfl (consistent_reject h.status hb) rfl rfl rfl
    · exact h.writeReg off v
    · obtain ⟨hwf, hmem⟩ := Memory.Sound.write ⟨h.memWf, h.memMapped⟩ fun x h1 h2 =>
        storageOffset_of_aligned halign hmapped h1 (by rwa [toLittle_length] at h2)
      exact ⟨hwf, hmem, h.status, h.blocks, h.ecount, h.byteCount⟩
  rw [ha]
  exact hInv.congr rfl hInv.status rfl rfl rfl

theorem State.Inv.hostPart {s : State} (h : s.Inv) : s.hostPart.Inv := by
  have hpop : s.popTurn.Inv := h.congr rfl h.status rfl rfl rfl
  rcases s.hostPart_cases with he | ⟨a, he⟩ <;> rw [he]
  · exact hpop
  · exact hpop.hostAccess a

theorem State.Inv.runCommand {s t : State} (h : s.Inv) (ht : s.runCommand = .next t) : t.Inv := by
  rcases State.runCommand_next ht with ⟨e, rfl⟩ | ⟨i, hacc, rfl⟩
  · exact h.congr rfl (consistent_completeWith s e) rfl rfl rfl
  · obtain ⟨hwf, hmem⟩ := effectOf_sound hacc ⟨h.memWf, h.memMapped⟩
    exact ⟨hwf, hmem, consistent_completeWith _ _, effectOf_blocks_le hacc h.blocks,
      effectOf_ecount_le hacc h.ecount, effectOf_byteCount_le hacc h.byteCount⟩

theorem State.inv_reset : State.reset.Inv :=
  ⟨List.Pairwise.nil, fun c hc => (by cases hc),
    ⟨fun h => (by cases h), fun _ => rfl, fun _ => rfl, fun _ _ => ⟨rfl, rfl⟩⟩,
    Nat.zero_le _, Nat.zero_le _, Nat.zero_le _⟩

theorem State.inv_applyReset (s : State) : s.applyReset.Inv :=
  State.inv_reset.congr rfl State.inv_reset.status rfl rfl rfl

/-- Settles O27: a reset, a host access and the statements and the completion of a command keep the
invariant. -/
theorem stepKeepsTheInvariant : Obligations.StepKeepsTheInvariant := by
  intro s t h hstep
  rcases step_cases hstep with rfl | rfl | hrun
  · exact State.inv_applyReset _
  · exact h.hostPart
  · exact h.hostPart.runCommand hrun

/-! ### Energies -/

theorem nonNeg_winner (s : State) : notNegative s.winner.energy := by
  have hw : s.width < 8192 := s.imgW.isLt
  have hh : s.height < 8192 := s.imgH.isLt
  have hcoarse := (foldl_keepBetter_max s.rgbAt hw hh coarseHyps.tail
    (score s.rgbAt s.width s.height ⟨.deg0, 0, 0⟩) (nonNeg_hypEnergy _ hw hh _ _)).1
  exact (foldl_keepBetter_max s.rgbAt hw hh _ _ hcoarse).1

theorem State.EnergyInv.effectOf {s : State} (h : s.EnergyInv) (i : Instr) :
    (effectOf i s).EnergyInv := by
  constructor
  · by_cases hw : Spec.writesResult i
    · rcases hw with rfl | rfl
      · exact nonNeg_winner s
      · obtain ⟨m, p, b, he⟩ := effectOf_decode_eq s
        rw [he]
        exact nonNeg_winner s
    · rw [(effectOf_result hw s).2]
      exact h.conf
  · by_cases hw : Spec.writesEnergy i
    · obtain ⟨rot, ox, oy, stride, rfl⟩ := hw
      exact nonNeg_hypEnergy _ s.imgW.isLt s.imgH.isLt _ _
    · rw [(effectOf_energy hw s).1]
      exact h.energy

theorem State.EnergyInv.hostAccess {s : State} (h : s.EnergyInv) (a : BusAccess) :
    (s.hostAccess a).EnergyInv := by
  obtain ⟨u, r, d, ha, hu⟩ := s.hostAccess_cases a
  have hInv : u.EnergyInv := by
    rcases hu with rfl | ⟨-, rfl⟩ | ⟨off, v, -, rfl⟩ | ⟨off, size, v, -, -, rfl⟩
    · exact h
    · exact ⟨h.conf, h.energy⟩
    · rw [(s.writeReg_eq off v).1]
      exact ⟨h.conf, h.energy⟩
    · exact ⟨h.conf, h.energy⟩
  rw [ha]
  exact ⟨hInv.conf, hInv.energy⟩

theorem State.EnergyInv.hostPart {s : State} (h : s.EnergyInv) : s.hostPart.EnergyInv := by
  have hpop : s.popTurn.EnergyInv := ⟨h.conf, h.energy⟩
  rcases s.hostPart_cases with he | ⟨a, he⟩ <;> rw [he]
  · exact hpop
  · exact hpop.hostAccess a

theorem State.EnergyInv.runCommand {s t : State} (h : s.EnergyInv) (ht : s.runCommand = .next t) :
    t.EnergyInv := by
  rcases State.runCommand_next ht with ⟨e, rfl⟩ | ⟨i, -, rfl⟩
  · exact ⟨h.conf, h.energy⟩
  · exact ⟨(h.effectOf i).conf, (h.effectOf i).energy⟩

theorem State.energyInv_applyReset (s : State) : s.applyReset.EnergyInv := ⟨nonNeg_zero, nonNeg_zero⟩

/-- Settles O28: only HYPE, SEARCH and DECODE write an energy, and each is a mean of absolute values, +0.0 or
the best of such. -/
theorem stepKeepsEnergiesNotNegative : Obligations.StepKeepsEnergiesNotNegative := by
  intro s t h hstep
  rcases step_cases hstep with rfl | rfl | hrun
  · exact State.energyInv_applyReset _
  · exact h.hostPart
  · exact h.hostPart.runCommand hrun

/-- Settles O26: every register is 0 and no location is listed. -/
theorem resetMeetsTheInvariant : Obligations.ResetMeetsTheInvariant :=
  ⟨State.inv_reset, ⟨nonNeg_zero, nonNeg_zero⟩⟩

end Sys2Proof.Machine
end

section
/-! PROOF. The register page: where the fields stand, what a host write stores, and which commands read
STRENGTH (10_state R20 to R46, R53). -/

namespace Sys2Proof.Machine

/-! ### Commands that do not read STRENGTH -/

/-- A checked command whose checks and statements do not read STRENGTH gives the same result at every
strength. -/
theorem runChecked_withStrength {s : State} {p : BitVec 16} {checks : List (Bool × Code)} {f : State → State}
    (h : f { s with strength := p } = { f s with strength := p }) :
    ∃ t, runChecked s checks f = .next t ∧
      runChecked { s with strength := p } checks f = .next { t with strength := p } := by
  unfold runChecked
  cases firstFailing checks with
  | none => exact ⟨_, rfl, congrArg _ h⟩
  | some e => exact ⟨_, rfl, rfl⟩

theorem State.winner_withStrength (s : State) (p : BitVec 16) :
    ({ s with strength := p } : State).winner = s.winner := rfl

theorem State.fullDecode_withStrength (s : State) (p : BitVec 16) (hyp : Hyp) :
    ({ s with strength := p } : State).fullDecode hyp = { s.fullDecode hyp with strength := p } := rfl

theorem checksOf_withStrength {i : Instr} (s : State) (p : BitVec 16) (hm : ∀ b, i ≠ .margin b)
    (he : i ≠ .embed) : checksOf i { s with strength := p } = checksOf i s := by
  cases i with
  | margin b => exact absurd rfl (hm b)
  | embed => exact absurd rfl he
  | _ => rfl

theorem effectOf_withStrength {i : Instr} (s : State) (p : BitVec 16) (hm : ∀ b, i ≠ .margin b)
    (he : i ≠ .embed) :
    effectOf i { s with strength := p } = { effectOf i s with strength := p } := by
  cases i with
  | margin b => exact absurd rfl (hm b)
  | embed => exact absurd rfl he
  | vote rot ox oy => exact s.fullDecode_withStrength p _
  | decode => exact (s.recordWinner s.winner).fullDecode_withStrength p s.winner.hyp
  | _ => rfl

theorem codeOf_withStrength (i : Instr) (s : State) (p : BitVec 16) :
    codeOf i { s with strength := p } = codeOf i s := by
  cases i <;> rfl

/-- Settles O12: neither the checks nor the statements nor the completion code of another command read
STRENGTH. -/
theorem strengthIsReadByMarginAndEmbedOnly : Obligations.StrengthIsReadByMarginAndEmbedOnly := by
  intro i s p hm he
  rw [exec_eq_runChecked, exec_eq_runChecked, checksOf_withStrength s p hm he]
  refine runChecked_withStrength ?_
  rw [effectOf_withStrength s p hm he, codeOf_withStrength]
  rfl

/-! ### The fields of the registers -/

/-- A field at bit 0 of a register leaves the bits above it 0. -/
theorem setWidth_eq_zero_append {n : Nat} (k : Nat) (x : BitVec n) :
    x.setWidth (k + n) = 0#k ++ x := by
  have h := BitVec.setWidth_append_eq_shiftLeft_setWidth_or (w'' := k + n) (b := 0#k) (b' := x)
  rw [BitVec.setWidth_eq] at h
  rw [h]
  simp

theorem highWord_append_lowWord (x : F64) : highWord x ++ lowWord x = x :=
  BitVec.extractLsb'_append_extractLsb' (w := 32) (len := 32)

theorem lowWord_append (a b : Word) : lowWord (a ++ b) = b := BitVec.extractLsb'_append_eq_right

theorem highWord_append (a b : Word) : highWord (a ++ b) = a := BitVec.extractLsb'_append_eq_left

theorem Status.word_eq (t : Status) : t.word = 0#20 ++ t.code.number ++ 0#3 ++ BitVec.ofBool t.rej ++
    BitVec.ofBool t.warn ++ BitVec.ofBool t.err ++ BitVec.ofBool t.done ++ BitVec.ofBool t.busy := by
  apply BitVec.eq_of_getLsbD_eq
  intro j hj
  simp only [Status.word, BitVec.getLsbD_append, BitVec.getLsbD_or, BitVec.getLsbD_shiftLeft,
    BitVec.getLsbD_setWidth]
  interval_cases j <;> simp

theorem BlkPos.word_eq (p : BlkPos) : p.word = 0#3 ++ p.y0 ++ 0#3 ++ p.x0 := by
  apply BitVec.eq_of_getLsbD_eq
  intro j hj
  simp only [BlkPos.word, BitVec.getLsbD_append, BitVec.getLsbD_or, BitVec.getLsbD_shiftLeft,
    BitVec.getLsbD_setWidth]
  interval_cases j <;> simp

theorem ResultReg.word_eq (r : ResultReg) :
    r.word = 0#13 ++ r.oy ++ 0#5 ++ r.ox ++ 0#6 ++ r.rot.code := by
  apply BitVec.eq_of_getLsbD_eq
  intro j hj
  simp only [ResultReg.word, BitVec.getLsbD_append, BitVec.getLsbD_or, BitVec.getLsbD_shiftLeft,
    BitVec.getLsbD_setWidth]
  interval_cases j <;> simp

theorem State.readReg_of_reserved (s : State) {off : Nat} (h : 0x060 ≤ off) : s.readReg off = 0#32 := by
  unfold State.readReg
  split <;> first | rfl | omega

/-- Settles O22: each register is its fields, by the bits of STATUS, BLKPOS and RESULT, by the halves of a
binary64 value, or by zeros above one field. -/
theorem registersReadTheirFields : Obligations.RegistersReadTheirFields :=
  ⟨rfl, rfl, fun s => ⟨rfl, rfl, rfl, s.status.word_eq, setWidth_eq_zero_append 19 s.imgW,
    setWidth_eq_zero_append 19 s.imgH, setWidth_eq_zero_append 16 s.strength,
    setWidth_eq_zero_append 24 s.sqw, setWidth_eq_zero_append 19 s.payloadLen,
    setWidth_eq_zero_append 29 s.bitOffset, setWidth_eq_zero_append 22 s.textLen, s.blkPos.word_eq,
    s.result.word_eq, rfl, highWord_append_lowWord s.conf, highWord_append_lowWord s.energy, rfl,
    setWidth_eq_zero_append 22 s.byteCount, highWord_append_lowWord s.floor,
    setWidth_eq_zero_append 31 _, setWidth_eq_zero_append 31 _, fun _ h _ => s.readReg_of_reserved h⟩⟩

theorem resetWord_of_ne {off : Nat} (h0 : off ≠ 0x000) (h4 : off ≠ 0x004) : Spec.resetWord off = 0#32 := by
  rw [Spec.resetWord, if_neg h0, if_neg h4]

/-- Settles O13: every field is 0 after reset, so only the constants ID and VERSION differ from 0. -/
theorem registersAfterReset : Obligations.RegistersAfterReset := by
  intro off _ _
  unfold State.readReg
  split
  case h_25 => exact (resetWord_of_ne (by assumption) (by assumption)).symm
  all_goals rfl

/-! ### Register writes -/

/-- A write to a register that the bus does not refuse and that is not rejected while busy is done. -/
theorem State.hostWrite_register {s : State} {off : Nat} (v : Word) (hoff : off < 0x1000)
    (halign : off % 4 = 0) (hb : s.status.busy = false ∨ irqRegister off = true) :
    s.hostWrite off .word v = (s.writeReg off v).answer .okay s.openLanes := by
  have hr : accessRefused off .word = false := by
    rw [← Bool.not_eq_true, accessRefused_iff]
    rintro (h | ⟨-, h⟩ | ⟨h, -⟩)
    · exact h halign
    · exact h rfl
    · omega
  have hd : s.writeData off .word v = s.writeReg off v := by
    rcases s.writeData_cases off .word v with ⟨-, h⟩ | ⟨h, -⟩ | ⟨h, -⟩
    · exact h
    · omega
    · omega
  rw [← hd]
  rcases s.hostWrite_cases off .word v with ⟨h, -⟩ | ⟨-, hbusy, hirq, -⟩ | ⟨-, -, h⟩
  · rw [hr] at h; cases h
  · rw [hbusy, hirq] at hb; simp at hb
  · exact h

/-- Settles O23: the write clears DONE_IP by bit 0, and every command ends with a completion. -/
theorem irqStatIsWriteOneToClear : Obligations.IrqStatIsWriteOneToClear := by
  refine ⟨fun s addr v h => ?_, fun s => ?_, fun s => setWidth_eq_zero_append 31 _, rfl⟩
  · have hoff : busOffset addr = 0x05C := h
    have hclear : s.writeReg 0x05C v = { s with doneIp := if v.getLsbD 0 then false else s.doneIp } := by
      show s.clearIrq v = _
      unfold State.clearIrq
      cases v.getLsbD 0 <;> simp
    rw [State.hostAccess_write, hoff, State.hostWrite_register v (by omega) (by omega) (.inr rfl), hclear]
    rfl
  · rcases s.runCommand_cases with ⟨e, -, he⟩ | ⟨i, -, -, he⟩
    · exact ⟨_, he, rfl⟩
    · exact ⟨_, he, rfl⟩

/-- The registers that store what the host writes. -/
theorem hostWritable_iff {off : Nat} : Spec.hostWritable off ↔ off ∈
    [0x010, 0x014, 0x018, 0x01C, 0x020, 0x024, 0x028, 0x02C, 0x050, 0x054, 0x058] := by
  constructor
  · intro h
    by_contra hn
    simp only [List.mem_cons, List.not_mem_nil, or_false, not_or] at hn
    exact h (by simp [Spec.storedBits, hn])
  · have key : ∀ o ∈ [0x010, 0x014, 0x018, 0x01C, 0x020, 0x024, 0x028, 0x02C, 0x050, 0x054, 0x058],
        Spec.storedBits o ≠ 0#32 := by decide
    exact key off

/-- A field of the low `n` bits reads as the word masked by them. -/
theorem setWidth_extractLsb'_eq_and {v m : Word} {n : Nat}
    (hm : ∀ j, j < 32 → m.getLsbD j = decide (j < n)) :
    (v.extractLsb' 0 n).setWidth 32 = v &&& m := by
  apply BitVec.eq_of_getLsbD_eq
  intro j hj
  simp only [BitVec.getLsbD_setWidth, BitVec.getLsbD_extractLsb', BitVec.getLsbD_and, hm j hj]
  simp [hj, Bool.and_comm]

theorem BlkPos.word_of_fields (v : Word) :
    BlkPos.word { x0 := v.extractLsb' 0 13, y0 := v.extractLsb' 16 13 } = v &&& 0x1FFF1FFF#32 := by
  apply BitVec.eq_of_getLsbD_eq
  intro j hj
  simp only [BlkPos.word, BitVec.getLsbD_or, BitVec.getLsbD_and, BitVec.getLsbD_shiftLeft,
    BitVec.getLsbD_setWidth, BitVec.getLsbD_extractLsb']
  interval_cases j <;> simp

theorem setWidth_ofBool_eq_and (v : Word) :
    (BitVec.ofBool (v.getLsbD 0)).setWidth 32 = v &&& 0x1#32 := by
  apply BitVec.eq_of_getLsbD_eq
  intro j hj
  simp only [BitVec.getLsbD_and, BitVec.getLsbD_setWidth]
  interval_cases j <;> simp

/-- A register that the host writes reads the word with its reserved bits 0. -/
theorem State.readReg_writeReg_self (s : State) {off : Nat} (v : Word) (h : Spec.hostWritable off) :
    (s.writeReg off v).readReg off = v &&& Spec.storedBits off := by
  rw [hostWritable_iff] at h
  simp only [List.mem_cons, List.not_mem_nil, or_false] at h
  rcases h with rfl | rfl | rfl | rfl | rfl | rfl | rfl | rfl | rfl | rfl | rfl
  · exact setWidth_extractLsb'_eq_and (n := 13) (by decide)
  · exact setWidth_extractLsb'_eq_and (n := 13) (by decide)
  · exact setWidth_extractLsb'_eq_and (n := 16) (by decide)
  · exact setWidth_extractLsb'_eq_and (n := 8) (by decide)
  · exact setWidth_extractLsb'_eq_and (n := 13) (by decide)
  · exact setWidth_extractLsb'_eq_and (n := 3) (by decide)
  · exact setWidth_extractLsb'_eq_and (n := 10) (by decide)
  · exact BlkPos.word_of_fields v
  · exact (lowWord_append _ v).trans (BitVec.and_allOnes).symm
  · exact (highWord_append v _).trans (BitVec.and_allOnes).symm
  · exact setWidth_ofBool_eq_and v

/-- A write to a read-only register or a reserved offset is ignored. -/
theorem State.writeReg_of_not_hostWritable (s : State) {off : Nat} (v : Word) (h : ¬ Spec.hostWritable off)
    (hcmd : off ≠ 0x008) (hirq : off ≠ 0x05C) : s.writeReg off v = s := by
  rw [hostWritable_iff] at h
  unfold State.writeReg
  split <;> simp at h hcmd hirq ⊢

/-- A new value of FLOOR changes no other register, and a half of FLOOR only where it differs. -/
theorem State.readReg_withFloor (s : State) {x : F64} {other : Nat}
    (hlow : other = 0x050 → lowWord x = lowWord s.floor)
    (hhigh : other = 0x054 → highWord x = highWord s.floor) :
    ({ s with floor := x } : State).readReg other = s.readReg other := by
  by_cases h50 : other = 0x050
  · subst h50
    exact hlow rfl
  · by_cases h54 : other = 0x054
    · subst h54
      exact hhigh rfl
    · unfold State.readReg
      split <;> first | rfl | contradiction

/-- A write to a register other than CMD and IRQ_STAT changes no other register. -/
theorem State.readReg_writeReg_of_ne (s : State) {off other : Nat} (v : Word) (hne : other ≠ off)
    (hcmd : off ≠ 0x008) (hirq : off ≠ 0x05C) : (s.writeReg off v).readReg other = s.readReg other := by
  unfold State.writeReg
  split
  case h_1 => exact absurd rfl hcmd
  case h_10 => exact s.readReg_withFloor (fun h => absurd h hne) fun _ => highWord_append _ v
  case h_11 => exact s.readReg_withFloor (fun _ => lowWord_append v _) fun h => absurd h hne
  case h_13 => exact absurd rfl hirq
  all_goals
    unfold State.readReg
    split <;> first | rfl | contradiction

/-- A write to a register other than CMD and IRQ_STAT stores in the registers of configuration only. -/
theorem State.writeReg_eq_of_ne (s : State) {off : Nat} (v : Word) (hcmd : off ≠ 0x008)
    (hirq : off ≠ 0x05C) :
    s.writeReg off v = { s with
      imgW := (s.writeReg off v).imgW, imgH := (s.writeReg off v).imgH,
      strength := (s.writeReg off v).strength, sqw := (s.writeReg off v).sqw,
      payloadLen := (s.writeReg off v).payloadLen, bitOffset := (s.writeReg off v).bitOffset,
      textLen := (s.writeReg off v).textLen, blkPos := (s.writeReg off v).blkPos,
      floor := (s.writeReg off v).floor, doneIe := (s.writeReg off v).doneIe } := by
  unfold State.writeReg
  split <;> first | rfl | contradiction

/-- Settles O21: the bus does the write, and each register but the two halves of FLOOR is a field of its
own. -/
theorem registerWritesStoreTheNamedFields : Obligations.RegisterWritesStoreTheNamedFields := by
  rintro s addr v off hidle rfl hoff halign hcmd hirq
  have hw := State.hostWrite_register v hoff halign (.inl hidle)
  have heq := s.writeReg_eq_of_ne v hcmd hirq
  refine ⟨_, hw, ?_, ?_, s.readReg_writeReg_self v, fun h => ?_,
    fun other _ _ hne => s.readReg_writeReg_of_ne v hne hcmd hirq⟩
  · rw [heq]
    rfl
  · rw [heq]
    exact fun _ => rfl
  · rw [s.writeReg_of_not_hostWritable v h hcmd hirq]
    rfl

end Sys2Proof.Machine
end

section
/-! PROOF. The host bus: which accesses are refused, the answer to each kind of access while busy and while
idle, and the order of the bytes that it moves (20_memory R60 to R76). -/

namespace Sys2Proof.Machine

/-! ### The accesses that the bus refuses -/

theorem Size.bytes_eq_width (size : Size) : size.bytes = Spec.width size := by
  cases size <;> rfl

theorem Size.bytes_le_four (size : Size) : size.bytes ≤ 4 := by
  cases size <;> decide

theorem width_eq_four_iff {size : Size} : Spec.width size = 4 ↔ size = .word := by
  cases size <;> decide

theorem inMemories_iff {off : Nat} : Spec.inMemories off ↔ storageOffset off := by
  unfold Spec.inMemories storageOffset
  omega

theorem accessRefused_eq_true_iff {off : Nat} {size : Size} :
    accessRefused off size = true ↔ Spec.refused off size := by
  rw [accessRefused_iff, Size.bytes_eq_width]
  exact or_congr Iff.rfl (or_congr
    (and_congr Nat.lt_succ_iff (not_congr width_eq_four_iff.symm))
    (and_congr Iff.rfl (not_congr inMemories_iff.symm)))

theorem accessRefused_eq_false_iff {off : Nat} {size : Size} :
    accessRefused off size = false ↔ ¬ Spec.refused off size := by
  rw [← Bool.not_eq_true, accessRefused_eq_true_iff]

/-! ### The answer to each kind of access -/

theorem State.hostRead_of_refused {s : State} {off : Nat} {size : Size} (h : Spec.refused off size) :
    s.hostRead off size = s.answer .error 0#32 := by
  rw [State.hostRead, if_pos (accessRefused_eq_true_iff.mpr h)]

theorem State.hostRead_of_unsteady {s : State} {off : Nat} {size : Size} (h : ¬ Spec.refused off size)
    (hbusy : s.status.busy = true) (hsteady : s.steadyWhileBusy off = false) :
    s.hostRead off size = s.answer .okay (Config.busyRead s.draws) := by
  rw [State.hostRead, accessRefused_eq_false_iff.mpr h, hbusy, hsteady]
  rfl

theorem State.hostRead_of_readable {s : State} {off : Nat} {size : Size} (h : ¬ Spec.refused off size)
    (hread : s.status.busy = false ∨ s.steadyWhileBusy off = true) :
    s.hostRead off size = s.answer .okay (s.readData off size) := by
  rw [State.hostRead, accessRefused_eq_false_iff.mpr h]
  rcases hread with hread | hread <;> simp [hread]

theorem State.hostWrite_of_refused {s : State} {off : Nat} {size : Size} (v : Word)
    (h : Spec.refused off size) : s.hostWrite off size v = s.answer .error 0#32 := by
  rw [State.hostWrite, if_pos (accessRefused_eq_true_iff.mpr h)]

theorem State.hostWrite_of_busy {s : State} {off : Nat} {size : Size} (v : Word)
    (h : ¬ Spec.refused off size) (hbusy : s.status.busy = true) (hirq : irqRegister off = false) :
    s.hostWrite off size v = s.reject.answer .error s.openLanes := by
  rw [State.hostWrite, accessRefused_eq_false_iff.mpr h, hbusy, hirq]
  rfl

theorem State.hostWrite_of_idle {s : State} {off : Nat} {size : Size} (v : Word)
    (h : ¬ Spec.refused off size) (hidle : s.status.busy = false) :
    s.hostWrite off size v = (s.writeData off size v).answer .okay s.openLanes := by
  rw [State.hostWrite, accessRefused_eq_false_iff.mpr h, hidle]
  rfl

/-- Settles O15: the bus tests the form of an access before anything else. -/
theorem refusedAccessesHaveNoEffect : Obligations.RefusedAccessesHaveNoEffect :=
  fun _ _ v _ h => ⟨State.hostRead_of_refused h, State.hostWrite_of_refused v h⟩

/-- Settles O16: only the offsets of IRQ_EN and IRQ_STAT pass the test of BUSY. -/
theorem writesWhileBusyAreRejected : Obligations.WritesWhileBusyAreRejected := by
  intro s addr v size hbusy h hen hstat
  have hirq : irqRegister (busOffset addr) = false :=
    Bool.or_eq_false_iff.mpr ⟨decide_eq_false hen, decide_eq_false hstat⟩
  exact State.hostWrite_of_busy v h hbusy hirq

/-! ### Reads while busy -/

theorem writesPayloadLen_eq_true_iff {i : Instr} : writesPayloadLen i = true ↔ Spec.writesLength i := by
  cases i <;> simp [writesPayloadLen, Spec.writesLength]

theorem State.runningWritesLen_eq_true_iff {s : State} :
    s.runningWritesLen = true ↔ Spec.runsLengthWriter s := by
  unfold State.runningWritesLen Spec.runsLengthWriter
  cases decode s.cmd with
  | error e => simp
  | ok i => simp [writesPayloadLen_eq_true_iff]

theorem reservedOffset_eq_true_iff {off : Nat} : reservedOffset off = true ↔ Spec.reserved off := by
  rw [reservedOffset, Bool.and_eq_true, decide_eq_true_iff, decide_eq_true_iff]
  exact and_congr Iff.rfl Nat.lt_succ_iff

/-- The offsets with a value that a read while busy returns, by the clauses of 20_memory R76 (c), with FLOOR
(log entry 7) and the reserved offsets. -/
theorem State.steadyWhileBusy_eq_true_iff {s : State} {off : Nat} : s.steadyWhileBusy off = true ↔
    (off ∈ Spec.steadyOffsets ∨ off = 0x020 ∧ ¬ Spec.runsLengthWriter s) ∨ (off = 0x050 ∨ off = 0x054) ∨
      Spec.reserved off := by
  rw [State.steadyWhileBusy, Bool.or_eq_true, Bool.or_eq_true, Bool.and_eq_true, decide_eq_true_iff,
    decide_eq_true_iff, reservedOffset_eq_true_iff, Bool.not_eq_true', ← Bool.not_eq_true,
    State.runningWritesLen_eq_true_iff, Spec.steadyOffsets]
  simp only [List.mem_cons, List.not_mem_nil, or_false]
  tauto

theorem State.lt_of_steadyWhileBusy {s : State} {off : Nat} (h : s.steadyWhileBusy off = true) :
    off < 0x1000 := by
  have key : ∀ o ∈ Spec.steadyOffsets, o < 0x1000 := by decide
  rcases State.steadyWhileBusy_eq_true_iff.mp h with (h | ⟨h, -⟩) | (h | h) | ⟨-, h⟩
  · exact key off h
  all_goals omega

/-- The result registers, the memories, and PAYLOAD_LEN under a command that writes it have no value for a
read while busy. -/
theorem State.steadyWhileBusy_eq_false {s : State} {off : Nat} (h : off ∈ Spec.resultOffsets ∨
    Spec.inMemories off ∨ off = 0x020 ∧ Spec.runsLengthWriter s) : s.steadyWhileBusy off = false := by
  rw [← Bool.not_eq_true]
  intro hsteady
  have hoff := State.lt_of_steadyWhileBusy hsteady
  rw [State.steadyWhileBusy_eq_true_iff] at hsteady
  rcases h with h | h | ⟨rfl, hrun⟩
  · have key : ∀ o ∈ Spec.resultOffsets, o ∉ Spec.steadyOffsets ∧ o ≠ 0x020 ∧ o ≠ 0x050 ∧ o ≠ 0x054 ∧
        o < 0x060 := by decide
    obtain ⟨hlist, h20, h50, h54, hlt⟩ := key off h
    rcases hsteady with (hs | ⟨hs, -⟩) | (hs | hs) | ⟨hs, -⟩
    · exact hlist hs
    all_goals omega
  · unfold Spec.inMemories at h
    omega
  · rcases hsteady with (hs | ⟨-, hs⟩) | (hs | hs) | ⟨hs, -⟩
    · exact absurd hs (by decide)
    · exact hs hrun
    all_goals omega

theorem State.readData_of_register (s : State) {off : Nat} (size : Size) (h : off < 0x1000) :
    s.readData off size = s.readReg off := by
  rw [State.readData, if_pos (window_eq_registers.mpr h)]

theorem State.hostRead_of_steady {s : State} {off : Nat} {size : Size} (h : ¬ Spec.refused off size)
    (hsteady : s.steadyWhileBusy off = true) :
    s.hostRead off size = Spec.answered s .okay (s.readReg off) := by
  rw [State.hostRead_of_readable h (.inr hsteady),
    s.readData_of_register size (State.lt_of_steadyWhileBusy hsteady)]
  rfl

/-- Settles O17: an offset is steady by one of the clauses of 20_memory R76 (c), and then the read returns its
register, or it is not, and then the read returns the free value. -/
theorem readsWhileBusy : Obligations.ReadsWhileBusy := by
  intro s addr size hbusy h
  have hread : s.steadyWhileBusy (Spec.offsetOf addr) = true →
      s.hostAccess (.read addr size) = Spec.answered s .okay (s.readReg (Spec.offsetOf addr)) :=
    State.hostRead_of_steady h
  refine ⟨fun hc => hread (State.steadyWhileBusy_eq_true_iff.mpr (.inl hc)),
    fun hc => hread (State.steadyWhileBusy_eq_true_iff.mpr (.inr (.inl hc))), fun hc => ?_,
    fun hc => State.hostRead_of_unsteady h hbusy (State.steadyWhileBusy_eq_false hc)⟩
  rw [← s.readReg_of_reserved hc.1]
  exact hread (State.steadyWhileBusy_eq_true_iff.mpr (.inr (.inr hc)))

/-! ### Byte order -/

/-- Byte `i` of a number that is written as a bit vector. -/
theorem extractLsb'_ofNat_byte {w i : Nat} (n : Nat) (h : 8 * i + 8 ≤ w) :
    (BitVec.ofNat w n).extractLsb' (8 * i) 8 = BitVec.ofNat 8 (n / 256 ^ i) := by
  have hpow : 256 ^ i = 2 ^ (8 * i) := by rw [Nat.pow_mul]
  apply BitVec.eq_of_getLsbD_eq
  intro j hj
  rw [BitVec.getLsbD_extractLsb', BitVec.getLsbD_ofNat, BitVec.getLsbD_ofNat, hpow, Nat.testBit_div_two_pow,
    decide_eq_true hj, decide_eq_true (by omega : 8 * i + j < w), Nat.add_comm]
  simp

theorem ofNat_ofLittle_div (bs : List Byte) {i : Nat} (h : i < bs.length) :
    BitVec.ofNat 8 (ofLittle bs / 256 ^ i) = bs[i] := by
  induction bs generalizing i with
  | nil => cases h
  | cons b bs ih =>
    cases i with
    | zero =>
      apply BitVec.eq_of_toNat_eq
      have := b.isLt
      simp only [ofLittle, BitVec.toNat_ofNat, Nat.pow_zero, Nat.div_one, List.getElem_cons_zero]
      omega
    | succ i =>
      have hdrop : (b.toNat + 256 * ofLittle bs) / 256 = ofLittle bs := by have := b.isLt; omega
      rw [ofLittle, Nat.pow_succ', ← Nat.div_div_eq_div_mul, hdrop, List.getElem_cons_succ]
      exact ih (by simpa using h)

theorem toLittle_getElem (n v : Nat) {i : Nat} (h : i < (toLittle n v).length) :
    (toLittle n v)[i] = BitVec.ofNat 8 (v / 256 ^ i) := by
  induction n generalizing v i with
  | zero => cases h
  | succ n ih =>
    cases i with
    | zero => simp [toLittle]
    | succ i =>
      rw [Nat.pow_succ', ← Nat.div_div_eq_div_mul]
      exact ih (v / 256) (by simpa using h)

/-- Byte `i` of a bit vector stands at place `i` of its little-endian bytes. -/
theorem toLittle_getElem_toNat {w n i : Nat} (v : BitVec w) (hw : 8 * i + 8 ≤ w)
    (h : i < (toLittle n v.toNat).length) : (toLittle n v.toNat)[i] = v.extractLsb' (8 * i) 8 := by
  rw [toLittle_getElem, ← extractLsb'_ofNat_byte v.toNat hw, BitVec.ofNat_toNat, BitVec.setWidth_eq]

/-! ### Reads while idle -/

/-- The low lanes of a read of a memory hold the addressed bytes, the lowest address first. -/
theorem State.readData_of_memory (s : State) {off i : Nat} (size : Size) (hoff : ¬ off < 0x1000)
    (hi : i < size.bytes) : (s.readData off size).extractLsb' (8 * i) 8 = s.byteAt (off + i) := by
  have hsize := size.bytes_le_four
  rw [State.readData, if_neg (fun h => hoff (window_eq_registers.mp h)), Size.lanes_low size _ _ hi,
    extractLsb'_ofNat_byte _ (by omega), ofNat_ofLittle_div _ (by simpa using hi)]
  simp [State.bytesAt]

/-- Settles O18: the read data are the register, or have the addressed bytes in the low lanes. -/
theorem readsWhileIdle : Obligations.ReadsWhileIdle := by
  intro s addr size hidle h
  refine ⟨_, State.hostRead_of_readable h (.inl hidle), fun i hi => ?_⟩
  rw [← Size.bytes_eq_width] at hi
  by_cases hoff : Spec.offsetOf addr < 0x1000
  · rw [if_pos hoff]
    exact congrArg _ (s.readData_of_register size hoff)
  · rw [if_neg hoff]
    exact s.readData_of_memory size hoff hi

/-! ### Writes while idle -/

theorem State.writeData_of_votes (s : State) {off : Nat} (size : Size) (v : Word) (h : Spec.inVotes off) :
    s.writeData off size v = s := by
  obtain ⟨hlow, hhigh⟩ := h
  rw [State.writeData, window_eq_vote.mpr ⟨hlow, by omega⟩]

theorem State.writeData_of_memory (s : State) {off : Nat} (size : Size) (v : Word) (h : Spec.inMemories off)
    (hv : ¬ Spec.inVotes off) : s.writeData off size v = s.store off (toLittle size.bytes v.toNat) := by
  unfold Spec.inMemories at h
  unfold Spec.inVotes at hv
  rcases s.writeData_cases off size v with ⟨hr, -⟩ | ⟨hlow, hhigh, -⟩ | ⟨-, -, hd⟩
  · omega
  · omega
  · exact hd

/-- A stored word reads back byte by byte, the least significant first. -/
theorem State.byteAt_store_toLittle (s : State) (off : Nat) {w n i : Nat} (v : BitVec w) (hi : i < n)
    (hw : 8 * i + 8 ≤ w) :
    (s.store off (toLittle n v.toNat)).byteAt (off + i) = v.extractLsb' (8 * i) 8 := by
  rw [State.byteAt_store_of_inside (by simpa using hi), toLittle_getElem_toNat v hw]

/-- Settles O19: a write to VOTE is ignored, and one to another memory stores the low bytes of the word. -/
theorem memoryWritesAreLittleEndian : Obligations.MemoryWritesAreLittleEndian := by
  intro s addr v size hidle h hmem
  have hsize := size.bytes_le_four
  refine ⟨_, State.hostWrite_of_idle v h hidle, ?_⟩
  by_cases hv : Spec.inVotes (Spec.offsetOf addr)
  · have hd : s.writeData (busOffset addr) size v = s := s.writeData_of_votes size v hv
    rw [hd]
    exact ⟨rfl, fun _ => rfl, fun hn => absurd hv hn⟩
  · have hd := s.writeData_of_memory size v hmem hv
    rw [← Size.bytes_eq_width]
    refine ⟨?_, fun hn => absurd hn hv, fun _ => ⟨fun i hi => ?_, fun a ha => ?_⟩⟩
    all_goals rw [show busOffset addr = Spec.offsetOf addr from rfl, hd]
    · rfl
    · exact s.byteAt_store_toLittle _ v hi (by omega)
    · exact State.byteAt_store_of_outside (by rw [toLittle_length]; omega)

/-! ### Entries of BLK -/

/-- A binary64 value is read from its bytes. -/
theorem State.f64At_of_byteAt {s : State} {off : Nat} {x : F64}
    (h : ∀ i, i < 8 → s.byteAt (off + i) = x.extractLsb' (8 * i) 8) : s.f64At off = x := by
  refine State.f64At_of_bytes (List.ext_getElem (by simp) fun i h1 h2 => ?_)
  have hi : i < 8 := by simpa using h1
  rw [toLittle_getElem_toNat x (by omega)]
  simpa [State.bytesAt] using h i hi

/-- Two words stored one above the other are the binary64 value of the two. -/
theorem State.f64At_store_two_words (s : State) (off : Nat) (lo hi : Word) :
    ((s.store off (toLittle 4 lo.toNat)).store (off + 4) (toLittle 4 hi.toNat)).f64At off = hi ++ lo := by
  refine State.f64At_of_byteAt fun i hi8 => ?_
  by_cases h : i < 4
  · rw [State.byteAt_store_of_outside (.inl (by omega)), State.byteAt_store_toLittle s off lo h (by omega),
      BitVec.extractLsb'_append_eq_of_add_le (by omega)]
  · obtain ⟨j, rfl⟩ : ∃ j, i = 4 + j := ⟨i - 4, by omega⟩
    rw [← Nat.add_assoc, State.byteAt_store_toLittle _ (off + 4) hi (by omega) (by omega),
      BitVec.extractLsb'_append_eq_of_le (by omega), show 8 * (4 + j) - 32 = 8 * j by omega]

/-- A write of a word to BLK while idle. -/
theorem State.hostAccess_write_blk {s : State} {addr : Word} {off : Nat} (v : Word)
    (hidle : s.status.busy = false) (hoff : Spec.offsetOf addr = off) (halign : off % 4 = 0)
    (hlow : 0x1000 ≤ off) (hhigh : off < 0x1200) :
    s.hostAccess (.write addr .word v) = (s.store off (toLittle 4 v.toNat)).answer .okay s.openLanes := by
  have hmem : Spec.inMemories off := .inl ⟨hlow, by omega⟩
  have hv : ¬ Spec.inVotes off := fun h => by have := h.1; omega
  have hr : ¬ Spec.refused off .word := by
    rintro (h | ⟨-, h⟩ | ⟨-, h⟩)
    · exact h halign
    · exact h rfl
    · exact h hmem
  rw [State.hostAccess_write, show busOffset addr = off from hoff, State.hostWrite_of_idle v hr hidle,
    s.writeData_of_memory .word v hmem hv]
  rfl

/-- Settles O20: the writes store the two halves of one entry, and the other entries lie outside them. -/
theorem twoWritesMakeOneEntry : Obligations.TwoWritesMakeOneEntry := by
  intro s low high lo hi k hidle hk hlow hhigh
  rw [State.hostAccess_write_blk lo hidle hlow (by omega) (by omega) (by omega)]
  have hsecond := State.hostAccess_write_blk
    (s := (s.store (0x1000 + 8 * k) (toLittle 4 lo.toNat)).answer .okay s.openLanes)
    hi hidle hhigh (by omega) (by omega) (by omega)
  refine ⟨_, hsecond, s.f64At_store_two_words _ lo hi, fun j hj hjk => ?_⟩
  rw [Spec.blkEntry, State.answer_f64At, State.f64At_store_of_outside (by rw [toLittle_length]; omega),
    State.answer_f64At, State.f64At_store_of_outside (by rw [toLittle_length]; omega)]
  rfl

end Sys2Proof.Machine
end

section
/-! PROOF. The decoder as the opcode table, the encoder as its inverse on well-formed commands, and what
becomes of a word that names no command (30_encoding R85 to R93). -/

namespace Sys2Proof

/-! ### Bits and fields under a mask -/

/-- A bit that the mask covers is the fixed bit. -/
theorem getLsbD_of_matches {w m f : Word} (h : w &&& m = f) {j : Nat} (hm : m.getLsbD j = true) :
    w.getLsbD j = f.getLsbD j := by
  rw [← h, BitVec.getLsbD_and, hm, Bool.and_true]

/-- A field that the mask covers is the fixed field. -/
theorem extractLsb'_of_matches {w m f : Word} (h : w &&& m = f) {start len : Nat}
    (hm : ∀ j, j < len → m.getLsbD (start + j) = true) :
    w.extractLsb' start len = f.extractLsb' start len := by
  apply BitVec.eq_of_getLsbD_eq
  intro j hj
  rw [BitVec.getLsbD_extractLsb', BitVec.getLsbD_extractLsb', getLsbD_of_matches h (hm j hj)]

/-! ### The rows of the opcode table -/

/-- The row of a command in the opcode table (30_encoding R87). -/
def Instr.row : Instr → Row
  | .nop => ⟨"NOP", 0x00#32, 0xFFFFFFFF#32⟩
  | .fdct => ⟨"FDCT", 0x01#32, 0xFFFFFFFF#32⟩
  | .idct => ⟨"IDCT", 0x02#32, 0xFFFFFFFF#32⟩
  | .margin _ => ⟨"MARGIN", 0x03#32, 0xFFFFEFFF#32⟩
  | .ldluma _ => ⟨"LDLUMA", 0x04#32, 0xFFFFFCFF#32⟩
  | .hype _ _ _ _ => ⟨"HYPE", 0x05#32, 0xFE88FCFF#32⟩
  | .search => ⟨"SEARCH", 0x06#32, 0xFFFFFFFF#32⟩
  | .vote _ _ _ => ⟨"VOTE", 0x07#32, 0xFF88FCFF#32⟩
  | .decode => ⟨"DECODE", 0x08#32, 0xFFFFFFFF#32⟩
  | .embed => ⟨"EMBED", 0x09#32, 0xFFFFFFFF#32⟩
  | .ser => ⟨"SER", 0x0A#32, 0xFFFFFFFF#32⟩
  | .deser => ⟨"DESER", 0x0B#32, 0xFFFFFFFF#32⟩

theorem Instr.row_mem (i : Instr) : i.row ∈ opcodeTable := by
  cases i <;> simp [Instr.row, opcodeTable]

theorem Instr.row_mnemonic (i : Instr) : i.row.mnemonic = Spec.mnemonic i := by
  cases i <;> rfl

theorem mask_covers_opcode : ∀ r ∈ opcodeTable, r.mask &&& 0xFF#32 = 0xFF#32 := by decide

theorem mask_covers_reserved : ∀ r ∈ opcodeTable,
    r.mask &&& 0xFE88EC00#32 = 0xFE88EC00#32 ∧ r.fixed &&& 0xFE88EC00#32 = 0#32 := by decide

theorem fixed_lt : ∀ r ∈ opcodeTable, r.fixed.toNat < 0x0C := by decide

theorem exists_row_of_lt : ∀ n < 0x0C, ∃ r ∈ opcodeTable, r.fixed.toNat = n := by decide

/-- The opcode determines the row. -/
theorem row_ext : ∀ r ∈ opcodeTable, ∀ r' ∈ opcodeTable, r.fixed.toNat = r'.fixed.toNat → r = r' := by
  decide

/-- A word that matches a row of the table has the opcode of the row. -/
theorem opcField_of_matches {w : Word} {r : Row} (hr : r ∈ opcodeTable) (h : w &&& r.mask = r.fixed) :
    (opcField w).toNat = r.fixed.toNat := by
  have key : ∀ r ∈ opcodeTable, (∀ j, j < 8 → r.mask.getLsbD (0 + j) = true) ∧
      (r.fixed.extractLsb' 0 8).toNat = r.fixed.toNat := by decide
  obtain ⟨hcover, hfixed⟩ := key r hr
  rw [opcField, extractLsb'_of_matches h hcover, hfixed]

theorem matches_unique {w : Word} {r r' : Row} (hr : r ∈ opcodeTable) (hr' : r' ∈ opcodeTable)
    (h : w &&& r.mask = r.fixed) (h' : w &&& r'.mask = r'.fixed) : r = r' :=
  row_ext r hr r' hr' ((opcField_of_matches hr h).symm.trans (opcField_of_matches hr' h'))

/-- A row matches the words with its opcode in which every other bit that its mask covers is 0. -/
theorem matches_iff_of_opcField {w : Word} {r : Row} (hr : r ∈ opcodeTable)
    (hn : (opcField w).toNat = r.fixed.toNat) :
    w &&& r.mask = r.fixed ↔ w &&& r.mask &&& 0xFFFFFF00#32 = 0#32 := by
  have h := and_mask_eq_iff (w := w) (mask_covers_opcode r hr) hn
  rwa [BitVec.ofNat_toNat, BitVec.setWidth_eq, Iff.comm] at h

/-! ### The decoder as the table -/

/-- The command that the opcode and the fields of a word name, its other bits aside (30_encoding R85,
R87). -/
def named (w : Word) : Option Instr :=
  match (opcField w).toNat with
  | 0x00 => some .nop
  | 0x01 => some .fdct
  | 0x02 => some .idct
  | 0x03 => some (.margin (bitField w))
  | 0x04 => some (.ldluma (.ofCode (rotField w)))
  | 0x05 => some (.hype (.ofCode (rotField w)) (oxField w).toNat (oyField w).toNat (.ofCode (s8Field w)))
  | 0x06 => some .search
  | 0x07 => some (.vote (.ofCode (rotField w)) (oxField w).toNat (oyField w).toNat)
  | 0x08 => some .decode
  | 0x09 => some .embed
  | 0x0A => some .ser
  | 0x0B => some .deser
  | _ => none

/-- The decoder takes the command that the word names and checks the bits that its row covers. -/
theorem decode_eq_named (w : Word) :
    decode w = (named w).elim (.error .reservedOpcode) fun i => unlessStray w i.row.mask i := by
  unfold decode named
  generalize (opcField w).toNat = n
  split
  case h_13 => simp [*]
  all_goals rfl

/-- The row of the command that a word names has the opcode of the word. -/
theorem opcField_of_named {w : Word} {i : Instr} (h : named w = some i) :
    (opcField w).toNat = i.row.fixed.toNat := by
  unfold named at h
  split at h
  case h_13 => cases h
  all_goals
    cases h
    assumption

theorem exists_named_of_lt {w : Word} (h : (opcField w).toNat < 0x0C) : ∃ i, named w = some i := by
  unfold named
  generalize (opcField w).toNat = n at h ⊢
  interval_cases n <;> exact ⟨_, rfl⟩

theorem unlessStray_eq_ok_iff {w m : Word} {i j : Instr} :
    unlessStray w m i = .ok j ↔ i = j ∧ w &&& m &&& 0xFFFFFF00#32 = 0#32 := by
  unfold unlessStray
  split <;> simp [*]

/-- A word decodes to the command it names exactly when it matches the row of that command. -/
theorem decode_eq_ok_iff {w : Word} {i : Instr} :
    decode w = .ok i ↔ named w = some i ∧ w &&& i.row.mask = i.row.fixed := by
  rw [decode_eq_named]
  cases h : named w with
  | none => simp
  | some j =>
    simp only [Option.elim_some, unlessStray_eq_ok_iff, Option.some.injEq]
    refine and_congr_right ?_
    rintro rfl
    exact (matches_iff_of_opcField j.row_mem (opcField_of_named h)).symm

/-- A word decodes exactly when it matches a row of the table. -/
theorem exists_decode_ok_iff {w : Word} :
    (∃ i, decode w = .ok i) ↔ ∃ r ∈ opcodeTable, w &&& r.mask = r.fixed := by
  constructor
  · rintro ⟨i, h⟩
    exact ⟨i.row, i.row_mem, (decode_eq_ok_iff.mp h).2⟩
  · rintro ⟨r, hr, h⟩
    have hopc := opcField_of_matches hr h
    obtain ⟨i, hi⟩ := exists_named_of_lt (hopc ▸ fixed_lt r hr)
    have hrow : i.row = r := row_ext _ i.row_mem r hr ((opcField_of_named hi).symm.trans hopc)
    exact ⟨i, decode_eq_ok_iff.mpr ⟨hi, by rwa [hrow]⟩⟩

theorem exists_decode_error_iff {w : Word} : (∃ e, decode w = .error e) ↔ ¬ ∃ i, decode w = .ok i := by
  cases decode w <;> simp

/-- Settles O3: a decoded word matches the row of its command, which has the only opcode that can match, and a
word that matches a row decodes. -/
theorem decodeSelectsTheTableRow : Obligations.DecodeSelectsTheTableRow := by
  refine ⟨fun w i h => ?_, fun w e h r hr hm => ?_⟩
  · obtain ⟨-, hm⟩ := decode_eq_ok_iff.mp h
    exact ⟨i.row, i.row_mem, i.row_mnemonic, hm, fun r hr hr' => matches_unique hr i.row_mem hr' hm⟩
  · exact exists_decode_error_iff.mp ⟨e, h⟩ (exists_decode_ok_iff.mpr ⟨r, hr, hm⟩)

/-! ### Decoding an encoded command -/

/-- The word of a well-formed command matches a row of the opcode table. -/
theorem encode_matches_row (i : Instr) : Laws.EncodeFits.Statement i := by
  cases i with
  | nop => exact Laws.EncodeFits.nop
  | fdct => exact Laws.EncodeFits.fdct
  | idct => exact Laws.EncodeFits.idct
  | margin bit => exact Laws.EncodeFits.margin bit
  | ldluma rot => exact Laws.EncodeFits.ldluma rot
  | hype rot ox oy stride => exact Laws.EncodeFits.hype rot ox oy stride
  | search => exact Laws.EncodeFits.search
  | vote rot ox oy => exact Laws.EncodeFits.vote rot ox oy
  | decode => exact Laws.EncodeFits.decode
  | embed => exact Laws.EncodeFits.embed
  | ser => exact Laws.EncodeFits.ser
  | deser => exact Laws.EncodeFits.deser

/-- The word of a well-formed command names the command: its fields are the operands. -/
theorem named_encode {i : Instr} (h : i.wellFormed = true) : named (encode i) = some i := by
  cases i with
  | hype rot ox oy stride =>
    obtain ⟨hx, hy⟩ := Laws.EncodeFits.offsets_lt h
    simp [named, encode, oyField_assemble, s8Field_assemble, hx, hy, Nat.mod_eq_of_lt]
  | vote rot ox oy =>
    obtain ⟨hx, hy⟩ := Laws.EncodeFits.offsets_lt h
    simp [named, encode, oyField_assemble, hx, hy, Nat.mod_eq_of_lt]
  | _ => simp [named, encode]

/-- Settles O1: the word names the command, and the row that it matches is the command's, by its opcode. -/
theorem decodeOfEncode : Obligations.DecodeOfEncode := by
  intro i hwf
  have hn := named_encode hwf
  obtain ⟨r, hr, hm⟩ := encode_matches_row i hwf
  have hrow : r = i.row :=
    row_ext r hr _ i.row_mem ((opcField_of_matches hr hm).symm.trans (opcField_of_named hn))
  exact decode_eq_ok_iff.mpr ⟨hn, hrow ▸ hm⟩

/-! ### The fields of a word that names a command with operands -/

theorem fields_of_named_margin {w : Word} {bit : Bool} (h : named w = some (.margin bit)) :
    opcField w = 0x03#8 ∧ bitField w = bit := by
  have hopc : opcField w = 0x03#8 := BitVec.eq_of_toNat_eq (opcField_of_named h)
  exact ⟨hopc, by simpa [named, hopc] using h⟩

theorem fields_of_named_ldluma {w : Word} {rot : Rotation} (h : named w = some (.ldluma rot)) :
    opcField w = 0x04#8 ∧ .ofCode (rotField w) = rot := by
  have hopc : opcField w = 0x04#8 := BitVec.eq_of_toNat_eq (opcField_of_named h)
  exact ⟨hopc, by simpa [named, hopc] using h⟩

theorem fields_of_named_hype {w : Word} {rot : Rotation} {ox oy : Nat} {stride : Stride}
    (h : named w = some (.hype rot ox oy stride)) :
    opcField w = 0x05#8 ∧ .ofCode (rotField w) = rot ∧ (oxField w).toNat = ox ∧ (oyField w).toNat = oy ∧
      .ofCode (s8Field w) = stride := by
  have hopc : opcField w = 0x05#8 := BitVec.eq_of_toNat_eq (opcField_of_named h)
  exact ⟨hopc, by simpa [named, hopc] using h⟩

theorem fields_of_named_vote {w : Word} {rot : Rotation} {ox oy : Nat}
    (h : named w = some (.vote rot ox oy)) :
    opcField w = 0x07#8 ∧ .ofCode (rotField w) = rot ∧ (oxField w).toNat = ox ∧ (oyField w).toNat = oy := by
  have hopc : opcField w = 0x07#8 := BitVec.eq_of_toNat_eq (opcField_of_named h)
  exact ⟨hopc, by simpa [named, hopc] using h⟩

theorem offsetsFit_fields (w : Word) : offsetsFit (oxField w).toNat (oyField w).toNat = true := by
  simp [offsetsFit, oxField_lt w, oyField_lt w]

theorem wellFormed_of_named {w : Word} {i : Instr} (h : named w = some i) : i.wellFormed = true := by
  cases i with
  | hype rot ox oy stride =>
    obtain ⟨-, -, rfl, rfl, -⟩ := fields_of_named_hype h
    exact offsetsFit_fields w
  | vote rot ox oy =>
    obtain ⟨-, -, rfl, rfl⟩ := fields_of_named_vote h
    exact offsetsFit_fields w
  | _ => rfl

/-! ### Encoding a decoded command -/

/-- The reserved bits of a word that matches a row are 0 (30_encoding R85, R89). -/
theorem reserved_eq_zero_of_matches {w : Word} {r : Row} (hr : r ∈ opcodeTable)
    (h : w &&& r.mask = r.fixed) : w &&& 0xFE88EC00#32 = 0#32 := by
  obtain ⟨hmask, hfixed⟩ := mask_covers_reserved r hr
  rw [← hmask, ← BitVec.and_assoc, h, hfixed]

/-- Encoding the command that a word names gives the word, where it matches the row of the command. -/
theorem encode_of_named {w : Word} {i : Instr} (h : named w = some i)
    (hm : w &&& i.row.mask = i.row.fixed) : encode i = w := by
  have hw := assemble_fields (reserved_eq_zero_of_matches i.row_mem hm)
  cases i with
  | margin bit =>
    obtain ⟨hopc, rfl⟩ := fields_of_named_margin h
    change w &&& 0xFFFFEFFF#32 = 0x03#32 at hm
    have hrot : rotField w = 0#2 := extractLsb'_of_matches hm (by decide)
    have hox : oxField w = 0#3 := extractLsb'_of_matches hm (by decide)
    have hoy : oyField w = 0#3 := extractLsb'_of_matches hm (by decide)
    have hs8 : s8Field w = 0#1 := extractLsb'_of_matches hm (by decide)
    rwa [hopc, hrot, hox, hoy, hs8] at hw
  | ldluma rot =>
    obtain ⟨hopc, rfl⟩ := fields_of_named_ldluma h
    change w &&& 0xFFFFFCFF#32 = 0x04#32 at hm
    have hbit : bitField w = false := getLsbD_of_matches hm (by decide)
    have hox : oxField w = 0#3 := extractLsb'_of_matches hm (by decide)
    have hoy : oyField w = 0#3 := extractLsb'_of_matches hm (by decide)
    have hs8 : s8Field w = 0#1 := extractLsb'_of_matches hm (by decide)
    rw [hopc, hbit, hox, hoy, hs8] at hw
    rwa [encode, Rotation.code_ofCode]
  | hype rot ox oy stride =>
    obtain ⟨hopc, rfl, rfl, rfl, rfl⟩ := fields_of_named_hype h
    change w &&& 0xFE88FCFF#32 = 0x05#32 at hm
    have hbit : bitField w = false := getLsbD_of_matches hm (by decide)
    rw [hopc, hbit] at hw
    rwa [encode, Rotation.code_ofCode, Stride.code_ofCode]
  | vote rot ox oy =>
    obtain ⟨hopc, rfl, rfl, rfl⟩ := fields_of_named_vote h
    change w &&& 0xFF88FCFF#32 = 0x07#32 at hm
    have hbit : bitField w = false := getLsbD_of_matches hm (by decide)
    have hs8 : s8Field w = 0#1 := extractLsb'_of_matches hm (by decide)
    rw [hopc, hbit, hs8] at hw
    rwa [encode, Rotation.code_ofCode]
  | _ => exact (BitVec.and_allOnes.symm.trans hm).symm

/-- Settles O2: the word names the command, whose offsets are 3-bit fields, and the bits that are no operand
of it are the fixed bits of its row. -/
theorem encodeOfDecode : Obligations.EncodeOfDecode := by
  intro w i h
  obtain ⟨hn, hm⟩ := decode_eq_ok_iff.mp h
  exact ⟨wellFormed_of_named hn, encode_of_named hn hm⟩

/-! ### Words that name no command -/

/-- Above the opcode, the mask of a row covers the reserved bits and the bits of the fields that its command
does not use. -/
theorem mask_covers_iff {r : Row} (hr : r ∈ opcodeTable) {j : Nat} :
    (r.mask &&& 0xFFFFFF00#32).getLsbD j = true ↔
      j ∈ Spec.reservedBits ++ Spec.unusedFieldBits r.fixed.toNat := by
  have key : ∀ r ∈ opcodeTable, (∀ j < 32, (r.mask &&& 0xFFFFFF00#32).getLsbD j = true ↔
      j ∈ Spec.reservedBits ++ Spec.unusedFieldBits r.fixed.toNat) ∧
      ∀ j ∈ Spec.reservedBits ++ Spec.unusedFieldBits r.fixed.toNat, j < 32 := by decide
  obtain ⟨hbit, hlt⟩ := key r hr
  by_cases hj : j < 32
  · exact hbit j hj
  · exact iff_of_false (by simp [BitVec.getLsbD_of_ge _ _ (not_lt.mp hj)]) fun h => hj (hlt j h)

/-- A row matches the words with its opcode that have no 1 in a reserved bit or an unused field. -/
theorem matches_iff {w : Word} {r : Row} (hr : r ∈ opcodeTable) : w &&& r.mask = r.fixed ↔
    w.toNat % 256 = r.fixed.toNat ∧
      ∀ b ∈ Spec.reservedBits ++ Spec.unusedFieldBits (w.toNat % 256), w.getLsbD b = false := by
  rw [← opcField_toNat]
  constructor
  · intro h
    have hopc := opcField_of_matches hr h
    rw [matches_iff_of_opcField hr hopc, BitVec.and_assoc, and_eq_zero_iff_bits] at h
    exact ⟨hopc, fun b hb => h b ((mask_covers_iff hr).mpr (hopc ▸ hb))⟩
  · rintro ⟨hopc, h⟩
    rw [matches_iff_of_opcField hr hopc, BitVec.and_assoc, and_eq_zero_iff_bits]
    exact fun b hb => h b (hopc ▸ (mask_covers_iff hr).mp hb)

/-- The words that decode are those that are not illegal (30_encoding R88, R89). -/
theorem exists_decode_ok_iff_legal {w : Word} : (∃ i, decode w = .ok i) ↔ ¬ Spec.illegalWord w := by
  rw [exists_decode_ok_iff, Spec.illegalWord]
  simp only [not_or, not_exists, not_and, not_le, Bool.not_eq_true]
  constructor
  · rintro ⟨r, hr, h⟩
    obtain ⟨hopc, hbits⟩ := (matches_iff hr).mp h
    exact ⟨hopc ▸ fixed_lt r hr, hbits⟩
  · rintro ⟨hopc, hbits⟩
    obtain ⟨r, hr, hfixed⟩ := exists_row_of_lt _ hopc
    exact ⟨r, hr, (matches_iff hr).mpr ⟨hfixed.symm, hbits⟩⟩

theorem exists_decode_error_iff_illegal {w : Word} :
    (∃ e, decode w = .error e) ↔ Spec.illegalWord w := by
  rw [exists_decode_error_iff, exists_decode_ok_iff_legal, not_not]

theorem eq_zero_of_decode_nop {w : Word} (h : decode w = .ok .nop) : w = 0#32 :=
  (encodeOfDecode w .nop h).2.symm

end Sys2Proof

namespace Sys2Proof.Machine

/-- A command word that the host writes while idle is accepted, whatever it is (60_exceptions R205). -/
theorem State.hostAccess_write_cmd {s : State} {addr : Word} (w : Word) (haddr : Spec.offsetOf addr = 0x008)
    (hidle : s.status.busy = false) :
    s.hostAccess (.write addr .word w) = (s.accept w).answer .okay s.openLanes := by
  rw [State.hostAccess_write, show busOffset addr = 0x008 from haddr]
  exact State.hostWrite_register w (by omega) (by omega) (.inl hidle)

/-- A running word that names no command completes with IllegalCommand and no other effect (30_encoding R88,
R89). -/
theorem State.runCommand_of_error {s : State} {e : Reject} (h : decode s.cmd = .error e) :
    s.runCommand = .next (Spec.completed s .illegalCommand true false) := by
  rw [State.runCommand, State.fetch, h]
  rfl

/-- STATUS of an accepted word that completed with IllegalCommand: DONE and ERR, and code 5 at bit 8. -/
theorem State.readReg_status_of_illegal {s : State} (h : s.status = Status.accepted) :
    (Spec.completed s .illegalCommand true false).readReg 0x00C = 0x506#32 := by
  change (Spec.completed s .illegalCommand true false).status.word = 0x506#32
  simp only [Spec.completed, h]
  decide

/-- Settles O4: the masks of the table cover the spec's own lists of bits; the bus accepts every word, and one
that does not decode completes with IllegalCommand. -/
theorem illegalWordsComplete : Obligations.IllegalWordsComplete := by
  refine ⟨fun w => exists_decode_error_iff_illegal, fun w => eq_zero_of_decode_nop,
    fun s w addr hill hidle haddr => ?_⟩
  obtain ⟨e, he⟩ := exists_decode_error_iff_illegal.mpr hill
  have hrun := State.runCommand_of_error (s := (s.accept w).answer .okay s.openLanes) he
  exact ⟨_, _, State.hostAccess_write_cmd w haddr hidle, rfl, rfl, hrun, rfl,
    State.readReg_status_of_illegal rfl⟩

end Sys2Proof.Machine

namespace Sys2Proof

/-- Settles O5: a check of fixed words by running the decoder. -/
theorem wordsOfTheSpecDecode : Obligations.WordsOfTheSpecDecode := by
  unfold Obligations.WordsOfTheSpecDecode
  decide

end Sys2Proof
end

section
/-! PROOF. What the binary64 operations give on NaNs, infinities and signed zeros (40_transform R100, R101;
00_scope R10). -/

namespace Sys2Proof.Machine

/-! ### Signs and fields of a packed pattern -/

theorem packSign_toNat (neg : Bool) {b : Nat} (h : b < 2 ^ 63) :
    (packSign neg b).toNat = neg.toNat * 2 ^ 63 + b := by
  cases neg
  · simp [packSign]
    omega
  · simp [packSign]
    omega

theorem packSign_msb (neg : Bool) {b : Nat} (h : b < 2 ^ 63) : (packSign neg b).msb = neg := by
  rw [BitVec.msb_eq_decide, packSign_toNat neg h]
  cases neg with
  | false => simp; omega
  | true => simp

theorem roundMag_le (num den : Nat) : roundMag num den ≤ 9218868437227405312 := Nat.min_le_right _ _

theorem roundUnits_msb (neg : Bool) (num den : Nat) : (roundUnits neg num den).msb = neg :=
  packSign_msb neg ((roundMag_le num den).trans_lt (by norm_num))

theorem infinity_msb (neg : Bool) : (infinity neg).msb = neg := packSign_msb neg (by norm_num)

/-- A magnitude up to that of the infinity is none of a NaN. -/
theorem not_isNaN_packSign (neg : Bool) {b : Nat} (h : b ≤ 9218868437227405312) :
    ¬ Spec.isNaN (packSign neg b) := by
  rintro ⟨he, hf⟩
  rw [Spec.exponent, packSign_toNat neg (by omega)] at he
  rw [Spec.fraction, packSign_toNat neg (by omega)] at hf
  cases neg <;> simp at he hf <;> omega

theorem not_isNaN_roundUnits (neg : Bool) (num den : Nat) : ¬ Spec.isNaN (roundUnits neg num den) :=
  not_isNaN_packSign neg (roundMag_le num den)

theorem isInf_infinity (neg : Bool) : Spec.isInf (infinity neg) := by
  unfold Spec.isInf Spec.exponent Spec.fraction
  cases neg <;> decide

theorem not_isNaN_infinity (neg : Bool) : ¬ Spec.isNaN (infinity neg) := fun h => h.2 (isInf_infinity neg).2

theorem isNaN_canonicalNaN : Spec.isNaN canonicalNaN := by
  unfold Spec.isNaN Spec.exponent Spec.fraction
  decide

theorem isZero_packSign_zero (neg : Bool) : Spec.isZero (packSign neg 0) := by
  unfold Spec.isZero Spec.exponent Spec.fraction
  cases neg <;> decide

/-- An infinity is the pattern of its sign. -/
theorem infinity_of_isInf {x : F64} (h : Spec.isInf x) : infinity x.msb = x :=
  isInf_ext (isInf_infinity _) h (infinity_msb _)

theorem isInf_of_unpack {x : F64} {neg : Bool} (h : unpack x = .inf neg) : Spec.isInf x := by
  by_cases hn : Spec.isNaN x
  · rw [unpack_of_isNaN hn] at h
    cases h
  · refine (isInf_or_isFinite hn).resolve_right fun hf => ?_
    obtain ⟨m, hm, -⟩ := unpack_of_isFinite hf
    rw [hm] at h
    cases h

/-! ### Negation -/

theorem exponent_fneg (x : F64) : Spec.exponent (fneg x) = Spec.exponent x := by
  rw [← expField_eq_exponent, expField_fneg, expField_eq_exponent]

theorem fraction_fneg (x : F64) : Spec.fraction (fneg x) = Spec.fraction x := by
  rw [← fracField_eq_fraction, fracField_fneg, fracField_eq_fraction]

theorem isNaN_fneg {x : F64} : Spec.isNaN (fneg x) ↔ Spec.isNaN x := by
  rw [Spec.isNaN, Spec.isNaN, exponent_fneg, fraction_fneg]

theorem isInf_fneg {x : F64} : Spec.isInf (fneg x) ↔ Spec.isInf x := by
  rw [Spec.isInf, Spec.isInf, exponent_fneg, fraction_fneg]

theorem isFinite_fneg {x : F64} : Spec.isFinite (fneg x) ↔ Spec.isFinite x := by
  rw [Spec.isFinite, Spec.isFinite, exponent_fneg]

theorem units_fneg (x : F64) : Spec.units (fneg x) = -Spec.units x := by
  rw [Spec.units, Spec.units, exponent_fneg, fraction_fneg, fneg_msb, ← neg_mul]
  cases x.msb <;> rfl

/-! ### Signed magnitudes -/

theorem signedMag_mul (a b : Bool) (m n : Nat) :
    signedMag (a ^^ b) (m * n) = signedMag a m * signedMag b n := by
  cases a <;> cases b <;> simp [signedMag]

theorem signedMag_eq_zero_iff {neg : Bool} {m : Nat} : signedMag neg m = 0 ↔ m = 0 := by
  cases neg <;> simp [signedMag]

theorem units_eq_zero_iff {x : F64} : Spec.units x = 0 ↔ Spec.isZero x := by
  unfold Spec.units Spec.isZero
  by_cases he : Spec.exponent x = 0
  · cases x.msb <;> simp [he]
  · have hp : (2 ^ 52 + Spec.fraction x : Int) * 2 ^ (Spec.exponent x - 1) ≠ 0 :=
      mul_ne_zero (by omega) (by positivity)
    cases x.msb <;> simp only [he, if_false, if_true, Bool.false_eq_true, false_and, iff_false, one_mul,
      neg_mul, neg_eq_zero] <;> exact hp

/-- A finite pattern with its sign and magnitude, which is 0 for the zeros alone. -/
theorem unpack_finite {x : F64} (h : Spec.isFinite x) : ∃ m, unpack x = .fin x.msb m ∧
    Spec.units x = signedMag x.msb m ∧ (m = 0 ↔ Spec.isZero x) := by
  obtain ⟨m, hm, hu⟩ := unpack_of_isFinite h
  exact ⟨m, hm, hu.symm, by rw [← units_eq_zero_iff, ← hu, signedMag_eq_zero_iff]⟩

/-! ### NaN results -/

theorem addVal_nan_right (a : FVal) : addVal a .nan = canonicalNaN := by cases a <;> rfl

theorem mulVal_nan_right (a : FVal) : mulVal a .nan = canonicalNaN := by cases a <;> rfl

theorem divVal_nan_right (a : FVal) : divVal a .nan = canonicalNaN := by cases a <;> rfl

/-- A sum is the canonical NaN or no NaN. -/
theorem addVal_canonical (a b : FVal) : addVal a b = canonicalNaN ∨ ¬ Spec.isNaN (addVal a b) := by
  unfold addVal
  split
  case h_4 => split; exacts [.inr (not_isNaN_infinity _), .inl rfl]
  case h_5 => exact .inr (not_isNaN_infinity _)
  case h_6 => exact .inr (not_isNaN_infinity _)
  case h_7 =>
    split_ifs
    · exact .inr (not_isNaN_roundUnits _ _ _)
    · exact .inr (not_isNaN_roundUnits _ _ _)
    · exact .inr (not_isNaN_roundUnits _ _ _)
    · exact .inr (not_isNaN_packSign false (Nat.zero_le _))
  all_goals exact .inl rfl

/-- A product is the canonical NaN or no NaN. -/
theorem mulVal_canonical (a b : FVal) : mulVal a b = canonicalNaN ∨ ¬ Spec.isNaN (mulVal a b) := by
  unfold mulVal
  split
  case h_4 => exact .inr (not_isNaN_infinity _)
  case h_5 => split; exacts [.inl rfl, .inr (not_isNaN_infinity _)]
  case h_6 => split; exacts [.inl rfl, .inr (not_isNaN_infinity _)]
  case h_7 => exact .inr (not_isNaN_roundUnits _ _ _)
  all_goals exact .inl rfl

/-- A quotient is the canonical NaN or no NaN. -/
theorem divVal_canonical (a b : FVal) : divVal a b = canonicalNaN ∨ ¬ Spec.isNaN (divVal a b) := by
  unfold divVal
  split
  case h_5 => exact .inr (not_isNaN_infinity _)
  case h_6 => exact .inr (not_isNaN_packSign _ (Nat.zero_le _))
  case h_7 =>
    split_ifs
    · exact .inl rfl
    · exact .inr (not_isNaN_infinity _)
    · exact .inr (not_isNaN_roundUnits _ _ _)
  all_goals exact .inl rfl

/-- An operation on data that gives the canonical NaN or no NaN, and the canonical NaN on a NaN operand. -/
theorem nan_of_canonical {op : FVal → FVal → F64}
    (hc : ∀ a b, op a b = canonicalNaN ∨ ¬ Spec.isNaN (op a b))
    (hl : ∀ b, op .nan b = canonicalNaN) (hr : ∀ a, op a .nan = canonicalNaN) (x y : F64) :
    (Spec.isNaN (op (unpack x) (unpack y)) → op (unpack x) (unpack y) = canonicalNaN) ∧
    (Spec.isNaN x ∨ Spec.isNaN y → Spec.isNaN (op (unpack x) (unpack y))) := by
  refine ⟨fun h => (hc _ _).resolve_right (not_not_intro h), ?_⟩
  rintro (h | h) <;> rw [unpack_of_isNaN h]
  · rw [hl]; exact isNaN_canonicalNaN
  · rw [hr]; exact isNaN_canonicalNaN

theorem fadd_nan (x y : F64) : (Spec.isNaN (fadd x y) → fadd x y = canonicalNaN) ∧
    (Spec.isNaN x ∨ Spec.isNaN y → Spec.isNaN (fadd x y)) :=
  nan_of_canonical addVal_canonical (fun _ => rfl) addVal_nan_right x y

theorem fsub_nan (x y : F64) : (Spec.isNaN (fsub x y) → fsub x y = canonicalNaN) ∧
    (Spec.isNaN x ∨ Spec.isNaN y → Spec.isNaN (fsub x y)) := by
  rw [fsub, ← isNaN_fneg (x := y)]
  exact fadd_nan x (fneg y)

theorem fmul_nan (x y : F64) : (Spec.isNaN (fmul x y) → fmul x y = canonicalNaN) ∧
    (Spec.isNaN x ∨ Spec.isNaN y → Spec.isNaN (fmul x y)) :=
  nan_of_canonical mulVal_canonical (fun _ => rfl) mulVal_nan_right x y

theorem fdiv_nan (x y : F64) : (Spec.isNaN (fdiv x y) → fdiv x y = canonicalNaN) ∧
    (Spec.isNaN x ∨ Spec.isNaN y → Spec.isNaN (fdiv x y)) :=
  nan_of_canonical divVal_canonical (fun _ => rfl) divVal_nan_right x y

/-! ### Two infinities -/

theorem fadd_isInf_isInf {x y : F64} (hx : Spec.isInf x) (hy : Spec.isInf y) :
    fadd x y = if x.msb = y.msb then x else canonicalNaN := by
  rw [fadd, unpack_of_isInf hx, unpack_of_isInf hy, addVal, infinity_of_isInf hx]

theorem fsub_isInf_isInf {x y : F64} (hx : Spec.isInf x) (hy : Spec.isInf y) :
    fsub x y = if x.msb = y.msb then canonicalNaN else x := by
  rw [fsub, fadd_isInf_isInf hx (isInf_fneg.mpr hy), fneg_msb]
  cases x.msb <;> cases y.msb <;> rfl

theorem fmul_isInf_isInf {x y : F64} (hx : Spec.isInf x) (hy : Spec.isInf y) :
    fmul x y = infinity (x.msb ^^ y.msb) := by
  rw [fmul, unpack_of_isInf hx, unpack_of_isInf hy, mulVal]

theorem fdiv_isInf_isInf {x y : F64} (hx : Spec.isInf x) (hy : Spec.isInf y) : fdiv x y = canonicalNaN := by
  rw [fdiv, unpack_of_isInf hx, unpack_of_isInf hy, divVal]

theorem operations_isInf_isInf {x y : F64} (hx : Spec.isInf x) (hy : Spec.isInf y) :
    (x.msb = y.msb → fsub x y = canonicalNaN) ∧ (x.msb ≠ y.msb → fsub x y = x) ∧
    (x.msb = y.msb → fadd x y = x) ∧ (x.msb ≠ y.msb → Spec.isNaN (fadd x y)) ∧
    Spec.isInf (fmul x y) ∧ (fmul x y).msb = (x.msb ^^ y.msb) ∧ Spec.isNaN (fdiv x y) := by
  rw [fsub_isInf_isInf hx hy, fadd_isInf_isInf hx hy, fmul_isInf_isInf hx hy, fdiv_isInf_isInf hx hy]
  refine ⟨fun h => if_pos h, fun h => if_neg h, fun h => if_pos h, fun h => ?_, isInf_infinity _,
    infinity_msb _, isNaN_canonicalNaN⟩
  rw [if_neg h]
  exact isNaN_canonicalNaN

/-! ### An infinity and a finite number -/

theorem fadd_isInf_isFinite {x y : F64} (hx : Spec.isInf x) (hy : Spec.isFinite y) :
    fadd x y = x ∧ fadd y x = x := by
  obtain ⟨m, hm, -, -⟩ := unpack_finite hy
  rw [fadd, fadd, unpack_of_isInf hx, hm, addVal, addVal, infinity_of_isInf hx]
  exact ⟨rfl, rfl⟩

theorem fsub_isInf_isFinite {x y : F64} (hx : Spec.isInf x) (hy : Spec.isFinite y) :
    fsub x y = x ∧ fsub y x = fneg x :=
  ⟨(fadd_isInf_isFinite hx (isFinite_fneg.mpr hy)).1, (fadd_isInf_isFinite (isInf_fneg.mpr hx) hy).2⟩

/-- An infinity times a zero is a NaN, times any other finite number an infinity, in either order. -/
theorem fmul_isInf_isFinite {x y : F64} (hx : Spec.isInf x) (hy : Spec.isFinite y) :
    (Spec.isZero y → fmul x y = canonicalNaN ∧ fmul y x = canonicalNaN) ∧
    (¬ Spec.isZero y → fmul x y = infinity (x.msb ^^ y.msb) ∧ fmul y x = infinity (x.msb ^^ y.msb)) := by
  obtain ⟨m, hm, -, hz⟩ := unpack_finite hy
  rw [fmul, fmul, unpack_of_isInf hx, hm, mulVal, mulVal, ← hz, Bool.xor_comm y.msb]
  exact ⟨fun h => ⟨if_pos h, if_pos h⟩, fun h => ⟨if_neg h, if_neg h⟩⟩

theorem fdiv_isInf_isFinite {x y : F64} (hx : Spec.isInf x) (hy : Spec.isFinite y) :
    fdiv x y = infinity (x.msb ^^ y.msb) ∧ fdiv y x = packSign (y.msb ^^ x.msb) 0 := by
  obtain ⟨m, hm, -, -⟩ := unpack_finite hy
  rw [fdiv, fdiv, unpack_of_isInf hx, hm, divVal, divVal]
  exact ⟨rfl, rfl⟩

theorem operations_isInf_isFinite {x y : F64} (hx : Spec.isInf x) (hy : Spec.isFinite y) :
    fadd x y = x ∧ fadd y x = x ∧ fsub x y = x ∧ fsub y x = fneg x ∧
    (Spec.isZero y → Spec.isNaN (fmul x y) ∧ Spec.isNaN (fmul y x)) ∧
    (¬ Spec.isZero y → Spec.isInf (fmul x y) ∧ (fmul x y).msb = (x.msb ^^ y.msb) ∧
      fmul y x = fmul x y) ∧
    Spec.isInf (fdiv x y) ∧ (fdiv x y).msb = (x.msb ^^ y.msb) ∧
    Spec.isZero (fdiv y x) ∧ (fdiv y x).msb = (x.msb ^^ y.msb) := by
  obtain ⟨hadd, hadd'⟩ := fadd_isInf_isFinite hx hy
  obtain ⟨hsub, hsub'⟩ := fsub_isInf_isFinite hx hy
  obtain ⟨hzero, hnonzero⟩ := fmul_isInf_isFinite hx hy
  obtain ⟨hdiv, hdiv'⟩ := fdiv_isInf_isFinite hx hy
  refine ⟨hadd, hadd', hsub, hsub', fun h => ?_, fun h => ?_, ?_⟩
  · obtain ⟨h1, h2⟩ := hzero h
    rw [h1, h2]
    exact ⟨isNaN_canonicalNaN, isNaN_canonicalNaN⟩
  · obtain ⟨h1, h2⟩ := hnonzero h
    rw [h1, h2]
    exact ⟨isInf_infinity _, infinity_msb _, rfl⟩
  · rw [hdiv, hdiv', Bool.xor_comm y.msb]
    exact ⟨isInf_infinity _, infinity_msb _, isZero_packSign_zero _, packSign_msb _ (Nat.two_pow_pos 63)⟩

/-! ### Two finite numbers -/

theorem fmul_isFinite_msb {x y : F64} (hx : Spec.isFinite x) (hy : Spec.isFinite y) :
    (fmul x y).msb = (x.msb ^^ y.msb) := by
  obtain ⟨m, hm, -, -⟩ := unpack_finite hx
  obtain ⟨n, hn, -, -⟩ := unpack_finite hy
  rw [fmul, hm, hn, mulVal_fin, roundUnits_msb]

theorem roundUnits_zero (neg : Bool) : roundUnits neg 0 1 = packSign neg 0 := by
  cases neg <;> decide

/-- An exact zero sum is −0.0 for two negative operands, which then are zeros, and else +0.0. -/
theorem fadd_eq_zero {x y : F64} (hx : Spec.isFinite x) (hy : Spec.isFinite y)
    (h : Spec.units x + Spec.units y = 0) : fadd x y = packSign (x.msb && y.msb) 0 := by
  obtain ⟨m, hm, hmu, -⟩ := unpack_finite hx
  obtain ⟨n, hn, hnu, -⟩ := unpack_finite hy
  rw [hmu, hnu] at h
  rw [fadd, hm, hn, addVal]
  generalize x.msb = a at *
  generalize y.msb = b at *
  by_cases hab : a = b
  · subst hab
    obtain ⟨rfl, rfl⟩ : m = 0 ∧ n = 0 := by
      cases a <;> simp only [signedMag, if_true, Bool.false_eq_true, if_false] at h <;> omega
    rw [if_pos rfl, roundUnits_zero, Bool.and_self]
  · obtain rfl : b = !a := (Bool.not_eq.mpr hab).symm
    obtain rfl : m = n := by
      cases a <;> simp only [signedMag, Bool.not_true, Bool.not_false, if_true, Bool.false_eq_true, if_false]
        at h <;> omega
    rw [if_neg hab, if_neg (lt_irrefl m), if_neg (lt_irrefl m), Bool.and_not_self]
    rfl

theorem fsub_eq_zero {x y : F64} (hx : Spec.isFinite x) (hy : Spec.isFinite y)
    (h : Spec.units x - Spec.units y = 0) : fsub x y = packSign (x.msb && !y.msb) 0 := by
  rw [fsub, fadd_eq_zero hx (isFinite_fneg.mpr hy) (by rw [units_fneg]; omega), fneg_msb]

/-- A quotient by a zero is a NaN for a zero and else an infinity. -/
theorem fdiv_isZero {x y : F64} (hx : Spec.isFinite x) (hy : Spec.isFinite y) (h : Spec.isZero y) :
    (Spec.isZero x → fdiv x y = canonicalNaN) ∧
      (¬ Spec.isZero x → fdiv x y = infinity (x.msb ^^ y.msb)) := by
  obtain ⟨m, hm, -, hmz⟩ := unpack_finite hx
  obtain ⟨n, hn, -, hnz⟩ := unpack_finite hy
  rw [fdiv, hm, hn, divVal, if_pos (hnz.mpr h), ← hmz]
  exact ⟨fun h => if_pos h, fun h => if_neg h⟩

theorem fdiv_isFinite_msb {x y : F64} (hx : Spec.isFinite x) (hy : Spec.isFinite y) (h : ¬ Spec.isZero y) :
    (fdiv x y).msb = (x.msb ^^ y.msb) := by
  obtain ⟨m, hm, -, -⟩ := unpack_finite hx
  obtain ⟨n, hn, -, hnz⟩ := unpack_finite hy
  rw [fdiv, hm, hn, divVal_fin (mt hnz.mp h), roundUnits_msb]

theorem operations_isFinite_isFinite {x y : F64} (hx : Spec.isFinite x) (hy : Spec.isFinite y) :
    (fmul x y).msb = (x.msb ^^ y.msb) ∧
    (Spec.units x + Spec.units y = 0 → Spec.isZero (fadd x y) ∧ (fadd x y).msb = (x.msb && y.msb)) ∧
    (Spec.units x - Spec.units y = 0 → Spec.isZero (fsub x y) ∧ (fsub x y).msb = (x.msb && !y.msb)) ∧
    (¬ Spec.isZero y → (fdiv x y).msb = (x.msb ^^ y.msb)) ∧
    (Spec.isZero y → (Spec.isZero x → Spec.isNaN (fdiv x y)) ∧
      (¬ Spec.isZero x → Spec.isInf (fdiv x y) ∧ (fdiv x y).msb = (x.msb ^^ y.msb))) := by
  refine ⟨fmul_isFinite_msb hx hy, fun h => ?_, fun h => ?_, fdiv_isFinite_msb hx hy, fun h => ?_⟩
  · rw [fadd_eq_zero hx hy h]
    exact ⟨isZero_packSign_zero _, packSign_msb _ (Nat.two_pow_pos 63)⟩
  · rw [fsub_eq_zero hx hy h]
    exact ⟨isZero_packSign_zero _, packSign_msb _ (Nat.two_pow_pos 63)⟩
  · obtain ⟨hzero, hnonzero⟩ := fdiv_isZero hx hy h
    refine ⟨fun hx0 => ?_, fun hx0 => ?_⟩
    · rw [hzero hx0]
      exact isNaN_canonicalNaN
    · rw [hnonzero hx0]
      exact ⟨isInf_infinity _, infinity_msb _⟩

/-- Settles O30: each class of operands by the datum that a pattern of it stands for. -/
theorem specialValuesFollowIeee : Obligations.SpecialValuesFollowIeee := by
  refine ⟨fun x y => ?_, fun _ _ => rfl, fun _ _ => operations_isInf_isInf,
    fun _ _ => operations_isInf_isFinite, fun _ _ => operations_isFinite_isFinite⟩
  simp only [List.forall_mem_cons, List.not_mem_nil, false_imp_iff, implies_true, and_true]
  exact ⟨fadd_nan x y, fsub_nan x y, fmul_nan x y, fdiv_nan x y⟩

end Sys2Proof.Machine
end

section
/-! PROOF. Every operation rounds its exact value to the nearest binary64 number, ties to even
(40_transform R100; 00_scope R10). -/

namespace Sys2Proof.Machine

/-! ### Correct rounding -/

/-- The significand at its place, which the rounding of `num / den` units leaves. -/
def roundedUnits (num den : Nat) : Nat := divRne num (den <<< dropBits num den) * 2 ^ dropBits num den

/-- Below the point halfway beyond the largest finite number a rounded magnitude is finite, and from there on
the infinity. -/
theorem unpack_roundUnits_eq (neg : Bool) {num den j : Nat} (hj : j = 2044) (hd : 0 < den)
    (hq : (num / den) >>> 8192 = 0) : unpack (roundUnits neg num den) =
      if num < den * ((2 ^ 54 - 1) * 2 ^ j) then .fin neg (roundedUnits num den) else .inf neg := by
  rw [unpack_roundUnits neg hd hq]
  exact if_congr (roundMag_finite_iff hj hd hq) rfl rfl

/-- A finite result has the parity of its significand. -/
theorem roundUnits_toNat_even {neg : Bool} {num den : Nat}
    (h : divRne num (den <<< dropBits num den) % 2 = 0)
    (hfin : dropBits num den * 2 ^ 52 + divRne num (den <<< dropBits num den) < 9218868437227405312) :
    (roundUnits neg num den).toNat % 2 = 0 := by
  rw [roundUnits, packSign_toNat neg ((roundMag_le num den).trans_lt (by norm_num)), roundMag,
    Nat.shiftLeft_eq, Nat.min_eq_left hfin.le]
  omega

/-- Every finite number is a signed magnitude of at most 53 significant bits. -/
theorem units_significand {w : F64} (h : Spec.isFinite w) (neg : Bool) :
    ∃ a b : Nat, a < 2 ^ 53 ∧ (signedMag neg 1 * Spec.units w).natAbs = a * 2 ^ b := by
  obtain ⟨m, hm, hu, -⟩ := unpack_finite h
  obtain ⟨a, b, ha, -, hab⟩ := unpack_significand hm
  refine ⟨a, b, ha, ?_⟩
  rw [hu, Int.natAbs_mul, ← hab]
  cases neg <;> cases w.msb <;> simp [signedMag]

/-- A distance to a signed quotient, in units of the divisor and with the sign taken off. -/
theorem abs_sub_mul_eq {r : Rat} {neg : Bool} {num den : Nat} (hr : r * den = signedMag neg num) (m : Int) :
    |(m : Rat) - r| * den = |signedMag neg 1 * m * den - num| := by
  have habs : |(m : Rat) - r| * den = |(m - r) * den| := by rw [abs_mul, Nat.abs_cast]
  rw [habs, sub_mul, hr]
  cases neg
  · simp [signedMag]
  · simp only [signedMag, if_true]
    rw [← abs_neg]
    push_cast
    ring_nf

theorem signedMag_mul_signedMag (neg : Bool) (m : Nat) : signedMag neg 1 * signedMag neg m = m := by
  cases neg <;> simp [signedMag]

/-- A rounded magnitude is nearest to the exact value, and of two nearest ones the even one. -/
theorem roundUnits_nearest {r : Rat} {neg : Bool} {num den : Nat} (hd : 0 < den)
    (hq : (num / den) >>> 8192 = 0) (hr : r * den = signedMag neg num)
    (hz : Spec.units (roundUnits neg num den) = signedMag neg (roundedUnits num den))
    {w : F64} (hw : Spec.isFinite w) :
    |(Spec.units (roundUnits neg num den) : Rat) - r| ≤ |(Spec.units w : Rat) - r| ∧
      (Spec.units w ≠ Spec.units (roundUnits neg num den) →
        |(Spec.units w : Rat) - r| = |(Spec.units (roundUnits neg num den) : Rat) - r| →
        divRne num (den <<< dropBits num den) % 2 = 0) := by
  have hd' : (0 : Rat) < den := by exact_mod_cast hd
  obtain ⟨hle, htie⟩ := significand_nearest hd hq (units_significand hw neg)
  have hn : (divRne num (den <<< dropBits num den) : Int) * 2 ^ dropBits num den = roundedUnits num den := by
    rw [roundedUnits]
    push_cast
    rfl
  rw [hn, ← signedMag_mul_signedMag neg, ← hz] at hle htie
  have hw' := abs_sub_mul_eq hr (Spec.units w)
  have hz' := abs_sub_mul_eq hr (Spec.units (roundUnits neg num den))
  refine ⟨le_of_mul_le_mul_right ?_ hd', fun hne he => htie (fun h => hne ?_) ?_⟩
  · rw [hw', hz']
    exact_mod_cast hle
  · cases neg <;> simpa [signedMag] using h
  · rw [he, hz'] at hw'
    exact_mod_cast hw'.symm

/-- `|r|` is below a bound when `num / den` is. -/
theorem abs_lt_iff_of_mul_eq {r : Rat} {neg : Bool} {num den : Nat} (hd : 0 < den)
    (hr : r * den = signedMag neg num) (B : Nat) : |r| < B ↔ num < den * B := by
  have hd' : (0 : Rat) < den := by exact_mod_cast hd
  have habs : |r| * den = num := by
    have h := abs_sub_mul_eq hr 0
    simpa using h
  rw [← mul_lt_mul_iff_of_pos_right hd', habs, mul_comm (B : Rat)]
  exact_mod_cast Iff.rfl

theorem sign_of_mul_eq {r : Rat} {neg : Bool} {num den : Nat} (hd : 0 < den)
    (hr : r * den = signedMag neg num) : (0 < r → neg = false) ∧ (r < 0 → neg = true) := by
  have hd' : (0 : Rat) < den := by exact_mod_cast hd
  have hnum : (0 : Rat) ≤ num := Nat.cast_nonneg num
  cases neg
  · refine ⟨fun _ => rfl, fun h => ?_⟩
    have := mul_neg_of_neg_of_pos h hd'
    simp only [signedMag, Bool.false_eq_true, if_false, Int.cast_natCast] at hr
    linarith
  · refine ⟨fun h => ?_, fun _ => rfl⟩
    have := mul_pos h hd'
    simp only [signedMag, if_true, Int.cast_neg, Int.cast_natCast] at hr
    linarith

theorem overflow_bound {j : Nat} : (((2 ^ 54 - 1) * 2 ^ j : Nat) : Rat) = 2 ^ (54 + j) - 2 ^ j := by
  push_cast
  ring

/-- The rounding of a magnitude is the correctly rounded number of its signed value. -/
theorem rounded_roundUnits {r : Rat} {neg : Bool} {num den : Nat} (hd : 0 < den)
    (hq : (num / den) >>> 8192 = 0) (hr : r * den = signedMag neg num) :
    Spec.Rounded r (roundUnits neg num den) := by
  obtain ⟨hpos, hneg⟩ := sign_of_mul_eq hd hr
  obtain ⟨j, hj⟩ : ∃ j, j = 2044 := ⟨_, rfl⟩
  have hB : (2 : Rat) ^ 2098 - 2 ^ 2044 = (((2 ^ 54 - 1) * 2 ^ j : Nat) : Rat) := by
    rw [overflow_bound, hj]
  have hu := unpack_roundUnits_eq neg hj hd hq
  have hfin := roundMag_finite_iff hj hd hq
  rw [Spec.Rounded, roundUnits_msb, hB, ← not_lt, abs_lt_iff_of_mul_eq hd hr]
  refine ⟨fun h => ?_, fun h => ?_, hpos, hneg⟩
  · rw [if_pos h] at hu
    refine ⟨isFinite_of_unpack hu, fun w hw => ?_⟩
    obtain ⟨hle, htie⟩ := roundUnits_nearest hd hq hr (units_of_unpack hu) hw
    exact ⟨hle, fun hne he => roundUnits_toNat_even (htie hne he) (hfin.mpr h)⟩
  · rw [if_neg h] at hu
    exact isInf_of_unpack hu

/-! ### The four operations -/

/-- Every finite magnitude is below one power of two, far below 2^8192. -/
theorem exists_magnitude_bound : ∃ K, K ≤ 4095 ∧
    ∀ {x : F64} {neg : Bool} {m : Nat}, unpack x = .fin neg m → m < 2 ^ K := by
  obtain ⟨K, hK⟩ : ∃ K, K = 2101 := ⟨_, rfl⟩
  exact ⟨K, by omega, fun h => (magnitude_lt h hK.ge).trans_eq (Nat.one_shiftLeft K)⟩

theorem quotient_small {num den k : Nat} (h : num < 2 ^ k) (hk : k ≤ 8192) : (num / den) >>> 8192 = 0 :=
  shiftRight_eq_zero_of_lt ((Nat.div_le_self num den).trans_lt h) hk

theorem signedMag_add (neg : Bool) (m n : Nat) :
    signedMag neg (m + n) = signedMag neg m + signedMag neg n := by
  cases neg
  · exact Nat.cast_add m n
  · exact (congrArg Neg.neg (Nat.cast_add m n)).trans (neg_add _ _)

theorem signedMag_sub (neg : Bool) {m n : Nat} (h : n ≤ m) :
    signedMag neg (m - n) = signedMag neg m + signedMag (!neg) n := by
  cases neg <;> simp [signedMag] <;> omega

theorem signedMag_mul_two_pow (neg : Bool) (m k : Nat) :
    signedMag neg (m * 2 ^ k) = signedMag neg m * 2 ^ k := by
  cases neg <;> simp [signedMag]

/-- The sum of two finite numbers is the rounding of the exact signed sum. -/
theorem addVal_fin (a b : Bool) (m n : Nat) : ∃ neg num,
    addVal (.fin a m) (.fin b n) = roundUnits neg num 1 ∧ num ≤ m + n ∧
      signedMag neg num = signedMag a m + signedMag b n := by
  rw [addVal]
  split_ifs with hab hnm hmn
  · exact ⟨a, m + n, rfl, le_refl _, hab ▸ signedMag_add a m n⟩
  all_goals obtain rfl : b = !a := (Bool.not_eq.mpr hab).symm
  · exact ⟨a, m - n, rfl, by omega, signedMag_sub a hnm.le⟩
  · refine ⟨!a, n - m, rfl, by omega, ?_⟩
    rw [signedMag_sub _ hmn.le, Bool.not_not, add_comm]
  · obtain rfl : m = n := by omega
    refine ⟨false, 0, (roundUnits_zero false).symm, Nat.zero_le _, ?_⟩
    rw [← signedMag_sub a (le_refl m), Nat.sub_self, signedMag_eq_zero_iff.mpr rfl,
      signedMag_eq_zero_iff.mpr rfl]

theorem rounded_fadd {x y : F64} (hx : Spec.isFinite x) (hy : Spec.isFinite y) :
    Spec.Rounded (Spec.units x + Spec.units y) (fadd x y) := by
  obtain ⟨m, hm, hmu, -⟩ := unpack_finite hx
  obtain ⟨n, hn, hnu, -⟩ := unpack_finite hy
  obtain ⟨neg, num, he, hle, hs⟩ := addVal_fin x.msb y.msb m n
  obtain ⟨K, hK, hlt⟩ := exists_magnitude_bound
  have hnum : num < 2 ^ (K + 1) := by
    have hmK := hlt hm
    have hnK := hlt hn
    rw [Nat.pow_succ]
    omega
  rw [fadd, hm, hn, he]
  refine rounded_roundUnits Nat.one_pos (quotient_small hnum (by omega)) ?_
  rw [hs, ← hmu, ← hnu, Nat.cast_one, mul_one, Int.cast_add]

theorem rounded_fsub {x y : F64} (hx : Spec.isFinite x) (hy : Spec.isFinite y) :
    Spec.Rounded (Spec.units x - Spec.units y) (fsub x y) := by
  have h := rounded_fadd hx (isFinite_fneg.mpr hy)
  rwa [units_fneg, Int.cast_neg, ← sub_eq_add_neg] at h

theorem rounded_fmul {x y : F64} {k : Nat} (hk : k = 1074) (hx : Spec.isFinite x) (hy : Spec.isFinite y) :
    Spec.Rounded (Spec.units x * Spec.units y / 2 ^ k) (fmul x y) := by
  obtain ⟨m, hm, hmu, -⟩ := unpack_finite hx
  obtain ⟨n, hn, hnu, -⟩ := unpack_finite hy
  obtain ⟨K, hK, hlt⟩ := exists_magnitude_bound
  have hnum : m * n < 2 ^ (K + K) := by
    rw [Nat.pow_add]
    exact Nat.mul_lt_mul'' (hlt hm) (hlt hn)
  rw [fmul, hm, hn, mulVal_fin, ← hk]
  refine rounded_roundUnits (one_shiftLeft_pos k) (quotient_small hnum (by omega)) ?_
  rw [signedMag_mul, hmu, hnu, Nat.one_shiftLeft]
  push_cast
  exact div_mul_cancel₀ _ (pow_ne_zero k two_ne_zero)

theorem rounded_fdiv {x y : F64} {k : Nat} (hk : k = 1074) (hx : Spec.isFinite x) (hy : Spec.isFinite y)
    (h : Spec.units y ≠ 0) : Spec.Rounded (Spec.units x * 2 ^ k / Spec.units y) (fdiv x y) := by
  obtain ⟨m, hm, hmu, -⟩ := unpack_finite hx
  obtain ⟨n, hn, hnu, -⟩ := unpack_finite hy
  obtain ⟨K, hK, hlt⟩ := exists_magnitude_bound
  have hnum : m <<< k < 2 ^ (K + k) := by
    rw [Nat.pow_add, Nat.shiftLeft_eq]
    exact Nat.mul_lt_mul_of_pos_right (hlt hm) (Nat.two_pow_pos k)
  have hn0 : n ≠ 0 := fun h0 => h (by rw [hnu, h0, signedMag_eq_zero_iff])
  rw [fdiv, hm, hn, divVal_fin hn0, ← hk]
  have hy0 : (Spec.units y : Rat) ≠ 0 := by exact_mod_cast h
  have hyn : (n : Rat) = Spec.units y * signedMag y.msb 1 := by
    rw [hnu, mul_comm]
    exact_mod_cast (signedMag_mul_signedMag y.msb n).symm
  have hs : signedMag (x.msb ^^ y.msb) (m <<< k) = Spec.units x * 2 ^ k * signedMag y.msb 1 := by
    rw [hmu, ← Nat.mul_one (m <<< k), signedMag_mul, Nat.shiftLeft_eq, signedMag_mul_two_pow]
  refine rounded_roundUnits (Nat.pos_of_ne_zero hn0) (quotient_small hnum (by omega)) ?_
  rw [hs, hyn]
  push_cast
  field_simp

/-- Settles O29: each operation rounds the exact value once, as a signed quotient of two numbers of units. -/
theorem arithmeticIsCorrectlyRounded : Obligations.ArithmeticIsCorrectlyRounded := fun _ _ hx hy =>
  ⟨rounded_fadd hx hy, rounded_fsub hx hy, rounded_fmul rfl hx hy, rounded_fdiv rfl hx hy⟩

end Sys2Proof.Machine
end

section
/-! PROOF. The inner product, the basis ROM and the commands of the Transform Core (40_transform R102 to R108). -/

namespace Sys2Proof.Machine

/-! ### The inner product and the basis -/

theorem dot8_eq (a b : Nat → F64) : dot8 a b = Spec.dot8 a b := rfl

/-- Settles O34: the fold over the eight places, unrolled. -/
theorem dot8IsSequential : Obligations.Dot8IsSequential := dot8_eq

/-- The 64 entries of the ROM are at their places (40_transform R103). -/
theorem basis_eq_basisEntry : ∀ u, u < 8 → ∀ k, k < 8 → basis u k = Spec.basisEntry u k := by decide

/-- Counted from the other end, a row is itself or its negation (42_search R151). -/
theorem basis_reverse : ∀ u, u < 8 → ∀ k, k < 8 →
    basis u (7 - k) = if u % 2 = 0 then basis u k else fneg (basis u k) := by decide

theorem fabs_basis_mem : ∀ u, u < 8 → ∀ k, k < 8 →
    fabs (basis u k) ∈ [0x3FB8F8B83C69A60B#64, 0x3FC87DE2A6AEA963#64, 0x3FD1C73B39AE68C8#64,
      0x3FD6A09E667F3BCD#64, 0x3FDA9B66290EA1A3#64, 0x3FDD906BCF328D46#64, 0x3FDF6297CFF75CB0#64] := by decide

/-- Settles O35: a check of the 64 entries of the table. -/
theorem basisIsSymmetric : Obligations.BasisIsSymmetric := fun u k hu hk =>
  ⟨basis_eq_basisEntry u hu k hk, basis_reverse u hu k hk, fabs_basis_mem u hu k hk⟩

/-- Settles O36: the one effect of NOP is its completion. -/
theorem nopOnlyCompletes : Obligations.NopOnlyCompletes := fun _ => rfl

/-- An inner product reads the places 0 to 7 of its operands. -/
theorem dot8_eq_of_agree {a a' b b' : Nat → F64} (ha : ∀ k, k < 8 → a k = a' k)
    (hb : ∀ k, k < 8 → b k = b' k) : dot8 a b = Spec.dot8 a' b' := by
  simp [dot8_eq, Spec.dot8, ha, hb]

/-! ### The forward transform -/

theorem entry_fdctRows {xs : List F64} {x : Nat → F64} (h : ∀ k, k < 64 → entry xs k = x k) {r v : Nat}
    (hr : r < 8) (hv : v < 8) : entry (fdctRows xs) (8 * r + v) = Spec.fdctRow x r v := by
  rw [fdctRows, entry_block64 _ (by omega), show (8 * r + v) % 8 = v by omega,
    show (8 * r + v) / 8 = r by omega]
  exact dot8_eq_of_agree (fun _ _ => rfl) fun k hk => h _ (by omega)

/-- Each entry of the transform by the two passes of 40_transform R104. -/
theorem entry_fdct {xs : List F64} {x : Nat → F64} (h : ∀ k, k < 64 → entry xs k = x k) {u v : Nat}
    (hu : u < 8) (hv : v < 8) : entry (fdct xs) (8 * u + v) = Spec.fdctCoeff x u v := by
  rw [fdct, fdctCols, entry_block64 _ (by omega), show (8 * u + v) % 8 = v by omega,
    show (8 * u + v) / 8 = u by omega]
  exact dot8_eq_of_agree (fun _ _ => rfl) fun k hk => entry_fdctRows h hk hv

/-! ### The inverse transform -/

theorem entry_idctCols {cs : List F64} {c : Nat → F64} (h : ∀ k, k < 64 → entry cs k = c k) {r v : Nat}
    (hr : r < 8) (hv : v < 8) : entry (idctCols cs) (8 * r + v) = Spec.idctCol c r v := by
  rw [idctCols, entry_block64 _ (by omega), show (8 * r + v) % 8 = v by omega,
    show (8 * r + v) / 8 = r by omega]
  exact dot8_eq_of_agree (fun _ _ => rfl) fun k hk => h _ (by omega)

/-- Each entry of the inverse transform by the two passes of 40_transform R105. -/
theorem entry_idct {cs : List F64} {c : Nat → F64} (h : ∀ k, k < 64 → entry cs k = c k) {r col : Nat}
    (hr : r < 8) (hc : col < 8) : entry (idct cs) (8 * r + col) = Spec.idctSample c r col := by
  rw [idct, idctRows, entry_block64 _ (by omega), show (8 * r + col) % 8 = col by omega,
    show (8 * r + col) / 8 = r by omega]
  exact dot8_eq_of_agree (fun _ _ => rfl) fun k hk => entry_idctCols h hr hk

/-! ### The two commands -/

/-- A block stored to BLK, and the completion: the registers, the entries and the other bytes after it. -/
theorem succeed_storeBlk {s : State} {xs : List F64} (hl : xs.length = 64) :
    (s.storeBlk xs).succeed =
      { Spec.completed s .none false false with mem := (s.storeBlk xs).succeed.mem } ∧
    (∀ k, k < 64 → Spec.blkEntry (s.storeBlk xs).succeed k = entry xs k) ∧
    sameBytesOutside s (s.storeBlk xs).succeed 0x1000 0x200 :=
  ⟨rfl, fun _ hk => State.f64At_storeBlk hl hk, fun _ ha => State.byteAt_storeBlk_of_outside hl ha⟩

/-- Settles O37: the entries of the stored block are the coefficients of the old one. -/
theorem fdctResult : Obligations.FdctResult := by
  intro s
  obtain ⟨hregs, hblk, hrest⟩ := succeed_storeBlk (s := s) (fdct_length s.blk)
  refine ⟨_, rfl, hregs, fun u v hu hv => ?_, hrest⟩
  rw [hblk _ (by omega), entry_fdct (fun _ hk => entry_blk s hk) hu hv]
  rfl

/-- Settles O38: the entries of the stored block are the samples of the old one. -/
theorem idctResult : Obligations.IdctResult := by
  intro s
  obtain ⟨hregs, hblk, hrest⟩ := succeed_storeBlk (s := s) (idct_length s.blk)
  refine ⟨_, rfl, hregs, fun r c hr hc => ?_, hrest⟩
  rw [hblk _ (by omega), entry_idct (fun _ hk => entry_blk s hk) hr hc]
  rfl

end Sys2Proof.Machine
end

section
/-! PROOF. The bounds that every value derived from pixel bytes keeps, so that each is a finite number
(40_transform R101, R110; 41_embed R120 to R125; 42_search R144, R145; 43_vote R163). -/

namespace Sys2Proof.Machine

theorem Bounded.isFinite {j : Nat} {x : F64} (h : Bounded j x) : Spec.isFinite x := by
  obtain ⟨neg, m, hx, -⟩ := h
  exact isFinite_of_unpack hx

/-! ### Whole numbers and absolute values -/

/-- 1.0 is 2^1074 units, so a number of `a` bits is at most 2^(a + 1074) units. -/
theorem bounded_fofNat {n a k j : Nat} (hk : k = 1074) (h : n ≤ 2 ^ a) (ha : a < 53) (hj : j = a + k) :
    Bounded j (fofNat n) := by
  refine ⟨false, n <<< 1074, unpack_fofNat (h.trans_lt (Nat.pow_lt_pow_right (by omega) ha)), ?_⟩
  rw [← hk, hj, Nat.shiftLeft_eq, Nat.pow_add]
  exact Nat.mul_le_mul_right _ h

/-- A quotient by a positive whole number keeps a bound. -/
theorem bounded_fdiv_fofNat {j n : Nat} {x : F64} (hx : Bounded j x) (hj : j < 2098) (h0 : n ≠ 0)
    (hn : n < 2 ^ 53) : Bounded j (fdiv x (fofNat n)) := by
  have key : ∀ k, 2 ^ k ≤ n <<< k := fun k => by
    rw [Nat.shiftLeft_eq]
    exact Nat.le_mul_of_pos_left _ (Nat.pos_of_ne_zero h0)
  exact bounded_fdiv rfl hx (unpack_fofNat hn) (key 1074) hj

theorem two_eq_fofNat : 0x4000000000000000#64 = fofNat 2 := by decide +kernel

theorem bounded_half {j : Nat} {x : F64} (hx : Bounded j x) (hj : j < 2098) :
    Bounded j (fdiv x 0x4000000000000000#64) := by
  rw [two_eq_fofNat]
  exact bounded_fdiv_fofNat hx hj (by omega) (by norm_num)

theorem expField_fabs (x : F64) : expField (fabs x) = expField x := by
  unfold expField
  rw [fabs_toNat, Nat.shiftRight_eq_div_pow, Nat.shiftRight_eq_div_pow]
  omega

theorem fracField_fabs (x : F64) : fracField (fabs x) = fracField x := by
  unfold fracField
  rw [fabs_toNat]
  omega

theorem unpack_fabs {x : F64} {neg : Bool} {m : Nat} (h : unpack x = .fin neg m) :
    unpack (fabs x) = .fin false m := by
  unfold unpack at h ⊢
  rw [expField_fabs, fracField_fabs, signField_eq_msb (fabs x), fabs_msb]
  split_ifs at h ⊢ <;> cases h <;> rfl

theorem bounded_fabs {j : Nat} {x : F64} (h : Bounded j x) : Bounded j (fabs x) := by
  obtain ⟨neg, m, hx, hm⟩ := h
  exact ⟨false, m, unpack_fabs hx, hm⟩

/-! ### The transforms -/

/-- An inner product with eight factors of magnitude at most 1 grows by less than 2^8; only the places 0 to 7
matter. -/
theorem bounded_specDot8 {j : Nat} {m a : Nat → F64} (hj : j + 8 < 2098)
    (hm : ∀ i, i < 8 → Bounded 1074 (m i)) (ha : ∀ i, i < 8 → Bounded j (a i)) :
    Bounded (j + 8) (Spec.dot8 m a) :=
  bounded_dot8 (fun i hi => bounded_fmul rfl (hm i hi) (ha i hi) (by omega)) hj

theorem bounded_fdctCoeff {j : Nat} {x : Nat → F64} (hj : j + 8 + 8 < 2098)
    (h : ∀ k, k < 64 → Bounded j (x k)) {u v : Nat} (hu : u < 8) (hv : v < 8) :
    Bounded (j + 8 + 8) (Spec.fdctCoeff x u v) :=
  bounded_specDot8 hj (fun _ hi => bounded_basis rfl hu hi) fun r hr =>
    bounded_specDot8 (by omega) (fun _ hi => bounded_basis rfl hv hi) fun k hk =>
      h _ (by omega)

theorem bounded_idctSample {j : Nat} {c : Nat → F64} (hj : j + 8 + 8 < 2098)
    (h : ∀ k, k < 64 → Bounded j (c k)) {r col : Nat} (hr : r < 8) (hc : col < 8) :
    Bounded (j + 8 + 8) (Spec.idctSample c r col) :=
  bounded_specDot8 hj (fun _ hi => bounded_basis rfl hi hc) fun v hv =>
    bounded_specDot8 (by omega) (fun _ hi => bounded_basis rfl hi hr) fun k hk =>
      h _ (by omega)

/-! ### Lumas and block differences -/

theorem lumaAt_eq (s : State) (x y : Nat) :
    Spec.lumaAt s x y = luma ⟨Spec.channel s 0 x y, Spec.channel s 1 x y, Spec.channel s 2 x y⟩ := rfl

theorem bounded_lumaAt (s : State) (x y : Nat) : Bounded 1085 (Spec.lumaAt s x y) := by
  rw [lumaAt_eq]
  exact bounded_luma _

theorem bounded_coeff_loaded (s : State) (rot : Rotation) (x0 y0 : Nat) {u v : Nat} (hu : u < 8) (hv : v < 8) :
    Bounded 1101 (Spec.fdctCoeff (Spec.loaded s rot x0 y0) u v) :=
  bounded_fdctCoeff (by omega) (fun _ _ => bounded_lumaAt s _ _) hu hv

theorem bounded_diffAt (s : State) (rot : Rotation) (x0 y0 : Nat) :
    Bounded 1102 (Spec.diffAt s rot x0 y0) :=
  bounded_fsub (bounded_coeff_loaded s rot x0 y0 (by omega) (by omega))
    (bounded_coeff_loaded s rot x0 y0 (by omega) (by omega)) (by omega)

/-! ### Sums of block differences -/

/-- A sum of block differences: however many are added, each is too small to lift it over 2^1156 units. -/
theorem bounded_fadd_diff {sum d : F64} (hs : Bounded 1156 sum) (hd : Bounded 1102 d) :
    Bounded 1156 (fadd sum d) := bounded_fadd_absorb hs hd (by omega) (by omega)

theorem energyRow_spec (s : State) (rot : Rotation) (ox y stride turns i : Nat) (acc : F64 × Nat)
    (h : Bounded 1156 acc.1) : Bounded 1156 (Spec.energyRow s rot ox y stride turns i acc).1 ∧
      (Spec.energyRow s rot ox y stride turns i acc).2 ≤ acc.2 + turns := by
  induction turns generalizing i acc with
  | zero => exact ⟨h, le_refl _⟩
  | succ turns ih =>
    obtain ⟨sum, n⟩ := acc
    rw [Spec.energyRow]
    split
    · obtain ⟨hsum, hn⟩ := ih (i + 1) (fadd sum (fabs (Spec.diffAt s rot (ox + stride * i) y)), n + 1)
        (bounded_fadd_diff h (bounded_fabs (bounded_diffAt s rot _ y)))
      exact ⟨hsum, hn.trans (by simp only; omega)⟩
    · exact ⟨h, Nat.le_add_right _ _⟩

theorem energyRows_spec (s : State) (rot : Rotation) (ox oy stride turns j : Nat) (acc : F64 × Nat)
    (h : Bounded 1156 acc.1) : Bounded 1156 (Spec.energyRows s rot ox oy stride turns j acc).1 ∧
      (Spec.energyRows s rot ox oy stride turns j acc).2 ≤ acc.2 + 8192 * turns := by
  induction turns generalizing j acc with
  | zero => exact ⟨h, le_refl _⟩
  | succ turns ih =>
    rw [Spec.energyRows]
    split
    · obtain ⟨hrow, hrown⟩ := energyRow_spec s rot ox (oy + stride * j) stride 8192 0 acc h
      obtain ⟨hsum, hn⟩ := ih (j + 1) _ hrow
      exact ⟨hsum, hn.trans (by omega)⟩
    · exact ⟨h, Nat.le_add_right _ _⟩

theorem bounded_energyLoop (s : State) (rot : Rotation) (ox oy stride : Nat) :
    Bounded 1156 (Spec.energyLoop s rot ox oy stride).1 := by
  obtain ⟨hsum, hn⟩ := energyRows_spec s rot ox oy stride 8192 0 (0#64, 0) (bounded_zero _)
  rw [Spec.energyLoop]
  split
  · exact bounded_zero _
  · next h0 => exact bounded_fdiv_fofNat hsum (by omega) h0 (hn.trans_lt (by norm_num))

theorem bounded_votedSum (s : State) (rot : Rotation) (ox oy k : Nat) :
    Bounded 1156 (Spec.votedSum s rot ox oy k) := by
  unfold Spec.votedSum
  refine foldl_inv _ _ _ _ (bounded_zero _) fun _ hrow y _ => foldl_inv _ _ _ _ hrow fun _ hsum x _ => ?_
  split
  · exact bounded_fadd_diff hsum (bounded_diffAt s rot _ _)
  · exact hsum

/-! ### The embedding -/

theorem bounded_shift {bit : Bool} {d p : F64} (hd : Bounded 1102 d) (hp : Bounded 1102 p) :
    Bounded 1103 (Spec.shift bit d p) := by
  unfold Spec.shift
  split
  · exact bounded_half (bounded_fsub hp hd (by omega)) (by omega)
  · exact bounded_half (bounded_fadd hp hd (by omega)) (by omega)

/-- Both moved coefficients, of which each is an old one or a sum or a difference with the shift. -/
theorem bounded_margin {c35 c28 p : F64} (bit : Bool) (h35 : Bounded 1101 c35) (h28 : Bounded 1101 c28)
    (hp : Bounded 1102 p) : Bounded 1104 (Spec.marginHigh c35 c28 bit p) ∧
      Bounded 1104 (Spec.marginLow c35 c28 bit p) := by
  have hs := bounded_shift (bit := bit) (bounded_fsub h35 h28 (by omega)) hp
  have h35' := h35.mono (j := 1103) (by omega)
  have h28' := h28.mono (j := 1103) (by omega)
  unfold Spec.marginHigh Spec.marginLow
  split
  · cases bit
    · exact ⟨bounded_fsub h35' hs (by omega), bounded_fadd h28' hs (by omega)⟩
    · exact ⟨bounded_fadd h35' hs (by omega), bounded_fsub h28' hs (by omega)⟩
  · exact ⟨h35.mono (by omega), h28.mono (by omega)⟩

theorem bounded_coeff_gridLuma (s : State) (bx by' : Nat) {u v : Nat} (hu : u < 8) (hv : v < 8) :
    Bounded 1101 (Spec.fdctCoeff (Spec.gridLuma s bx by') u v) :=
  bounded_fdctCoeff (by omega) (fun _ _ => bounded_lumaAt s _ _) hu hv

theorem bounded_markedCoeff (s : State) (bx by' : Nat) {k : Nat} (hk : k < 64) :
    Bounded 1104 (Spec.markedCoeff s bx by' k) := by
  have hp : Bounded 1102 (fofNat s.strength.toNat) :=
    (bounded_fofNat rfl (a := 16) s.strength.isLt.le (by omega) rfl).mono (by omega)
  obtain ⟨hhigh, hlow⟩ := bounded_margin
    (s.pbit (Spec.encoderIndex s.payloadLen.toNat s.sqw.toNat bx by'))
    (bounded_coeff_gridLuma s bx by' (u := 35 / 8) (v := 35 % 8) (by omega) (by omega))
    (bounded_coeff_gridLuma s bx by' (u := 28 / 8) (v := 28 % 8) (by omega) (by omega)) hp
  unfold Spec.markedCoeff
  dsimp only
  split
  · exact hhigh
  · split
    · exact hlow
    · exact (bounded_coeff_gridLuma s bx by' (by omega) (by omega)).mono (by omega)

theorem bounded_pixelDelta (s : State) (bx by' : Nat) {lx ly : Nat} (hx : lx < 8) (hy : ly < 8) :
    Bounded 1121 (Spec.pixelDelta s bx by' lx ly) :=
  bounded_fsub (bounded_idctSample (by omega) (fun _ hk => bounded_markedCoeff s bx by' hk) hy hx)
    ((bounded_lumaAt s _ _).mono (by omega)) (by omega)

theorem bounded_updatedSum (s : State) (bx by' : Nat) {lx ly : Nat} (hx : lx < 8) (hy : ly < 8) (v : Byte) :
    Bounded 1122 (fadd (fofNat v.toNat) (Spec.pixelDelta s bx by' lx ly)) :=
  bounded_fadd ((bounded_fofNat rfl (a := 8) v.isLt.le (by omega) rfl).mono (by omega))
    (bounded_pixelDelta s bx by' hx hy) (by omega)

/-- Settles O55: each value has a bound of its own, far below 2^2098 units. -/
theorem valuesFromPixelsAreFinite : Obligations.ValuesFromPixelsAreFinite := fun s =>
  ⟨fun x y => (bounded_lumaAt s x y).isFinite,
    fun rot x0 y0 _ _ hu hv => (bounded_coeff_loaded s rot x0 y0 hu hv).isFinite,
    fun rot x0 y0 => (bounded_diffAt s rot x0 y0).isFinite,
    fun rot ox oy stride _ => (bounded_energyLoop s rot ox oy stride).isFinite,
    fun rot ox oy k => (bounded_votedSum s rot ox oy k).isFinite,
    fun bx by' _ hk => (bounded_markedCoeff s bx by' hk).isFinite,
    fun bx by' _ _ hx hy => ⟨(bounded_pixelDelta s bx by' hx hy).isFinite,
      fun v => (bounded_updatedSum s bx by' hx hy v).isFinite⟩⟩

end Sys2Proof.Machine
end

section
/-! PROOF. The tiling of the payload over the block grid, the luma of a pixel, the sign-margin rule and the
embedding of the payload (41_embed R120 to R127; 43_vote R160). -/

namespace Sys2Proof.Machine

/-! ### The tiling -/

/-- The place of a grid point in the square of side `w` that tiles the grid. -/
theorem tile_lt {w : Nat} (hw : 0 < w) (x y : Nat) : y % w * w + x % w < w * w := by
  have hx := Nat.mod_lt x hw
  have hy : (y % w + 1) * w ≤ w * w := Nat.mul_le_mul_right w (Nat.mod_lt y hw)
  rw [Nat.add_mul, Nat.one_mul] at hy
  omega

theorem decIndex_flat_lt (x y : Nat) : decIndex 0 x y < 4096 := tile_lt (w := 64) (by omega) x y

theorem decIndex_square {sqw : Nat} (h : sqw ≠ 0) (x y : Nat) : decIndex sqw x y = y % sqw * sqw + x % sqw :=
  if_neg h

theorem encIndex_flat (len x y : Nat) : encIndex len 0 x y = decIndex 0 x y % len := rfl

theorem encIndex_square {sqw : Nat} (h : sqw ≠ 0) (len x y : Nat) : encIndex len sqw x y = decIndex sqw x y := by
  rw [encIndex, decIndex, if_neg h, if_neg h]

/-- The encoder's index is below L for the parameters that EMBED accepts (41_embed R121, R126). -/
theorem encIndex_lt_payloadLen {s : State} (h : Spec.embedOk s) (bx by' : Nat) :
    encIndex s.payloadLen.toNat s.sqw.toNat bx by' < s.payloadLen.toNat := by
  obtain ⟨-, hlen, -, -, -, hsquare⟩ := h
  by_cases h0 : s.sqw.toNat = 0
  · rw [h0, encIndex_flat]
    exact Nat.mod_lt _ hlen
  · rw [encIndex_square h0, decIndex_square h0, hsquare h0]
    exact tile_lt (Nat.pos_of_ne_zero h0) bx by'

/-- Settles O54: the index is a place in the square that tiles the grid, of side 64 in flat mode. -/
theorem tilingIndicesAreInRange : Obligations.TilingIndicesAreInRange := by
  refine ⟨fun s h => encIndex_lt_payloadLen h, decIndex_flat_lt, fun sqw x y h => ⟨?_, fun len => ?_⟩,
    encIndex_flat⟩
  · rw [decIndex_square h.ne']
    exact tile_lt h x y
  · exact encIndex_square h.ne' len x y

/-- Whatever the registers hold, the encoder's index is the number of a bit below the PIX window. -/
theorem encIndex_lt (s : State) (bx by' : Nat) :
    encIndex s.payloadLen.toNat s.sqw.toNat bx by' < 65536 := by
  by_cases h0 : s.sqw.toNat = 0
  · rw [h0, encIndex_flat]
    exact (Nat.mod_le _ _).trans_lt ((decIndex_flat_lt bx by').trans (by omega))
  · rw [encIndex_square h0, decIndex_square h0]
    exact (tile_lt (Nat.pos_of_ne_zero h0) bx by').trans_le
      (Nat.mul_le_mul s.sqw.isLt.le s.sqw.isLt.le)

/-! ### The luma -/

theorem luma_eq_lumaOf (p : Rgb) : luma p = Spec.lumaOf p.r.toNat p.g.toNat p.b.toNat := rfl

/-- The quotient by 1000 is the binary64 number nearest to `n` thousandths, in units of 2^-1074. -/
theorem rounded_thousandths {n k : Nat} (hk : k = 1074) (hn : n < 2 ^ 53) :
    Spec.Rounded (n * 2 ^ k / 1000) (fdiv (fofNat n) (fofNat 1000)) := by
  have h1000 := units_fofNat (n := 1000) (by norm_num) hk
  have h := rounded_fdiv hk (isFinite_fofNat hn) (isFinite_fofNat (n := 1000) (by norm_num)) (by
    rw [h1000]; positivity)
  rw [h1000, units_fofNat hn hk] at h
  push_cast at h
  rwa [mul_div_mul_right _ _ (pow_ne_zero k two_ne_zero)] at h

theorem lumaConstants_eq : 0x3FD322D0E5604189#64 = fdiv (fofNat 299) (fofNat 1000) ∧
    0x3FE2C8B439581062#64 = fdiv (fofNat 587) (fofNat 1000) ∧
    0x3FBD2F1A9FBE76C9#64 = fdiv (fofNat 114) (fofNat 1000) := by decide +kernel

theorem luma_black_white_grey : luma ⟨0#8, 0#8, 0#8⟩ = 0xC060000000000000#64 ∧
    luma ⟨255#8, 255#8, 255#8⟩ = 0x405FC00000000000#64 ∧
    luma ⟨128#8, 128#8, 128#8⟩ = 0xBD10000000000000#64 := by decide +kernel

/-- Settles O33: each constant is a quotient of two whole numbers, so it is correctly rounded; a luma has a
bound, so it is finite; the three pixels are computed. -/
theorem lumaOfEveryPixel : Obligations.LumaOfEveryPixel := by
  obtain ⟨hred, hgreen, hblue⟩ := lumaConstants_eq
  obtain ⟨hblack, hwhite, hgrey⟩ := luma_black_white_grey
  refine ⟨fun p => ⟨luma_eq_lumaOf p, (bounded_luma p).isFinite⟩, hblack, hwhite, hgrey, ?_, ?_, ?_⟩
  · rw [hred]
    exact rounded_thousandths (n := 299) rfl (by norm_num)
  · rw [hgreen]
    exact rounded_thousandths (n := 587) rfl (by norm_num)
  · rw [hblue]
    exact rounded_thousandths (n := 114) rfl (by norm_num)

/-! ### The sign-margin rule -/

/-- The rule writes both entries of a pair that is short of its margin and no entry otherwise
(41_embed R122). -/
theorem margin_eq (c : List F64) (bit : Bool) (p : F64) :
    margin c bit p =
      if Spec.shortOfMargin bit (pairDiff c) p then
        (c.set 35 (Spec.marginHigh (entry c 35) (entry c 28) bit p)).set 28
          (Spec.marginLow (entry c 35) (entry c 28) bit p)
      else c := by
  unfold margin Spec.marginHigh Spec.marginLow Spec.shortOfMargin Spec.shift pairDiff
  cases bit with
  | true => by_cases hs : flt (fsub (entry c 35) (entry c 28)) p = true <;> simp [hs]
  | false => by_cases hs : flt (fneg p) (fsub (entry c 35) (entry c 28)) = true <;> simp [hs]

/-- Every entry after the rule: the pair moved or kept, the others kept. -/
theorem entry_margin {c : List F64} (hl : c.length = 64) (bit : Bool) (p : F64) (k : Nat) :
    entry (margin c bit p) k =
      if k = 35 then Spec.marginHigh (entry c 35) (entry c 28) bit p
      else if k = 28 then Spec.marginLow (entry c 35) (entry c 28) bit p
      else entry c k := by
  rw [margin_eq]
  by_cases hs : Spec.shortOfMargin bit (pairDiff c) p = true
  · rw [if_pos hs, entry_set _ _ (by simp [hl]), entry_set _ _ (by omega)]
    rcases eq_or_ne k 35 with rfl | h35
    · simp
    · simp [h35]
  · have hhigh : Spec.marginHigh (entry c 35) (entry c 28) bit p = entry c 35 := if_neg hs
    have hlow : Spec.marginLow (entry c 35) (entry c 28) bit p = entry c 28 := if_neg hs
    rw [if_neg hs, hhigh, hlow]
    split_ifs with h35 h28
    · rw [h35]
    · rw [h28]
    · rfl

/-- A byte that a command may not write keeps its value (20_memory R74). -/
theorem byteAt_of_exec {i : Instr} {s t : State} (h : exec i s = .next t) {a : Nat}
    (ha : ¬ Spec.mayWrite i a) : t.byteAt a = s.byteAt a := by
  obtain ⟨u, hu, -, -, -, -, -, -, hbytes⟩ := commandsWriteOnlyTheirOwn i s
  cases h.symm.trans hu
  exact hbytes a ha

/-- Settles O39: the two moved entries are those of the rule, and the bytes of the others are stored as they
were. -/
theorem marginResult : Obligations.MarginResult := by
  intro s bit hp
  have hexec := exec_margin bit hp
  obtain ⟨hregs, hblk, -⟩ := succeed_storeBlk (s := s) (xs := margin s.blk bit s.strengthP) (by simp)
  have hentry := entry_margin (State.blk_length s) bit s.strengthP
  rw [entry_blk s (by omega), entry_blk s (by omega)] at hentry
  refine ⟨_, hexec, hregs, ?_, ?_, fun a h28 h35 => byteAt_of_exec hexec (not_or.mpr ⟨h28, h35⟩)⟩
  · rw [hblk 35 (by omega), hentry]
    rfl
  · rw [hblk 28 (by omega), hentry]
    rfl

/-! ### The embedding -/

theorem entry_lumaBlock (s : State) (bx by' : Nat) {k : Nat} (hk : k < 64) :
    entry (lumaBlock s.rgbAt (8 * bx) (8 * by')) k = Spec.gridLuma s bx by' k :=
  entry_block64 _ hk

/-- Entry `k` of `C'`: the transform of the luma block, with the pair moved for the bit of the block. -/
theorem entry_margin_fdct (s : State) (bx by' : Nat) {k : Nat} (hk : k < 64) :
    entry (margin (fdct (lumaBlock s.rgbAt (8 * bx) (8 * by'))) (s.blockBit bx by') s.strengthP) k =
      Spec.markedCoeff s bx by' k := by
  have hcoeff : ∀ k, k < 64 → entry (fdct (lumaBlock s.rgbAt (8 * bx) (8 * by'))) k =
      Spec.fdctCoeff (Spec.gridLuma s bx by') (k / 8) (k % 8) := fun k hk => by
    have h := entry_fdct (u := k / 8) (v := k % 8) (fun _ hj => entry_lumaBlock s bx by' hj) (by omega) (by omega)
    rwa [Nat.div_add_mod] at h
  rw [entry_margin (fdct_length _), hcoeff 35 (by omega), hcoeff 28 (by omega), hcoeff k hk]
  rfl

theorem entry_blockDeltas (s : State) (bx by' : Nat) {lx ly : Nat} (hx : lx < 8) (hy : ly < 8) :
    entry (s.blockDeltas bx by') (8 * ly + lx) = Spec.pixelDelta s bx by' lx ly := by
  rw [State.blockDeltas, embedDeltas, entry_block64 _ (by omega),
    entry_idct (fun k hk => entry_margin_fdct s bx by' hk) hy hx, entry_lumaBlock s bx by' (by omega)]
  rfl

/-- A colour channel of a pixel that is updated by a delta. -/
theorem channel_of_rgbUpd {s t : State} {x y c : Nat} {delta : F64}
    (h : t.rgbAt x y = rgbUpd (s.rgbAt x y) delta) (hc : c < 3) :
    Spec.channel t c x y = pixUpd (Spec.channel s c x y) delta := by
  interval_cases c
  · exact congrArg Rgb.r h
  · exact congrArg Rgb.g h
  · exact congrArg Rgb.b h

theorem State.embedParamsBad_of_embedOk {s : State} (h : Spec.embedOk s) : s.embedParamsBad = false := by
  obtain ⟨-, -, hlen, hp, hsqw, hsquare⟩ := h
  simp only [State.embedParamsBad, Bool.or_eq_false_iff, Bool.and_eq_false_iff, decide_eq_false_iff_not,
    not_not]
  exact ⟨⟨⟨Nat.not_lt.mpr hlen, by omega⟩, Nat.not_lt.mpr hsqw⟩, (eq_or_ne s.sqw.toNat 0).imp_right hsquare⟩

/-- Settles O45: no block is embedded over another, so each pixel is updated by the delta of the image as it
was. -/
theorem embedResult : Obligations.EmbedResult := by
  intro s h
  have hparams := State.embedParamsBad_of_embedOk h
  obtain ⟨himage, hlen, -⟩ := h
  have hexec := exec_embed (State.imageInvalid_eq_false.mpr himage) hlen hparams
  refine ⟨_, hexec, ?_, fun bx by' lx ly c hbx hby hx hy hc => ?_, fun a ha => ?_⟩
  · rw [State.embedImage_eq]
    rfl
  · have hpixel := State.rgbAt_embedImage hbx hby hx hy
    rw [entry_blockDeltas s bx by' hx hy] at hpixel
    rw [← pixUpd_toNat, ← channel_of_rgbUpd hpixel hc]
    rfl
  · exact State.byteAt_embedImage fun x y c hx hy hc he => ha ⟨x, y, c, hx, hy, hc, he⟩

end Sys2Proof.Machine
end

section
/-! PROOF. No command reads or writes an A sample: two states that differ in A samples only read the same
elsewhere, and every update that a command makes keeps them so (41_embed R129). -/

namespace Sys2Proof.Machine

/-! ### What two states read that differ in A samples only -/

theorem not_alphaOffset_of_lt {a : Nat} (h : a < 0x01000000) : ¬ Spec.alphaOffset a :=
  fun ha => Nat.not_lt.mpr ha.1 h

/-- An A sample is the last byte of its pixel (20_memory R65). -/
theorem not_alphaOffset_pixel (w x y : Nat) {c : Nat} (hc : c < 3) :
    ¬ Spec.alphaOffset (pixelOffset w x y + c) := by
  unfold Spec.alphaOffset pixelOffset Config.pixBase
  omega

/-- Whatever SQW holds, N is the number of a bit below the PIX window. -/
theorem decodedBits_le_of_register (s : State) : decodedBits s.sqw.toNat ≤ 0x10000 := by
  unfold decodedBits
  split
  · decide
  · exact Nat.mul_le_mul s.sqw.isLt.le s.sqw.isLt.le

/-- Bytes packed from the same eight bits are the same. -/
theorem packByte_congr {f g : Nat → Bool} (hfg : ∀ k, k < 8 → f k = g k) : packByte f = packByte g := by
  unfold packByte
  rw [List.foldl_ext _ _ _ fun c k hk => by rw [hfg k (List.mem_range.mp hk)]]

section
variable {s t : State}

/-- Two states that differ in A samples only are one record with two memories. -/
theorem exists_mem_of_sameButAlpha (h : Spec.sameButAlpha s t) : ∃ m, t = { s with mem := m } :=
  ⟨_, h.1⟩

variable (h : Spec.sameButAlpha s t)
include h

theorem byteAt_of_sameButAlpha {a : Nat} (ha : a < 0x01000000) : t.byteAt a = s.byteAt a :=
  h.2 a (not_alphaOffset_of_lt ha)

theorem width_of_sameButAlpha : t.width = s.width := by rw [h.1]; rfl

theorem height_of_sameButAlpha : t.height = s.height := by rw [h.1]; rfl

theorem rgbAt_of_sameButAlpha : t.rgbAt = s.rgbAt := by
  funext x y
  have hc : ∀ c, c < 3 → t.byteAt (pixelOffset s.width x y + c) = s.byteAt (pixelOffset s.width x y + c) :=
    fun c hc => h.2 _ (not_alphaOffset_pixel _ x y hc)
  unfold State.rgbAt
  rw [width_of_sameButAlpha h, Rgb.mk.injEq]
  exact ⟨hc 0 (by omega), hc 1 (by omega), hc 2 (by omega)⟩

theorem blk_of_sameButAlpha : t.blk = s.blk := by
  refine List.map_congr_left fun k hk => ?_
  have hk := List.mem_range.mp hk
  have hbytes : t.bytesAt (Config.blkBase + 8 * k) 8 = s.bytesAt (Config.blkBase + 8 * k) 8 :=
    List.map_congr_left fun i hi => byteAt_of_sameButAlpha h (by
      have hi := List.mem_range.mp hi
      unfold Config.blkBase
      omega)
  rw [State.f64At, State.f64At, hbytes]

/-- The payload bits that a command counts to, whatever the registers hold, lie below the PIX window. -/
theorem pbit_of_sameButAlpha {i : Nat} (hi : i < 0x20000) : t.pbit i = s.pbit i := by
  rw [State.pbit, State.pbit, byteAt_of_sameButAlpha h (by unfold Config.payloadBase; omega)]

theorem serBit_of_sameButAlpha : t.serBit = s.serBit := by
  have hlen : t.textLen = s.textLen := by rw [h.1]
  have hbyte : ∀ j, t.serByte j = s.serByte j := by
    intro j
    have hlt := s.textLen.isLt
    rw [State.serByte, State.serByte, hlen]
    split
    · exact byteAt_of_sameButAlpha h (by unfold Config.byteBufBase; omega)
    · rfl
  funext i
  rw [State.serBit, State.serBit, hbyte]

theorem winner_of_sameButAlpha : t.winner = s.winner := by
  rw [State.winner, State.winner, rgbAt_of_sameButAlpha h, width_of_sameButAlpha h, height_of_sameButAlpha h]

/-! ### The same update of both -/

theorem sameButAlpha_store (off : Nat) (vs : List Byte) :
    Spec.sameButAlpha (s.store off vs) (t.store off vs) := by
  obtain ⟨heq, hbytes⟩ := h
  refine ⟨?_, fun a ha => ?_⟩
  · rw [heq]; rfl
  · rw [State.byteAt_store, State.byteAt_store, hbytes a ha]

/-- An update that neither reads nor writes memory keeps the relation. -/
theorem sameButAlpha_update (f : State → State) (hf : ∀ u m, f { u with mem := m } = { f u with mem := m })
    (hb : ∀ u, (f u).byteAt = u.byteAt) : Spec.sameButAlpha (f s) (f t) := by
  obtain ⟨m, rfl⟩ := exists_mem_of_sameButAlpha h
  refine ⟨by rw [hf], fun a ha => ?_⟩
  rw [hb, hb]
  exact h.2 a ha

theorem sameButAlpha_storePbits {n : Nat} (hn : n ≤ 0x10000) (bits : Nat → Bool) :
    Spec.sameButAlpha (s.storePbits n bits) (t.storePbits n bits) := by
  have hbytes : (List.range ((n + 7) / 8)).map (fun j =>
        packByte fun k => if 8 * j + k < n then bits (8 * j + k) else t.pbit (8 * j + k)) =
      (List.range ((n + 7) / 8)).map (fun j =>
        packByte fun k => if 8 * j + k < n then bits (8 * j + k) else s.pbit (8 * j + k)) := by
    refine List.map_congr_left fun j hj => packByte_congr fun k hk => ?_
    have hj := List.mem_range.mp hj
    rw [pbit_of_sameButAlpha h (by omega)]
  rw [State.storePbits, State.storePbits, hbytes]
  exact sameButAlpha_store h _ _

theorem sameButAlpha_fullDecode (hyp : Hyp) : Spec.sameButAlpha (s.fullDecode hyp) (t.fullDecode hyp) := by
  have hrgb := rgbAt_of_sameButAlpha h
  obtain ⟨m, rfl⟩ := exists_mem_of_sameButAlpha h
  have hvotes := sameButAlpha_store h Config.voteBase
    (f64Bytes (voteSums s.rgbAt s.width s.height s.sqw.toNat hyp))
  have hbits := sameButAlpha_storePbits hvotes (decodedBits_le_of_register s)
    fun k => flt 0#64 (entry (voteSums s.rgbAt s.width s.height s.sqw.toNat hyp) k)
  rw [State.fullDecode, State.fullDecode, hrgb]
  exact sameButAlpha_update hbits (fun u => (u.setPayloadLen _).setBlocks _) (fun _ _ => rfl) fun _ => rfl

theorem sameButAlpha_storeRgb (x y : Nat) (delta : F64) : Spec.sameButAlpha
    (s.storeRgb x y (rgbUpd (s.rgbAt x y) delta)) (t.storeRgb x y (rgbUpd (t.rgbAt x y) delta)) := by
  rw [State.storeRgb, State.storeRgb, rgbAt_of_sameButAlpha h, width_of_sameButAlpha h]
  exact sameButAlpha_store h _ _

theorem blockDeltas_of_sameButAlpha (bx by' : Nat) : t.blockDeltas bx by' = s.blockDeltas bx by' := by
  have hlen : t.payloadLen = s.payloadLen := by rw [h.1]
  have hsqw : t.sqw = s.sqw := by rw [h.1]
  have hp : t.strengthP = s.strengthP := by rw [h.1]; rfl
  have hi := encIndex_lt s bx by'
  rw [State.blockDeltas, State.blockDeltas, State.blockBit, State.blockBit, rgbAt_of_sameButAlpha h, hlen, hsqw,
    hp, pbit_of_sameButAlpha h (by omega)]

theorem sameButAlpha_embedBlock (bx by' : Nat) :
    Spec.sameButAlpha (s.embedBlock bx by') (t.embedBlock bx by') := by
  rw [State.embedBlock_eq_updateEach, State.embedBlock_eq_updateEach, blockDeltas_of_sameButAlpha h]
  exact List.foldl_rel h fun i _ _ _ h => sameButAlpha_storeRgb h _ _ _

theorem sameButAlpha_embedImage : Spec.sameButAlpha s.embedImage t.embedImage := by
  rw [State.embedImage_eq_embedEach, State.embedImage_eq_embedEach, width_of_sameButAlpha h,
    height_of_sameButAlpha h]
  exact List.foldl_rel h fun b _ _ _ h => sameButAlpha_embedBlock h _ _

theorem deserCount_of_sameButAlpha : t.deserCount = s.deserCount := by
  obtain ⟨m, rfl⟩ := exists_mem_of_sameButAlpha h
  rfl

theorem deserBytes_of_sameButAlpha : (List.range t.deserCount).map t.deserByte =
    (List.range s.deserCount).map s.deserByte := by
  have hoff : t.bitOffset = s.bitOffset := by rw [h.1]
  rw [deserCount_of_sameButAlpha h]
  refine List.map_congr_left fun j hj => packByte_congr fun k hk => ?_
  have hj := List.mem_range.mp hj
  have hlen := s.payloadLen.isLt
  have hlt := s.bitOffset.isLt
  have hcount : s.deserCount ≤ 1024 := by
    unfold State.deserCount
    split <;> omega
  rw [hoff, pbit_of_sameButAlpha h (by omega)]

/-! ### The commands -/

theorem checksOf_of_sameButAlpha (i : Instr) : checksOf i t = checksOf i s := by
  obtain ⟨m, rfl⟩ := exists_mem_of_sameButAlpha h
  cases i <;> rfl

theorem codeOf_of_sameButAlpha (i : Instr) : codeOf i t = codeOf i s := by
  have hf : t.floor = s.floor := by rw [h.1]
  unfold codeOf
  rw [hf, winner_of_sameButAlpha h]

/-- The statements of a command read no A sample: from two states that differ in A samples only they give two
such states (41_embed R129). -/
theorem sameButAlpha_effectOf (i : Instr) : Spec.sameButAlpha (effectOf i s) (effectOf i t) := by
  have hrgb := rgbAt_of_sameButAlpha h
  have hblk := blk_of_sameButAlpha h
  have hwinner := winner_of_sameButAlpha h
  cases i with
  | nop => exact h
  | fdct =>
    rw [effectOf, effectOf, hblk]
    exact sameButAlpha_store h _ _
  | idct =>
    rw [effectOf, effectOf, hblk]
    exact sameButAlpha_store h _ _
  | margin bit =>
    have hp : t.strengthP = s.strengthP := by rw [h.1]; rfl
    rw [effectOf, effectOf, hblk, hp]
    exact sameButAlpha_store h _ _
  | ldluma rot =>
    have hpos : t.blkPos = s.blkPos := by rw [h.1]
    rw [effectOf, effectOf, hrgb, hpos]
    exact sameButAlpha_store h _ _
  | hype rot ox oy stride =>
    rw [effectOf, effectOf, State.measure, State.measure, hrgb, width_of_sameButAlpha h,
      height_of_sameButAlpha h]
    exact sameButAlpha_update h (·.setEnergy _ _) (fun _ _ => rfl) fun _ => rfl
  | search =>
    rw [effectOf, effectOf, hwinner]
    exact sameButAlpha_update h (·.recordWinner s.winner) (fun _ _ => rfl) fun _ => rfl
  | vote rot ox oy => exact sameButAlpha_fullDecode h _
  | decode =>
    rw [effectOf, effectOf, hwinner]
    exact sameButAlpha_fullDecode
      (sameButAlpha_update h (·.recordWinner s.winner) (fun _ _ => rfl) fun _ => rfl) _
  | embed =>
    rw [effectOf, effectOf, width_of_sameButAlpha h, height_of_sameButAlpha h]
    exact sameButAlpha_update (sameButAlpha_embedImage h) (·.setBlocks _) (fun _ _ => rfl) fun _ => rfl
  | ser =>
    have hlen : t.textLen = s.textLen := by rw [h.1]
    have hlt := s.textLen.isLt
    rw [effectOf, effectOf, serBit_of_sameButAlpha h, hlen]
    exact sameButAlpha_update (sameButAlpha_storePbits h (by omega) _) (·.setPayloadLen _) (fun _ _ => rfl)
      fun _ => rfl
  | deser =>
    rw [effectOf, effectOf, deserBytes_of_sameButAlpha h, deserCount_of_sameButAlpha h]
    exact sameButAlpha_update (sameButAlpha_store h _ _) (·.setByteCount _) (fun _ _ => rfl) fun _ => rfl

theorem sameButAlpha_complete (c : Code) (err warn : Bool) :
    Spec.sameButAlpha (s.complete c err warn) (t.complete c err warn) :=
  sameButAlpha_update h (·.complete c err warn) (fun _ _ => rfl) fun _ => rfl

/-- Both states fail the same first check, or both run the command. -/
theorem sameButAlpha_exec (i : Instr) :
    ∃ u v, exec i s = .next u ∧ exec i t = .next v ∧ Spec.sameButAlpha u v := by
  rw [exec_eq_runChecked, exec_eq_runChecked, checksOf_of_sameButAlpha h, runChecked, runChecked]
  cases firstFailing (checksOf i s) with
  | some e => exact ⟨_, _, rfl, rfl, sameButAlpha_complete h e true false⟩
  | none =>
    refine ⟨_, _, rfl, rfl, ?_⟩
    rw [codeOf_of_sameButAlpha h]
    exact sameButAlpha_complete (sameButAlpha_effectOf h i) _ _ _

end

theorem not_mayWrite_of_alphaOffset {i : Instr} {a : Nat} (ha : Spec.alphaOffset a) :
    ¬ Spec.mayWrite i a := by
  obtain ⟨hlow, -, hmod⟩ := ha
  intro hw
  cases i <;> simp only [Spec.mayWrite] at hw <;> omega

/-- Settles O11: the checks, the statements and the completion code of a command read no A sample, and no A
sample lies where a command may write. -/
theorem alphaIsNeitherReadNorWritten : Obligations.AlphaIsNeitherReadNorWritten := by
  intro i s s' h
  obtain ⟨t, t', ht, ht', hrel⟩ := sameButAlpha_exec h i
  refine ⟨t, t', ht, ht', hrel, fun a ha => ?_⟩
  have hkept := not_mayWrite_of_alphaOffset (i := i) ha
  exact ⟨byteAt_of_exec ht hkept, byteAt_of_exec ht' hkept⟩

end Sys2Proof.Machine
end

section
/-! PROOF. The Geometric Search: the loops of 42_search as folds over the sampled blocks and over the
hypotheses, what SEARCH keeps of them, and the commands LDLUMA, HYPE and SEARCH (42_search R140 to R152). -/

namespace Sys2Proof.Machine

/-! ### Loaded blocks -/

theorem srcPos_eq (rot : Rotation) (lx ly : Nat) :
    srcPos rot lx ly = (Spec.srcX rot lx ly, Spec.srcY rot lx ly) := by cases rot <;> rfl

theorem entry_loadBlock (s : State) (rot : Rotation) (x0 y0 : Nat) {k : Nat} (hk : k < 64) :
    entry (loadBlock s.rgbAt x0 y0 rot) k = Spec.loaded s rot x0 y0 k := by
  rw [loadBlock, entry_block64 _ hk, srcPos_eq]
  rfl

theorem blockDiff_eq_diffAt (s : State) (rot : Rotation) (x0 y0 : Nat) :
    blockDiff s.rgbAt x0 y0 rot = Spec.diffAt s rot x0 y0 := by
  have hcoeff : ∀ u v, u < 8 → v < 8 → entry (fdct (loadBlock s.rgbAt x0 y0 rot)) (8 * u + v) =
      Spec.fdctCoeff (Spec.loaded s rot x0 y0) u v := fun u v hu hv =>
    entry_fdct (fun _ hk => entry_loadBlock s rot x0 y0 hk) hu hv
  rw [blockDiff, pairDiff, hcoeff 4 3 (by omega) (by omega), hcoeff 3 4 (by omega) (by omega), Spec.diffAt]

/-- Settles O40: the stored block is the loaded one, entry by entry. -/
theorem ldlumaResult : Obligations.LdlumaResult := by
  intro s rot himage hx hy
  obtain ⟨hregs, hblk, hrest⟩ := succeed_storeBlk (s := s)
    (loadBlock_length s.rgbAt s.blkPos.x0.toNat s.blkPos.y0.toNat rot)
  refine ⟨_, exec_ldluma rot (State.imageInvalid_eq_false.mpr himage) hx hy, hregs, fun k hk => ?_, hrest⟩
  rw [hblk k hk, entry_loadBlock s rot _ _ hk]

/-- Half a turn further, the source of a position is that of the opposite position (42_search R141). -/
theorem srcPos_half {rot half : Rotation} (h : half.code = rot.code + 2#2) {lx ly : Nat} (hx : lx < 8)
    (hy : ly < 8) : srcPos half lx ly = srcPos rot (7 - lx) (7 - ly) := by
  have hx' : lx = 7 - (7 - lx) := by omega
  have hy' : ly = 7 - (7 - ly) := by omega
  obtain rfl : half = .ofCode (rot.code + 2#2) := by rw [← h, Rotation.ofCode_code]
  cases rot with
  | deg0 => rfl
  | deg90 => exact Prod.ext hy' rfl
  | deg180 => exact Prod.ext hx' hy'
  | deg270 => exact Prod.ext rfl hx'

/-- Settles O56: entry 63 - k is the opposite position. -/
theorem halfTurnReversesALoadedBlock : Obligations.HalfTurnReversesALoadedBlock := by
  intro px x0 y0 rot half h k hk
  rw [loadBlock, loadBlock, entry_block64 _ hk, entry_block64 _ (by omega),
    srcPos_half h (by omega) (by omega), show (63 - k) % 8 = 7 - k % 8 by omega,
    show (63 - k) / 8 = 7 - k / 8 by omega]

/-! ### The sampled blocks -/

theorem lt_samples_iff {stride : Nat} (hs : 0 < stride) (size o i : Nat) :
    i < samples size o stride ↔ o + stride * i + 8 ≤ size := by
  unfold samples
  split
  · rw [Nat.lt_succ_iff, Nat.le_div_iff_mul_le hs, Nat.mul_comm]
    omega
  · omega

theorem samples_eq_gridBlocks (size o : Nat) : samples size o 8 = gridBlocks size o := by
  unfold samples gridBlocks
  split <;> omega

/-- Settles O52: the number of samples is the greatest count whose last block fits. -/
theorem sampledBlocksAreThoseInside : Obligations.SampledBlocksAreThoseInside :=
  ⟨fun size o _ i hs => lt_samples_iff hs size o i, samples_eq_gridBlocks⟩

/-! ### The loops of `Energy` -/

/-- A loop with a bound on its turns, over the numbers below `n` from `i` on, is a fold, if the bound reaches
to `n`. -/
theorem loop_eq_foldl {β : Type} {n : Nat} {f : β → Nat → β} {loop : Nat → Nat → β → β}
    (hzero : ∀ i acc, loop 0 i acc = acc)
    (hsucc : ∀ turns i acc, loop (turns + 1) i acc = if i < n then loop turns (i + 1) (f acc i) else acc)
    {turns i : Nat} (h : n ≤ i + turns) (acc : β) :
    loop turns i acc = (List.range' i (n - i)).foldl f acc := by
  induction turns generalizing i acc with
  | zero => rw [hzero, show n - i = 0 by omega]; rfl
  | succ turns ih =>
    rw [hsucc]
    split
    · rw [ih (by omega), show n - i = n - (i + 1) + 1 by omega, List.range'_succ, List.foldl_cons]
    · rw [show n - i = 0 by omega]; rfl

/-- One turn of the inner loop: a block's difference summed and counted (42_search R145). -/
def takeSample (s : State) (rot : Rotation) (acc : F64 × Nat) (x y : Nat) : F64 × Nat :=
  (fadd acc.1 (fabs (Spec.diffAt s rot x y)), acc.2 + 1)

theorem energyRow_eq_foldl (s : State) (rot : Rotation) (ox y : Nat) {stride : Nat} (hs : 0 < stride)
    (acc : F64 × Nat) : Spec.energyRow s rot ox y stride 8192 0 acc =
      (List.range (samples s.width ox stride)).foldl
        (fun acc i => takeSample s rot acc (ox + stride * i) y) acc := by
  have hn : samples s.width ox stride ≤ 0 + 8192 :=
    (samples_le _ _ _).trans (by have := s.imgW.isLt; unfold State.width; omega)
  rw [List.range_eq_range']
  refine loop_eq_foldl (loop := Spec.energyRow s rot ox y stride) (fun _ _ => rfl) (fun _ i acc => ?_) hn acc
  simp only [lt_samples_iff hs]
  rfl

theorem energyRows_eq_foldl (s : State) (rot : Rotation) (ox oy : Nat) {stride : Nat} (hs : 0 < stride)
    (acc : F64 × Nat) : Spec.energyRows s rot ox oy stride 8192 0 acc =
      (List.range (samples s.height oy stride)).foldl
        (fun acc j => Spec.energyRow s rot ox (oy + stride * j) stride 8192 0 acc) acc := by
  have hn : samples s.height oy stride ≤ 0 + 8192 :=
    (samples_le _ _ _).trans (by have := s.imgH.isLt; unfold State.height; omega)
  rw [List.range_eq_range']
  refine loop_eq_foldl (loop := Spec.energyRows s rot ox oy stride) (fun _ _ => rfl) (fun _ i acc => ?_) hn acc
  simp only [lt_samples_iff hs]
  rfl

theorem foldl_raster {β : Type} (w h : Nat) (f : β → Nat × Nat → β) (b : β) :
    (raster w h).foldl f b =
      (List.range h).foldl (fun b y => (List.range w).foldl (fun b x => f b (x, y)) b) b := by
  simp only [raster, List.foldl_flatMap, List.foldl_map]

theorem raster_length (w h : Nat) : (raster w h).length = w * h := by
  simp [raster, List.length_flatMap, Nat.mul_comm]

/-- The loop sums the terms of a list and counts them. -/
theorem foldl_sum_count {α : Type} (d : α → F64) (xs : List α) (acc : F64 × Nat) :
    xs.foldl (fun acc x => (fadd acc.1 (d x), acc.2 + 1)) acc =
      (xs.foldl (fun sum x => fadd sum (d x)) acc.1, acc.2 + xs.length) := by
  induction xs generalizing acc with
  | nil => rfl
  | cons x xs ih => rw [List.foldl_cons, ih, List.foldl_cons, List.length_cons, Nat.add_assoc, Nat.add_comm 1]

/-- The two loops give the sum and the number of the sampled blocks. -/
theorem energyRows_eq (s : State) (hyp : Hyp) {stride : Nat} (hs : 0 < stride) :
    Spec.energyRows s hyp.rot hyp.ox hyp.oy stride 8192 0 (0#64, 0) =
      (hypSum s.rgbAt s.width s.height hyp stride, hypCount s.width s.height hyp stride) := by
  have hraster := foldl_raster (samples s.width hyp.ox stride) (samples s.height hyp.oy stride)
    (fun acc ij => takeSample s hyp.rot acc (hyp.ox + stride * ij.1) (hyp.oy + stride * ij.2)) (0#64, 0)
  simp only [energyRows_eq_foldl s _ _ _ hs, energyRow_eq_foldl s _ _ _ hs, ← hraster]
  rw [hypSum, hypCount, ← raster_length]
  simp only [blockDiff_eq_diffAt, takeSample]
  rw [foldl_sum_count, Nat.zero_add]

/-- `Energy` as the model gives it (42_search R145). -/
theorem energyLoop_eq (s : State) (hyp : Hyp) {stride : Nat} (hs : 0 < stride) :
    Spec.energyLoop s hyp.rot hyp.ox hyp.oy stride =
      (hypEnergy s.rgbAt s.width s.height hyp stride, hypCount s.width s.height hyp stride) := by
  simp only [Spec.energyLoop, energyRows_eq s hyp hs, hypEnergy]
  split
  · next h0 => rw [h0]
  · rfl

theorem strideOf_eq_pixels (stride : Stride) : Spec.strideOf stride = stride.pixels := by cases stride <;> rfl

/-- Settles O41: the loops of `Energy` are the sum and the count that HYPE divides. -/
theorem hypeResult : Obligations.HypeResult := by
  intro s rot ox oy stride himage _ _
  have hpos : 0 < stride.pixels := by cases stride <;> decide
  rw [exec_hype rot ox oy stride (State.imageInvalid_eq_false.mpr himage), strideOf_eq_pixels,
    energyLoop_eq s ⟨rot, ox, oy⟩ hpos]
  rfl

/-! ### The hypotheses of a search -/

theorem mem_coarseHyps {h : Hyp} :
    h ∈ coarseHyps ↔ h.ox < 8 ∧ h.oy < 8 ∧ h.ox % 2 = 0 ∧ h.oy % 2 = 0 := by
  obtain ⟨rot, ox, oy⟩ := h
  have hrot : rot ∈ [Rotation.deg0, .deg90, .deg180, .deg270] := by cases rot <;> decide
  have heven : ∀ n, n ∈ [0, 2, 4, 6] ↔ n < 8 ∧ n % 2 = 0 := fun n => by
    simp only [List.mem_cons, List.not_mem_nil, or_false]
    omega
  have hmem : (⟨rot, ox, oy⟩ : Hyp) ∈ coarseHyps ↔ ox ∈ [0, 2, 4, 6] ∧ oy ∈ [0, 2, 4, 6] := by
    simp only [coarseHyps, List.mem_flatMap, List.mem_map, Hyp.mk.injEq]
    constructor
    · rintro ⟨_, -, y, hy, x, hx, -, rfl, rfl⟩
      exact ⟨hx, hy⟩
    · rintro ⟨hx, hy⟩
      exact ⟨rot, hrot, oy, hy, ox, hx, rfl, rfl, rfl⟩
  rw [hmem, heven, heven]
  tauto

/-- A neighbour is a step of at most 1 along each axis, raised by 8, and not the step that stays
(42_search R148). -/
theorem mem_neighbours {c h : Hyp} : h ∈ neighbours c ↔
    ∃ dx dy, 7 ≤ dx ∧ dx ≤ 9 ∧ 7 ≤ dy ∧ dy ≤ 9 ∧ (dx = 8 → dy ≠ 8) ∧
      h = ⟨c.rot, (c.ox + dx) % 8, (c.oy + dy) % 8⟩ := by
  have hpairs : ∀ dx dy, (dx, dy) ∈ [(7, 7), (8, 7), (9, 7), (7, 8), (9, 8), (7, 9), (8, 9), (9, 9)] ↔
      7 ≤ dx ∧ dx ≤ 9 ∧ 7 ≤ dy ∧ dy ≤ 9 ∧ (dx = 8 → dy ≠ 8) := fun dx dy => by
    simp only [List.mem_cons, List.not_mem_nil, or_false, Prod.mk.injEq]
    omega
  simp only [neighbours, List.mem_map, Prod.exists, hpairs, eq_comm (a := h), and_assoc]

/-- One step up, down or none on the circle of the offsets 0..7. -/
theorem circleStep_iff {a b : Nat} (ha : a < 8) :
    (b < 8 ∧ (b = a ∨ b = (a + 1) % 8 ∨ a = (b + 1) % 8)) ↔ ∃ d, 7 ≤ d ∧ d ≤ 9 ∧ b = (a + d) % 8 := by
  constructor
  · rintro ⟨hb, h | h | h⟩
    · exact ⟨8, by omega⟩
    · exact ⟨9, by omega⟩
    · exact ⟨7, by omega⟩
  · rintro ⟨d, hd⟩
    omega

theorem mem_neighbours_iff {c h : Hyp} (hx : c.ox < 8) (hy : c.oy < 8) :
    h ∈ neighbours c ↔ h.rot = c.rot ∧ h.ox < 8 ∧ h.oy < 8 ∧ h ≠ c ∧
      (h.ox = c.ox ∨ h.ox = (c.ox + 1) % 8 ∨ c.ox = (h.ox + 1) % 8) ∧
      (h.oy = c.oy ∨ h.oy = (c.oy + 1) % 8 ∨ c.oy = (h.oy + 1) % 8) := by
  obtain ⟨rot, cx, cy⟩ := c
  obtain ⟨rot', x, y⟩ := h
  simp only [mem_neighbours, ne_eq, Hyp.mk.injEq] at hx hy ⊢
  constructor
  · rintro ⟨dx, dy, hdx, hdx', hdy, hdy', hne, rfl, hxe, hye⟩
    obtain ⟨hx8, hxs⟩ := (circleStep_iff hx).mpr ⟨dx, hdx, hdx', hxe⟩
    obtain ⟨hy8, hys⟩ := (circleStep_iff hy).mpr ⟨dy, hdy, hdy', hye⟩
    exact ⟨rfl, hx8, hy8, by omega, hxs, hys⟩
  · rintro ⟨rfl, hx8, hy8, hne, hxs, hys⟩
    obtain ⟨dx, hdx, hdx', hxe⟩ := (circleStep_iff hx).mp ⟨hx8, hxs⟩
    obtain ⟨dy, hdy, hdy', hye⟩ := (circleStep_iff hy).mp ⟨hy8, hys⟩
    exact ⟨dx, dy, hdx, hdx', hdy, hdy', fun h8 h8' => hne ⟨rfl, by omega, by omega⟩, rfl, hxe, hye⟩

theorem neighbours_nodup (c : Hyp) : (neighbours c).Nodup := by
  refine List.Nodup.map_on (fun d hd e he h => ?_) (by decide)
  obtain ⟨-, hx, hy⟩ := Hyp.mk.inj h
  have hrange : ∀ d ∈ [(7, 7), (8, 7), (9, 7), (7, 8), (9, 8), (7, 9), (8, 9), (9, 9)],
      (7 ≤ d.1 ∧ d.1 ≤ 9) ∧ 7 ≤ d.2 ∧ d.2 ≤ 9 := by decide
  have hd := hrange d hd
  have he := hrange e he
  exact Prod.ext (by omega) (by omega)

/-- Settles O51: the neighbours are the steps on the two circles of offsets but the one that stays. -/
theorem searchEvaluates72Hypotheses : Obligations.SearchEvaluates72Hypotheses := fun c hx hy =>
  ⟨rfl, neighbours_nodup c, fun _ => mem_neighbours_iff hx hy, fun _ => mem_coarseHyps⟩

/-! ### What the stages keep -/

theorem scored_snd (s : State) (hyp : Hyp) :
    (Spec.scored s hyp).2 = hypEnergy s.rgbAt s.width s.height hyp 16 := by
  rw [Spec.scored, energyLoop_eq s hyp (by omega)]

/-- A scored hypothesis as the loops of the specification hold it. -/
def Scored.toPair (b : Scored) : Hyp × F64 := (b.hyp, b.energy)

theorem scored_eq (s : State) (hyp : Hyp) :
    Spec.scored s hyp = (score s.rgbAt s.width s.height hyp).toPair := Prod.ext rfl (scored_snd s hyp)

theorem toPair_keepBetter (b c : Scored) :
    (keepBetter b c).toPair = if flt b.toPair.2 c.toPair.2 then c.toPair else b.toPair :=
  apply_ite Scored.toPair _ c b

theorem takeBetter_toPair (b c : Scored) :
    Spec.takeBetter (some b.toPair) c.toPair = some (keepBetter b c).toPair := by
  rw [toPair_keepBetter, Spec.takeBetter, apply_ite some]

/-- The coarse stage as one loop over the 64 hypotheses. -/
theorem coarseLoop_eq_foldl (s : State) : Spec.coarseLoop s =
    coarseHyps.foldl (fun best hyp => Spec.takeBetter best (Spec.scored s hyp)) none := by
  simp only [coarseHyps, List.foldl_flatMap, List.foldl_map]
  rfl

theorem coarseHyps_eq_cons : coarseHyps = ⟨.deg0, 0, 0⟩ :: coarseHyps.tail := rfl

/-- `CoarseStage` as the model gives it (42_search R147). -/
theorem coarseLoop_eq (s : State) :
    Spec.coarseLoop s = some (coarseStage s.rgbAt s.width s.height).toPair := by
  simp only [coarseLoop_eq_foldl, scored_eq]
  rw [coarseHyps_eq_cons, List.foldl_cons]
  exact List.foldl_hom (fun b : Scored => some b.toPair) fun b _ => takeBetter_toPair b _

theorem neighbour_eq (c : Hyp) {dx dy : Int} (hx : -8 ≤ dx) (hy : -8 ≤ dy) :
    Spec.neighbour c dx dy = ⟨c.rot, (c.ox + (dx + 8).toNat) % 8, (c.oy + (dy + 8).toNat) % 8⟩ := by
  rw [Spec.neighbour, Hyp.mk.injEq]
  exact ⟨rfl, by omega, by omega⟩

/-- The refinement as one loop over the 8 neighbours. -/
theorem refineLoop_eq_foldl (s : State) (best : Hyp × F64) : Spec.refineLoop s best =
    (neighbours best.1).foldl
      (fun b hyp => if flt b.2 (Spec.scored s hyp).2 then Spec.scored s hyp else b) best := by
  simp [Spec.refineLoop, neighbours, neighbour_eq]

/-- `RefineStage` as the model gives it (42_search R148). -/
theorem refineLoop_eq (s : State) (b : Scored) :
    Spec.refineLoop s b.toPair = (refineStage s.rgbAt s.width s.height b).toPair := by
  simp only [refineLoop_eq_foldl, scored_eq]
  exact List.foldl_hom Scored.toPair fun b _ => (toPair_keepBetter b _).symm

theorem State.refineLoop_coarse (s : State) :
    Spec.refineLoop s (coarseStage s.rgbAt s.width s.height).toPair = s.winner.toPair := refineLoop_eq s _

/-- The best coarse hypothesis is one of the 64, with its own energy. -/
theorem coarseStage_mem (px : Nat → Nat → Rgb) (w h : Nat) :
    coarseStage px w h = score px w h (coarseStage px w h).hyp ∧ (coarseStage px w h).hyp ∈ coarseHyps := by
  obtain ⟨hscore, hmem⟩ := foldl_keepBetter_mem px w h coarseHyps.tail (score px w h ⟨.deg0, 0, 0⟩) rfl
  exact ⟨hscore, List.mem_cons.mpr hmem⟩

/-- The hypotheses that a search of the image in PIX evaluates. -/
def State.evaluated (s : State) : List Hyp :=
  coarseHyps ++ neighbours (coarseStage s.rgbAt s.width s.height).hyp

/-- The winner is one of the evaluated hypotheses, with its own energy. -/
theorem State.winner_mem (s : State) :
    s.winner.energy = hypEnergy s.rgbAt s.width s.height s.winner.hyp 16 ∧ s.winner.hyp ∈ s.evaluated := by
  obtain ⟨hcoarse, hmem⟩ := coarseStage_mem s.rgbAt s.width s.height
  obtain ⟨hscore, hwin⟩ := foldl_keepBetter_mem s.rgbAt s.width s.height
    (neighbours (coarseStage s.rgbAt s.width s.height).hyp) _ hcoarse
  refine ⟨congrArg Scored.energy hscore, List.mem_append.mpr (hwin.imp_left fun h => ?_)⟩
  rw [State.winner, searchWinner, refineStage, h]
  exact hmem

theorem offsets_lt_of_mem_evaluated {s : State} {h : Hyp} (hm : h ∈ s.evaluated) : h.ox < 8 ∧ h.oy < 8 := by
  rcases List.mem_append.mp hm with hm | hm
  · obtain ⟨hx, hy, -⟩ := mem_coarseHyps.mp hm
    exact ⟨hx, hy⟩
  · obtain ⟨dx, dy, -, -, -, -, -, rfl⟩ := mem_neighbours.mp hm
    exact ⟨Nat.mod_lt _ (by omega), Nat.mod_lt _ (by omega)⟩

theorem State.finishSearch_recordWinner (s : State) (b : Scored) :
    (s.recordWinner b).finishSearch b.energy =
      { Spec.checkedSignal s b.energy with
        result := { rot := b.hyp.rot, ox := BitVec.ofNat 3 b.hyp.ox, oy := BitVec.ofNat 3 b.hyp.oy }
        conf := b.energy } := by
  have hfloor : (s.recordWinner b).floor = s.floor := rfl
  rw [State.finishSearch, Spec.checkedSignal, hfloor]
  cases flt s.floor b.energy <;> rfl

/-- Settles O42: the loops of the two stages are the folds of the model, and the winner is one of the
hypotheses that they evaluate. -/
theorem searchResult : Obligations.SearchResult := by
  intro s himage
  obtain ⟨hx, hy⟩ := offsets_lt_of_mem_evaluated s.winner_mem.2
  refine ⟨_, _, coarseLoop_eq s, s.refineLoop_coarse.symm, hx, hy, ?_⟩
  rw [exec_search (State.imageInvalid_eq_false.mpr himage), State.finishSearch_recordWinner]
  rfl

/-! ### The maximum that the stages keep -/

/-- What is below a number that is at most another is below that other. -/
theorem flt_of_flt_of_not_flt {x y z : F64} (hxy : flt x y = true) (hzy : flt z y = false)
    (hz : notNegative z) : flt x z = true := by
  by_contra hxz
  simp [flt_false_trans (Bool.eq_false_of_not_eq_true hxz) hzy hz] at hxy

/-- What is at most a number that is below another is below that other. -/
theorem flt_of_not_flt_of_flt {x y z : F64} (hyx : flt y x = false) (hyz : flt y z = true)
    (hx : notNegative x) : flt x z = true := by
  by_contra hxz
  simp [flt_false_trans hyx (Bool.eq_false_of_not_eq_true hxz) hx] at hyz

section
variable (px : Nat → Nat → Rgb) {w h : Nat} (hw : w < 8192) (hh : h < 8192)
include hw hh

/-- A pass from a scored hypothesis keeps the first of those with the greatest energy: each one before it has
less. -/
theorem foldl_keepBetter_first (hyps : List Hyp) (b : Scored) (hb : b = score px w h b.hyp) :
    let r := hyps.foldl (fun best hyp => keepBetter best (score px w h hyp)) b
    ∃ before after, b.hyp :: hyps = before ++ r.hyp :: after ∧
      ∀ x ∈ before, flt (hypEnergy px w h x 16) r.energy = true := by
  induction hyps generalizing b with
  | nil => exact ⟨[], [], rfl, fun _ hx => absurd hx List.not_mem_nil⟩
  | cons hyp hyps ih =>
    have henergy : b.energy = hypEnergy px w h b.hyp 16 := congrArg Scored.energy hb
    simp only [List.foldl_cons]
    rcases keepBetter_cases b (score px w h hyp) with ⟨hk, hle⟩ | ⟨hk, hlt⟩
    · rw [hk]
      obtain ⟨before, after, heq, hless⟩ := ih b hb
      cases before with
      | nil =>
        obtain ⟨hhyp, -⟩ := List.cons.inj heq
        exact ⟨[], hyp :: hyps, by rw [hhyp]; rfl, hless⟩
      | cons x before =>
        obtain ⟨rfl, htail⟩ := List.cons.inj heq
        obtain ⟨hbest, hrest⟩ := List.forall_mem_cons.mp hless
        have hskip := flt_of_not_flt_of_flt hle (henergy ▸ hbest) (nonNeg_hypEnergy px hw hh hyp 16)
        exact ⟨b.hyp :: hyp :: before, after, congrArg (b.hyp :: hyp :: ·) htail,
          List.forall_mem_cons.mpr ⟨hbest, List.forall_mem_cons.mpr ⟨hskip, hrest⟩⟩⟩
    · rw [hk]
      obtain ⟨before, after, heq, hless⟩ := ih (score px w h hyp) rfl
      obtain ⟨hnonneg, hmax, -⟩ := foldl_keepBetter_max px hw hh hyps (score px w h hyp)
        (nonNeg_hypEnergy px hw hh hyp 16)
      have hpassed := flt_of_flt_of_not_flt hlt hmax hnonneg
      exact ⟨b.hyp :: before, after, congrArg (b.hyp :: ·) heq,
        List.forall_mem_cons.mpr ⟨henergy ▸ hpassed, hless⟩⟩

/-- The best coarse hypothesis has an energy that none of the 64 exceeds (42_search R147). -/
theorem coarseStage_max : notNegative (coarseStage px w h).energy ∧
    ∀ x ∈ coarseHyps, flt (coarseStage px w h).energy (hypEnergy px w h x 16) = false := by
  obtain ⟨hnonneg, hfirst, hrest⟩ := foldl_keepBetter_max px hw hh coarseHyps.tail
    (score px w h ⟨.deg0, 0, 0⟩) (nonNeg_hypEnergy px hw hh _ 16)
  exact ⟨hnonneg, List.forall_mem_cons.mpr ⟨hfirst, hrest⟩⟩

end

/-- Settles O49: the pass over the coarse hypotheses keeps the first maximum. -/
theorem coarseStageKeepsTheFirstMaximum : Obligations.CoarseStageKeepsTheFirstMaximum := by
  intro s _
  obtain ⟨hscore, -⟩ := coarseStage_mem s.rgbAt s.width s.height
  obtain ⟨before, after, heq, hless⟩ := foldl_keepBetter_first s.rgbAt (w := s.width) (h := s.height)
    s.imgW.isLt s.imgH.isLt coarseHyps.tail (score s.rgbAt s.width s.height ⟨.deg0, 0, 0⟩) rfl
  simp only [scored_snd]
  exact ⟨rfl, before, after, _, rfl, heq, congrArg Scored.energy hscore,
    (coarseStage_max s.rgbAt s.imgW.isLt s.imgH.isLt).2, hless⟩

/-- The winner has an energy that none of the evaluated hypotheses exceeds (42_search R147, R148). -/
theorem State.winner_max (s : State) :
    ∀ h ∈ s.evaluated, flt s.winner.energy (hypEnergy s.rgbAt s.width s.height h 16) = false := by
  obtain ⟨hnonneg, hcoarse⟩ := coarseStage_max s.rgbAt (w := s.width) (h := s.height) s.imgW.isLt s.imgH.isLt
  obtain ⟨-, hbest, hrefine⟩ := foldl_keepBetter_max s.rgbAt (w := s.width) (h := s.height) s.imgW.isLt
    s.imgH.isLt (neighbours (coarseStage s.rgbAt s.width s.height).hyp) _ hnonneg
  intro h hm
  rcases List.mem_append.mp hm with hm | hm
  · exact flt_false_trans hbest (hcoarse h hm) hnonneg
  · exact hrefine h hm

/-- The winner is above FLOOR if any evaluated hypothesis is. -/
theorem State.floor_not_below_winner_iff (s : State) : flt s.floor s.winner.energy = false ↔
    ∀ h ∈ s.evaluated, flt s.floor (hypEnergy s.rgbAt s.width s.height h 16) = false := by
  obtain ⟨henergy, hmem⟩ := s.winner_mem
  constructor
  · exact fun hw h hm => flt_false_trans hw (s.winner_max h hm) (nonNeg_winner s)
  · intro hall
    rw [henergy]
    exact hall _ hmem

/-- Settles O50: FLOOR is compared with the winner, the greatest of the evaluated hypotheses. -/
theorem noSignalMeansNoneAboveFloor : Obligations.NoSignalMeansNoneAboveFloor := by
  intro s himage
  have hcode : ((s.recordWinner s.winner).finishSearch s.winner.energy).status.code = .noSignalDetected ↔
      flt s.floor s.winner.energy = false := by
    rw [State.finishSearch_recordWinner, Spec.checkedSignal]
    cases flt s.floor s.winner.energy <;> simp [Spec.completed]
  simp only [scored_snd]
  exact ⟨_, exec_search (State.imageInvalid_eq_false.mpr himage), hcode.trans s.floor_not_below_winner_iff⟩

end Sys2Proof.Machine
end

section
/-! PROOF. The Vote Aggregator: the remapped block grid, the vote entries as the sums of 43_vote R163, and the
commands VOTE and DECODE (43_vote R160 to R167). -/

namespace Sys2Proof.Machine

/-! ### The remapped grid -/

theorem remap_eq (rot : Rotation) (bw bh x y : Nat) :
    remap bw bh rot x y = (Spec.remapX rot bw bh x y, Spec.remapY rot bw bh x y) := by cases rot <;> rfl

section
variable {bw bh x y x' y' : Nat} (hx : x < bw) (hy : y < bh)
include hx hy

/-- Turned by 0 or 180 degrees, the grid keeps its sides. -/
theorem remap_lt_of_upright {rot : Rotation} (hrot : rot = .deg0 ∨ rot = .deg180) :
    (remap bw bh rot x y).1 < bw ∧ (remap bw bh rot x y).2 < bh := by
  rcases hrot with rfl | rfl
  · exact ⟨hx, hy⟩
  · simp only [remap]
    omega

/-- Turned by 90 or 270 degrees, the grid changes its sides. -/
theorem remap_lt_of_sideways {rot : Rotation} (hrot : rot = .deg90 ∨ rot = .deg270) :
    (remap bw bh rot x y).1 < bh ∧ (remap bw bh rot x y).2 < bw := by
  rcases hrot with rfl | rfl <;> simp only [remap] <;> omega

theorem remap_injective {rot : Rotation} (hx' : x' < bw) (hy' : y' < bh)
    (h : remap bw bh rot x y = remap bw bh rot x' y') : x = x' ∧ y = y' := by
  cases rot <;> simp only [remap, Prod.mk.injEq] at h <;> omega

end

/-- Settles O53: each coordinate is one of the block's, counted from one end of its side or from the other. -/
theorem remapIsOneToOneIntoTheGrid : Obligations.RemapIsOneToOneIntoTheGrid :=
  fun rot bw bh x y _ _ hx hy hx' hy' =>
    ⟨remap_lt_of_upright hx hy, remap_lt_of_sideways hx hy, remap_eq rot bw bh x y,
      remap_injective hx hy hx' hy'⟩

/-! ### The scan at the origin -/

theorem gridBlocks_zero (size : Nat) : gridBlocks size 0 = size / 8 := by
  unfold gridBlocks
  split <;> omega

theorem loadBlock_deg0 (px : Nat → Nat → Rgb) (x0 y0 : Nat) :
    loadBlock px x0 y0 .deg0 = lumaBlock px x0 y0 := rfl

/-- Settles O57: at rotation 0 neither the pixels of a block nor the blocks of the grid are turned. -/
theorem voteAtTheOriginVisitsTheEmbeddingGrid : Obligations.VoteAtTheOriginVisitsTheEmbeddingGrid := by
  refine ⟨gridBlocks_zero, fun px bx by' => ?_, fun _ _ _ _ _ => rfl⟩
  rw [Nat.zero_add, Nat.zero_add, loadBlock_deg0]

/-! ### The sums in V -/

theorem entry_modify {c : List F64} {k : Nat} (f : F64 → F64) (j : Nat) (h : k < c.length) :
    entry (c.modify j f) k = if j = k then f (entry c k) else entry c k := by
  rw [entry_of_lt (by simpa using h), entry_of_lt h, List.getElem_modify]

/-- A block changes the entry at its own index and no other (43_vote R163). -/
theorem entry_castVote (px : Nat → Nat → Rgb) (w h sqw : Nat) (hyp : Hyp) {vs : List F64} (b : Nat × Nat)
    {k : Nat} (hk : k < vs.length) : entry (castVote px w h sqw hyp vs b) k =
      if voteIndex w h sqw hyp b.1 b.2 = k then
        fadd (entry vs k) (blockDiff px (hyp.ox + 8 * b.1) (hyp.oy + 8 * b.2) hyp.rot)
      else entry vs k := entry_modify _ _ hk

/-- One entry of V over a scan: the differences of the blocks of its index, in the order of the scan. -/
theorem entry_foldl_castVote (px : Nat → Nat → Rgb) (w h sqw : Nat) (hyp : Hyp) {k : Nat}
    (bs : List (Nat × Nat)) (vs : List F64) (hk : k < vs.length) :
    entry (bs.foldl (castVote px w h sqw hyp) vs) k =
      bs.foldl (fun sum b => if voteIndex w h sqw hyp b.1 b.2 = k then
        fadd sum (blockDiff px (hyp.ox + 8 * b.1) (hyp.oy + 8 * b.2) hyp.rot) else sum) (entry vs k) := by
  induction bs generalizing vs with
  | nil => rfl
  | cons b bs ih =>
    rw [List.foldl_cons, List.foldl_cons, ih _ (by simpa using hk), entry_castVote _ _ _ _ _ _ hk]

theorem entry_replicate {n k : Nat} (x : F64) (h : k < n) : entry (List.replicate n x) k = x :=
  List.getD_replicate _ h

theorem voteIndex_eq (s : State) (hyp : Hyp) (x y : Nat) :
    voteIndex s.width s.height s.sqw.toNat hyp x y = Spec.decoderIndex s.sqw.toNat
      (Spec.remapX hyp.rot (Spec.gridSize s.imgW.toNat hyp.ox) (Spec.gridSize s.imgH.toNat hyp.oy) x y)
      (Spec.remapY hyp.rot (Spec.gridSize s.imgW.toNat hyp.ox) (Spec.gridSize s.imgH.toNat hyp.oy) x y) := by
  rw [voteIndex, remap_eq]
  rfl

/-- Every entry of V is the sum of the rule (43_vote R163). -/
theorem entry_voteSums (s : State) (hyp : Hyp) {k : Nat} (hk : k < Config.voteCap) :
    entry (voteSums s.rgbAt s.width s.height s.sqw.toNat hyp) k = Spec.votedSum s hyp.rot hyp.ox hyp.oy k := by
  have hlen : k < (List.replicate Config.voteCap (0#64 : F64)).length := List.length_replicate.symm ▸ hk
  rw [voteSums, entry_foldl_castVote _ _ _ _ _ _ _ hlen, entry_replicate _ hk, foldl_raster]
  simp only [voteIndex_eq, blockDiff_eq_diffAt]
  rfl

/-! ### VOTE -/

theorem decodedBits_eq_bitCount (s : State) : decodedBits s.sqw.toNat = Spec.bitCount s := rfl

/-- The full-decode stage leaves in V and in the payload bits what the rules say, and changes no other byte and
no other payload bit (43_vote R163 to R165). -/
theorem State.decodedAt_fullDecode {s : State} (hyp : Hyp) (hq : s.sqw.toNat ≤ 64) :
    Spec.decodedAt s (s.fullDecode hyp) hyp.rot hyp.ox hyp.oy := by
  have hN : Spec.bitCount s ≤ 4096 := decodedBits_le hq
  refine ⟨fun k hk => ?_, fun k hk => ?_, fun i hi hi' => ?_, fun a hvotes hbits => ?_⟩
  · rw [← entry_voteSums s hyp hk]
    exact State.vote_fullDecode hyp hq hk
  · rw [State.pbit_fullDecode hyp (by omega), decodedBits_eq_bitCount, if_pos hk,
      entry_voteSums s hyp (hk.trans_le hN)]
  · rw [State.pbit_fullDecode hyp hi', decodedBits_eq_bitCount, if_neg (by omega)]
  · exact State.byteAt_fullDecode_of_outside hvotes hbits

/-- Settles O43: the command is the full-decode stage and its completion, which changes no byte. -/
theorem voteResult : Obligations.VoteResult := by
  intro s rot ox oy himage hq _ _
  exact ⟨_, exec_vote rot ox oy (State.imageInvalid_eq_false.mpr himage) hq, rfl,
    State.decodedAt_fullDecode ⟨rot, ox, oy⟩ hq⟩

/-! ### DECODE -/

/-- The full-decode stage neither reads nor writes what a completion writes: after a completion and with its
STATUS kept, it ends as it does before that completion. -/
theorem State.completeWith_fullDecode (s : State) (c : Code) (hyp : Hyp) :
    { ((s.completeWith c).fullDecode hyp).succeed with status := (s.completeWith c).status } =
      (s.fullDecode hyp).completeWith c := rfl

/-- RESULT holds the winner, whose offsets fit their fields (10_state R36; 42_search R149). -/
theorem State.recordWinner_hyp {s : State} {b : Scored} (hx : b.hyp.ox < 8) (hy : b.hyp.oy < 8) :
    (⟨(s.recordWinner b).result.rot, (s.recordWinner b).result.ox.toNat,
      (s.recordWinner b).result.oy.toNat⟩ : Hyp) = b.hyp := by
  rw [State.recordWinner_eq, State.setWinner_result, BitVec.toNat_ofNat, BitVec.toNat_ofNat, Nat.mod_eq_of_lt hx,
    Nat.mod_eq_of_lt hy]

/-- Settles O44: VOTE at RESULT is the full-decode stage at the winner, and that stage may come before the
completion of the search or after it. -/
theorem decodeIsSearchThenVote : Obligations.DecodeIsSearchThenVote := by
  intro s himage hq
  have hi := State.imageInvalid_eq_false.mpr himage
  obtain ⟨hx, hy⟩ := offsets_lt_of_mem_evaluated s.winner_mem.2
  have hsearch := exec_search hi
  have hdecode := exec_decode hi hq
  rw [State.finishSearch_eq] at hsearch hdecode
  rw [State.fullDecode_floor] at hdecode
  refine ⟨_, _, hsearch, exec_vote _ _ _ hi hq, ?_⟩
  rw [hdecode, ← State.completeWith_fullDecode, ← State.recordWinner_hyp (s := s) hx hy]
  rfl

end Sys2Proof.Machine
end

section
/-! PROOF. The Payload Serializer and Deserializer: a payload byte by its bits, the commands SER and DESER, and
their round trip (44_payload R180 to R182). -/

namespace Sys2Proof.Machine

/-! ### Bytes by their bits, the most significant first -/

theorem byte_eq_of_bits {a b : Byte} (h : ∀ u, u < 8 → a.getLsbD (7 - u) = b.getLsbD (7 - u)) : a = b :=
  BitVec.eq_of_getLsbD_eq fun i hi => by
    have hbit := h (7 - i) (by omega)
    rwa [Nat.sub_sub_self (Nat.le_of_lt_succ hi)] at hbit

/-- Payload bit 8j + u is bit 7 − u of payload byte j (20_memory R66). -/
theorem State.pbit_eq (s : State) (j : Nat) {u : Nat} (hu : u < 8) :
    s.pbit (8 * j + u) = (s.byteAt (0x2000 + j)).getLsbD (7 - u) := by
  rw [State.pbit, show (8 * j + u) / 8 = j by omega, show (8 * j + u) % 8 = u by omega]
  rfl

/-! ### SER -/

theorem State.serBit_eq (s : State) (j : Nat) {u : Nat} (hu : u < 8) :
    s.serBit (8 * j + u) = (s.serByte j).getLsbD (7 - u) := by
  rw [State.serBit, show (8 * j + u) / 8 = j by omega, show (8 * j + u) % 8 = u by omega]

/-- Each stored payload bit is the bit of its serialized byte (44_payload R180). -/
theorem State.pbit_storePbits_serBit (s : State) {n j u : Nat} (hj : j < n) (hu : u < 8) :
    (s.storePbits (8 * n) s.serBit).pbit (8 * j + u) = (s.serByte j).getLsbD (7 - u) := by
  rw [State.pbit_storePbits, if_pos (by omega), State.serBit_eq s j hu]

/-- SER copies each serialized byte to its payload byte (44_payload R180). -/
theorem State.byteAt_storePbits_serBit (s : State) {n j : Nat} (hj : j < n) :
    (s.storePbits (8 * n) s.serBit).byteAt (0x2000 + j) = s.serByte j :=
  byte_eq_of_bits fun u hu => by rw [← State.pbit_eq _ _ hu, State.pbit_storePbits_serBit s hj hu]

/-- Settles O46: the completion and PAYLOAD_LEN change no byte, and the stored bits are whole bytes. -/
theorem serResult : Obligations.SerResult := by
  intro s hlen
  refine ⟨_, exec_ser hlen, rfl, fun j u hj hu => ?_, fun j hj => ?_, fun a ha => ?_⟩
  · exact State.pbit_storePbits_serBit s (Nat.lt_succ_of_le hj) hu
  · exact State.byteAt_storePbits_serBit s (Nat.lt_succ_of_le hj)
  · exact State.byteAt_storePbits_of_outside (by omega)

/-! ### DESER -/

theorem State.deserCount_eq (s : State) :
    s.deserCount = (s.payloadLen.toNat - s.bitOffset.toNat) / 8 := by
  unfold State.deserCount
  split <;> omega

theorem State.deserByte_bit (s : State) (j : Nat) {u : Nat} (hu : u < 8) :
    (s.deserByte j).getLsbD (7 - u) = s.pbit (s.bitOffset.toNat + 8 * j + u) :=
  packByte_getLsbD _ hu

/-- Each stored text byte is the packed byte (44_payload R181). -/
theorem State.textByte_storeText_deserByte (s : State) {n j : Nat} (hj : j < n) :
    (s.storeText ((List.range n).map s.deserByte)).textByte j = s.deserByte j := by
  simp [State.textByte_storeText, hj]

/-- Settles O47: BYTE_COUNT has room for the number of whole bytes, and each of them is a packed byte. -/
theorem deserResult : Obligations.DeserResult := by
  intro s hlen
  have hle := State.deserCount_le hlen
  have hcount : (BitVec.ofNat 10 s.deserCount).toNat = s.deserCount := by
    rw [BitVec.toNat_ofNat, Nat.mod_eq_of_lt (by omega)]
  refine ⟨_, exec_deser hlen, rfl, hcount.trans s.deserCount_eq, fun j u hj hu => ?_, fun a ha => ?_⟩
  · rw [← State.deserByte_bit s j hu, ← State.textByte_storeText_deserByte s (hj.trans_eq hcount)]
    rfl
  · refine State.byteAt_store_of_outside (ha.imp_right fun ha => ?_)
    rw [List.length_map, List.length_range, ← hcount]
    exact ha

/-! ### The round trip -/

/-- Settles O48: both commands take the bits of a byte in the same order, so at bit offset 0 each text byte that
DESER packs is the payload byte that SER wrote. -/
theorem serThenDeserReturnsTheText : Obligations.SerThenDeserReturnsTheText := by
  intro s hlen hoff
  obtain ⟨a, hser, hregs, hserBits, -, -⟩ := serResult s hlen
  have haoff : a.bitOffset.toNat = 0 := by rw [hregs]; exact congrArg BitVec.toNat hoff
  have halen : a.payloadLen.toNat = 8 * (s.textLen.toNat + 1) := by
    rw [hregs]
    exact (BitVec.toNat_ofNat _ _).trans (Nat.mod_eq_of_lt (by omega))
  obtain ⟨t, hdeser, -, hcount, hdeserBits, -⟩ := deserResult a (by omega)
  have htcount : t.byteCount.toNat = s.textLen.toNat + 1 := by omega
  have hbyte : ∀ j, j ≤ s.textLen.toNat → t.byteAt (0x2400 + j) =
      if j < s.textLen.toNat then s.byteAt (0x2400 + j) else 0x03#8 := fun j hj =>
    byte_eq_of_bits fun u hu => by
      rw [hdeserBits j u (by omega) hu, haoff, Nat.zero_add, hserBits j u hj hu]
  refine ⟨a, t, hser, hdeser, fun j hj => ?_, ?_, htcount⟩
  · rw [hbyte j hj.le, if_pos hj]
  · rw [hbyte _ le_rfl, if_neg (lt_irrefl _)]

end Sys2Proof.Machine
end

section
/-! PROOF. The life of a command: its checks in their order, its one completion, the step that runs it, its
acceptance and the interrupt output (60_exceptions R200 to R209). -/

namespace Sys2Proof.Machine

/-! ### Checks in their order -/

/-- A last check, whose failure is the proposition `p`. -/
theorem firstFailing_last_iff {b : Bool} {c e : Code} {p : Prop} (hb : b = true ↔ p) :
    firstFailing [(b, c)] = some e ↔ e = c ∧ p := by
  cases b <;> simp [firstFailing, ← hb, eq_comm]

/-- A check that passes if and only if `p` holds: it is reported, or the checks after it decide. -/
theorem firstFailing_cons_iff {b : Bool} {c e : Code} {rest : List (Bool × Code)} {p : Prop}
    (hb : b = true ↔ ¬ p) :
    firstFailing ((b, c) :: rest) = some e ↔ ¬ p ∧ e = c ∨ p ∧ firstFailing rest = some e := by
  cases b
  · have hp : p := by simpa using hb
    simp [firstFailing, hp]
  · have hp : ¬ p := by simpa using hb
    simp [firstFailing, hp, eq_comm]

theorem State.sqwBad_iff {s : State} : s.sqwBad = true ↔ 64 < s.sqw.toNat := decide_eq_true_iff

theorem State.blkPosBad_iff {s : State} : s.blkPosBad = true ↔
    s.imgW.toNat < s.blkPos.x0.toNat + 8 ∨ s.imgH.toNat < s.blkPos.y0.toNat + 8 := by
  rw [State.blkPosBad, Bool.or_eq_true, decide_eq_true_iff, decide_eq_true_iff]
  rfl

theorem State.embedParamsBad_iff {s : State} : s.embedParamsBad = true ↔
    4096 < s.payloadLen.toNat ∨ s.strength.toNat = 0 ∨ 64 < s.sqw.toNat ∨
      s.sqw.toNat ≠ 0 ∧ s.payloadLen.toNat ≠ s.sqw.toNat ^ 2 := by
  simp only [State.embedParamsBad, Bool.or_eq_true, Bool.and_eq_true, decide_eq_true_iff, or_assoc, pow_two]
  rfl

/-- The first failing check of a command is the first error of its row in the table of 60_exceptions R201. -/
theorem firstFailing_checksOf_iff {i : Instr} {s : State} {e : Code} :
    firstFailing (checksOf i s) = some e ↔ Spec.FirstError i s e := by
  have himage {rest : List (Bool × Code)} : firstFailing ((s.imageInvalid, .invalidImage) :: rest) = some e ↔
      ¬ Spec.imageOk s ∧ e = .invalidImage ∨ Spec.imageOk s ∧ firstFailing rest = some e :=
    firstFailing_cons_iff State.imageInvalid_eq_true
  cases i with
  | nop => exact iff_of_false (nomatch ·) id
  | fdct => exact iff_of_false (nomatch ·) id
  | idct => exact iff_of_false (nomatch ·) id
  | margin bit => exact (firstFailing_last_iff decide_eq_true_iff).trans and_comm
  | ldluma rot =>
    exact himage.trans (or_congr_right (and_congr_right' (firstFailing_last_iff State.blkPosBad_iff)))
  | hype rot ox oy stride => exact (firstFailing_last_iff State.imageInvalid_eq_true).trans and_comm
  | search => exact (firstFailing_last_iff State.imageInvalid_eq_true).trans and_comm
  | vote rot ox oy =>
    exact himage.trans (or_congr_right (and_congr_right' (firstFailing_last_iff State.sqwBad_iff)))
  | decode =>
    exact himage.trans (or_congr_right (and_congr_right' (firstFailing_last_iff State.sqwBad_iff)))
  | embed =>
    have hlength : decide (s.payloadLen.toNat = 0) = true ↔ ¬ s.payloadLen.toNat ≠ 0 := by simp
    refine himage.trans (or_congr_right ?_)
    rw [firstFailing_cons_iff hlength, firstFailing_last_iff State.embedParamsBad_iff, not_not, and_or_left]
  | ser => exact (firstFailing_last_iff decide_eq_true_iff).trans and_comm
  | deser => exact (firstFailing_last_iff decide_eq_true_iff).trans and_comm

/-- A command that fails a check completes with its error and nothing else. -/
theorem exec_of_firstError {i : Instr} {s : State} {e : Code} (h : Spec.FirstError i s e) :
    exec i s = .next (Spec.completed s e true false) := by
  rw [exec_eq_runChecked, runChecked, firstFailing_checksOf_iff.mpr h]
  rfl

/-- A command that fails no check runs its statements. -/
theorem exec_of_no_firstError {i : Instr} {s : State} (h : ∀ e, ¬ Spec.FirstError i s e) :
    exec i s = .next ((effectOf i s).completeWith (codeOf i s)) := by
  have hpass : firstFailing (checksOf i s) = none :=
    Option.eq_none_iff_forall_ne_some.mpr fun e he => h e (firstFailing_checksOf_iff.mp he)
  rw [exec_eq_runChecked, runChecked, hpass]

theorem codeOf_cases (i : Instr) (s : State) :
    codeOf i s = .none ∨ codeOf i s = .noSignalDetected ∧ (i = .search ∨ i = .decode) := by
  cases i with
  | search => unfold codeOf; split <;> simp
  | decode => unfold codeOf; split <;> simp
  | _ => exact .inl rfl

/-- Settles O9: the checks of each command, in the order of the model, are its row of the table. -/
theorem fatalErrorsArePrecise : Obligations.FatalErrorsArePrecise := by
  refine ⟨fun i s e h => exec_of_firstError h, fun i s h => ⟨_, exec_of_no_firstError h, ?_⟩,
    fun s e h => State.runCommand_of_error h⟩
  change (codeOf i s).fatal = false
  rcases codeOf_cases i s with hc | ⟨hc, -⟩ <;> rw [hc] <;> rfl

/-! ### The completion of every command -/

/-- No check reports IllegalCommand, which is the decoder's to report (30_encoding R88, R89). -/
theorem checksOf_ne_illegalCommand (i : Instr) (s : State) : ∀ c ∈ checksOf i s, c.2 ≠ .illegalCommand := by
  cases i <;> simp [checksOf]

theorem effectOf_status (i : Instr) (s : State) : (effectOf i s).status = s.status := by
  obtain ⟨m, p, r, c, b, e, n, k, h⟩ := effectOf_eq i s
  rw [h]

/-- Every command ends in one completion with a code that is not IllegalCommand, and only SEARCH and DECODE
with NoSignalDetected. -/
theorem exec_completes (i : Instr) (s : State) : ∃ (u : State) (c : Code),
    exec i s = .next (u.completeWith c) ∧ u.status = s.status ∧ c ≠ .illegalCommand ∧
      (c = .noSignalDetected → i = .search ∨ i = .decode) := by
  rw [exec_eq_runChecked]
  rcases runChecked_cases s (checksOf i s) fun s => (effectOf i s).completeWith (codeOf i s) with
    ⟨c, hc, -, -, h⟩ | ⟨-, h⟩
  · have hf := checksOf_fatal i s c hc
    rw [raise_of_fatal s hf] at h
    exact ⟨_, _, h, rfl, checksOf_ne_illegalCommand i s c hc, fun hn => by rw [hn] at hf; cases hf⟩
  · refine ⟨_, _, h, effectOf_status i s, ?_⟩
    rcases codeOf_cases i s with hc | ⟨hc, hi⟩ <;> rw [hc]
    · exact ⟨nofun, nofun⟩
    · exact ⟨nofun, fun _ => hi⟩

/-- The codes of a fatal error that a named command can report (60_exceptions R200, R201). -/
theorem Code.fatal_iff {c : Code} (h : c ≠ .illegalCommand) :
    c.fatal = true ↔ c = .emptyPayload ∨ c = .invalidImage ∨ c = .badParameter := by
  cases c with
  | illegalCommand => exact absurd rfl h
  | _ => decide

/-- The running command ends in one completion, which changes neither DONE_IE nor the coming turns. -/
theorem State.runCommand_completes (s : State) : ∃ t, s.runCommand = .next t ∧ t.status.busy = false ∧
    t.doneIp = true ∧ t.doneIe = s.doneIe ∧ t.turns = s.turns := by
  rcases s.runCommand_cases with ⟨e, -, he⟩ | ⟨i, -, -, he⟩
  · exact ⟨_, he, rfl, rfl, rfl, rfl⟩
  · obtain ⟨m, p, r, c, b, e, n, k, h⟩ := effectOf_eq i s
    rw [h] at he
    exact ⟨_, he, rfl, rfl, rfl, rfl⟩

/-! ### The step -/

theorem step_of_reset {s : State} (h : s.turn.reset = true) : step s = .next s.popTurn.applyReset := by
  rw [step, State.advance, if_pos h]

/-- A step in which the running command takes its step. -/
theorem step_of_engineMoves {s : State} (hr : s.turn.reset = false) (h : s.engineMoves = true) :
    step s = s.hostPart.runCommand := by
  rw [step, State.advance, hr, h]
  rfl

/-- A step in which no command takes its step. -/
theorem step_of_not_engineMoves {s : State} (hr : s.turn.reset = false) (h : s.engineMoves = false) :
    step s = .next s.hostPart := by
  rw [step, State.advance, hr, h]
  rfl

theorem exists_step (s : State) : ∃ t, step s = .next t := by
  cases hr : s.turn.reset with
  | true => exact ⟨_, step_of_reset hr⟩
  | false =>
    cases h : s.engineMoves with
    | true =>
      obtain ⟨t, ht, -⟩ := s.hostPart.runCommand_completes
      exact ⟨t, (step_of_engineMoves hr h).trans ht⟩
    | false => exact ⟨_, step_of_not_engineMoves hr h⟩

/-- Settles O8: each command is its checks, its statements and one completion, and a step without reset is the
host's part, with the running command or without. -/
theorem everyCommandCompletes : Obligations.EveryCommandCompletes := by
  refine ⟨fun i s => ?_, exists_step⟩
  obtain ⟨u, c, h, hstatus, hc, hwarn⟩ := exec_completes i s
  have hrej : u.status.rej = s.status.rej := congrArg Status.rej hstatus
  exact ⟨_, h, rfl, rfl, hrej, rfl, hc, Code.fatal_iff hc, decide_eq_true_iff,
    fun hw => hwarn (of_decide_eq_true hw)⟩

/-- A host access in the step of the running command leaves CMD: only the two registers of the interrupt are
written while busy (20_memory R76). -/
theorem State.hostAccess_cmd_of_busy {s : State} (hbusy : s.status.busy = true) (a : BusAccess) :
    (s.hostAccess a).cmd = s.cmd := by
  obtain ⟨u, r, d, ha, hu⟩ := s.hostAccess_cases a
  rw [ha, State.answer_cmd]
  rcases hu with rfl | ⟨-, rfl⟩ | ⟨off, v, hirq, rfl⟩ | ⟨off, size, v, -, -, rfl⟩
  · rfl
  · rfl
  · rw [hbusy, irqRegister, Bool.or_eq_true, decide_eq_true_iff, decide_eq_true_iff] at hirq
    rcases hirq with h | rfl | rfl
    · cases h
    · rfl
    · rfl
  · rfl

theorem State.hostPart_cmd_of_busy {s : State} (hbusy : s.status.busy = true) :
    s.hostPart.cmd = s.cmd := by
  rcases s.hostPart_cases with h | ⟨a, h⟩ <;> rw [h]
  · rfl
  · exact State.hostAccess_cmd_of_busy (s := s.popTurn) hbusy a

theorem State.runCommand_of_ok {s : State} {i : Instr} (h : decode s.cmd = .ok i) :
    s.runCommand = exec i s := by
  rw [State.runCommand, State.fetch, h]

/-- Settles O6: the host's part of the step leaves CMD while a command runs, so the word decoded after it is the
running one. -/
theorem stepRunsTheDecodedCommand : Obligations.StepRunsTheDecodedCommand := by
  rintro s turn rfl hreset
  have hrun (hbusy : s.status.busy = true) (hengine : s.turn.engine = true) :
      step s = s.hostPart.runCommand :=
    step_of_engineMoves hreset (Bool.and_eq_true_iff.mpr ⟨hbusy, hengine⟩)
  refine ⟨s.hostPart, fun ha => ?_, fun a ha => ?_, fun i hbusy hengine hi => ?_,
    fun e hbusy hengine he => ?_, fun hrest => ?_⟩
  · change s.turn.access = none at ha
    rw [State.hostPart, ha]
    rfl
  · change s.turn.access = some a at ha
    rw [State.hostPart, ha]
    rfl
  · refine ⟨(encodeOfDecode _ _ hi).1, (hrun hbusy hengine).trans (State.runCommand_of_ok ?_)⟩
    rwa [State.hostPart_cmd_of_busy hbusy]
  · refine (hrun hbusy hengine).trans (State.runCommand_of_error (e := e) ?_)
    rwa [State.hostPart_cmd_of_busy hbusy]
  · exact step_of_not_engineMoves hreset (Bool.and_eq_false_iff.mpr hrest)

/-! ### Acceptance -/

/-- An aligned word of the register page is never refused. -/
theorem not_refused_register {off : Nat} (hoff : off < 0x1000) (halign : off % 4 = 0) :
    ¬ Spec.refused off .word := by
  rintro (h | ⟨-, h⟩ | ⟨h, -⟩)
  · exact h halign
  · exact h rfl
  · omega

/-- The step of a quiet turn runs the accepted word, at the state with the reply port cleared. -/
theorem step_quiet_of_accepted (s : State) {w : Word} {i : Instr} (r : Resp) (d : Word) (later : List Turn)
    (h : decode w = .ok i) : step { (s.accept w).answer r d with turns := Turn.quiet :: later } =
      exec i { (s.accept w).answer r d with turns := later, reply := none } :=
  (step_of_engineMoves rfl rfl).trans (State.runCommand_of_ok h)

/-- Settles O7: the bus tests BUSY before it accepts the word, and the accepted word is the one that the next
quiet turn decodes. -/
theorem writeToCmdIsAccepted : Obligations.WriteToCmdIsAccepted := by
  intro s addr w haddr
  refine ⟨fun hidle => ⟨_, State.hostAccess_write_cmd w haddr hidle, rfl, fun i later hi =>
    step_quiet_of_accepted s .okay s.openLanes later hi⟩, fun hbusy => ?_⟩
  exact writesWhileBusyAreRejected s addr w .word hbusy
    (not_refused_register (by omega) (by omega)) (by omega) (by omega)

/-! ### The interrupt output -/

/-- A write to IRQ_EN stores its bit, busy or idle (10_state R43; 20_memory R76). -/
theorem State.hostAccess_write_irqEn (s : State) {addr : Word} (v : Word) (haddr : Spec.offsetOf addr = 0x058) :
    s.hostAccess (.write addr .word v) = Spec.writeAnswered { s with doneIe := v.getLsbD 0 } .okay := by
  rw [State.hostAccess_write, show busOffset addr = 0x058 from haddr]
  exact State.hostWrite_register v (by omega) (by omega) (.inr rfl)

/-- A write to IRQ_STAT clears DONE_IP by its bit, busy or idle (10_state R44; 20_memory R76). -/
theorem State.hostAccess_write_irqStat (s : State) {addr : Word} {v : Word} (haddr : Spec.offsetOf addr = 0x05C)
    (hv : v.getLsbD 0 = true) :
    s.hostAccess (.write addr .word v) = Spec.writeAnswered { s with doneIp := false } .okay := by
  rw [irqStatIsWriteOneToClear.1 s addr v haddr, hv]
  rfl

/-- Settles O24: a completion sets DONE_IP and keeps DONE_IE, and each of the two registers has its write. -/
theorem irqFollowsEnableAndPending : Obligations.IrqFollowsEnableAndPending := by
  refine ⟨fun s => rfl, fun s => ?_, fun s addr v haddr hv => ?_, fun s addr v haddr => ?_⟩
  · obtain ⟨t, ht, -, hip, hie, -⟩ := s.runCommand_completes
    exact ⟨t, ht, by rw [State.irq, hie, hip, Bool.and_true]⟩
  · rw [s.hostAccess_write_irqStat haddr hv]
    exact Bool.and_false _
  · have h := s.hostAccess_write_irqEn v haddr
    exact ⟨h, congrArg State.irq h⟩

/-- Settles O25: the command completes at the state that the host's write leaves, so it sets DONE_IP again. -/
theorem completionAfterClearLeavesPending : Obligations.CompletionAfterClearLeavesPending := by
  intro s addr v later hbusy haddr hv hturns
  have hturn : s.turn = { reset := false, access := some (.write addr .word v), engine := true } := by
    rw [State.turn, hturns]
    rfl
  have hhost : s.hostPart = Spec.writeAnswered { s.popTurn with doneIp := false } .okay := by
    rw [State.hostPart, hturn]
    exact s.popTurn.hostAccess_write_irqStat haddr hv
  have hstep : step s = s.hostPart.runCommand :=
    step_of_engineMoves (by rw [hturn]) (by rw [State.engineMoves, hbusy, hturn]; rfl)
  obtain ⟨t, ht, hidle, hip, -, hrest⟩ := s.hostPart.runCommand_completes
  refine ⟨t, hstep.trans ht, hip, hidle, hrest.trans ?_⟩
  rw [hhost]
  exact congrArg List.tail hturns

end Sys2Proof.Machine
end

section
/-! PROOF. The step with the reset input asserted (70_reset R230 to R233). -/

namespace Sys2Proof.Machine

/-- No register shows the fields in which the state after the event can differ from the reset state: the coming
turns and the two counters. -/
theorem State.readReg_applyReset (s : State) (off : Nat) :
    s.applyReset.readReg off = State.reset.readReg off := rfl

/-- Settles O14: the step is the reset event at the state without this turn, whatever the turn brings besides,
and that event gives the reset state with the coming turns and the counters. -/
theorem resetTakesPrecedence : Obligations.ResetTakesPrecedence := by
  intro s hreset
  refine ⟨s.popTurn.applyReset, step_of_reset hreset, fun off hoff halign => ?_,
    rfl, rfl, rfl, rfl, rfl, fun _ => rfl, rfl, rfl⟩
  rw [State.readReg_applyReset]
  exact registersAfterReset off hoff halign

end Sys2Proof.Machine
end
